-- ==== Sys2Proof/Word.lean ====
section
/-! DEFINITION. The two widths the spec gives its data: bytes (R9) and 32-bit register words (R18). -/

namespace Sys2Proof

/-- A byte: 8 bits, bit 0 the least significant (R9). -/
abbrev Byte := BitVec 8

/-- The width of every register and of every host access: 32 bits (R6 `BUS_DATA_BITS`, R18, R34). -/
abbrev Word := BitVec 32

/-- A byte offset of the engine's address space: 18 bits, so 0x00000 to 0x3FFFF (R6 `ADDR_WIDTH`, R32). An offset of
0x40000 or more "cannot be expressed in `ADDR_WIDTH` bits and does not reach the engine" (R34): it is no value of this
type. -/
abbrev Offset := BitVec 18

end Sys2Proof
end

