-- ==== Sys2Proof/Machine/Aes.lean ====
section
/-! DEFINITION. The AES-128 block cipher (R62 to R72): the functions the CBC chaining uses. "This file defines functions, not
commands" (log entry 15). -/

namespace Sys2Proof.Machine

/-- A column of the AES state, or a word of the key schedule: four bytes, row 0 first (R62, R70). -/
structure Column where
  r0 : Byte
  r1 : Byte
  r2 : Byte
  r3 : Byte
  deriving DecidableEq, Repr

/-- The AES state `s[r][c]`, by columns (R62): byte `r + 4c` of a block is row `r` of column `c`. -/
structure Grid where
  c0 : Column
  c1 : Column
  c2 : Column
  c3 : Column
  deriving DecidableEq, Repr

/-- The state a 16-byte block enters: `s[r][c] = in[r + 4c]` (R62). -/
def gridOfBytes (b : List Byte) : Grid :=
  { c0 := { r0 := b.getD 0 0, r1 := b.getD 1 0, r2 := b.getD 2 0, r3 := b.getD 3 0 }
    c1 := { r0 := b.getD 4 0, r1 := b.getD 5 0, r2 := b.getD 6 0, r3 := b.getD 7 0 }
    c2 := { r0 := b.getD 8 0, r1 := b.getD 9 0, r2 := b.getD 10 0, r3 := b.getD 11 0 }
    c3 := { r0 := b.getD 12 0, r1 := b.getD 13 0, r2 := b.getD 14 0, r3 := b.getD 15 0 } }

/-- The bytes of a column, row 0 first. -/
def columnBytes (c : Column) : List Byte := [c.r0, c.r1, c.r2, c.r3]

/-- The output block: `out[r + 4c] = s[r][c]` (R62). -/
def gridBytes (g : Grid) : List Byte := columnBytes g.c0 ++ columnBytes g.c1 ++ columnBytes g.c2 ++ columnBytes g.c3

/-- `xtime(a)` (R63): `a • 0x02`. -/
def xtime (a : Byte) : Byte := (a <<< 1) ^^^ (if a.getLsbD 7 then 0x1B else 0x00)

/-- `b • x^i`: `xtime` taken `i` times. -/
def xtimes : Nat → Byte → Byte
  | 0, b => b
  | i + 1, b => xtime (xtimes i b)

/-- The field product `a • b` (R63): the sum (XOR) of `b • x^i` over the bits `i` of `a` that are 1. -/
def fieldMul (a b : Byte) : Byte :=
  (List.range 8).foldl (fun acc i => if a.getLsbD i then acc ^^^ xtimes i b else acc) 0

/-- The S-box table of R65, row `hi` by row: entry `lo` of row `hi` is `SBox(16·hi + lo)`. -/
def sboxRows : List (List Byte) :=
  [[0x63, 0x7c, 0x77, 0x7b, 0xf2, 0x6b, 0x6f, 0xc5, 0x30, 0x01, 0x67, 0x2b, 0xfe, 0xd7, 0xab, 0x76],
   [0xca, 0x82, 0xc9, 0x7d, 0xfa, 0x59, 0x47, 0xf0, 0xad, 0xd4, 0xa2, 0xaf, 0x9c, 0xa4, 0x72, 0xc0],
   [0xb7, 0xfd, 0x93, 0x26, 0x36, 0x3f, 0xf7, 0xcc, 0x34, 0xa5, 0xe5, 0xf1, 0x71, 0xd8, 0x31, 0x15],
   [0x04, 0xc7, 0x23, 0xc3, 0x18, 0x96, 0x05, 0x9a, 0x07, 0x12, 0x80, 0xe2, 0xeb, 0x27, 0xb2, 0x75],
   [0x09, 0x83, 0x2c, 0x1a, 0x1b, 0x6e, 0x5a, 0xa0, 0x52, 0x3b, 0xd6, 0xb3, 0x29, 0xe3, 0x2f, 0x84],
   [0x53, 0xd1, 0x00, 0xed, 0x20, 0xfc, 0xb1, 0x5b, 0x6a, 0xcb, 0xbe, 0x39, 0x4a, 0x4c, 0x58, 0xcf],
   [0xd0, 0xef, 0xaa, 0xfb, 0x43, 0x4d, 0x33, 0x85, 0x45, 0xf9, 0x02, 0x7f, 0x50, 0x3c, 0x9f, 0xa8],
   [0x51, 0xa3, 0x40, 0x8f, 0x92, 0x9d, 0x38, 0xf5, 0xbc, 0xb6, 0xda, 0x21, 0x10, 0xff, 0xf3, 0xd2],
   [0xcd, 0x0c, 0x13, 0xec, 0x5f, 0x97, 0x44, 0x17, 0xc4, 0xa7, 0x7e, 0x3d, 0x64, 0x5d, 0x19, 0x73],
   [0x60, 0x81, 0x4f, 0xdc, 0x22, 0x2a, 0x90, 0x88, 0x46, 0xee, 0xb8, 0x14, 0xde, 0x5e, 0x0b, 0xdb],
   [0xe0, 0x32, 0x3a, 0x0a, 0x49, 0x06, 0x24, 0x5c, 0xc2, 0xd3, 0xac, 0x62, 0x91, 0x95, 0xe4, 0x79],
   [0xe7, 0xc8, 0x37, 0x6d, 0x8d, 0xd5, 0x4e, 0xa9, 0x6c, 0x56, 0xf4, 0xea, 0x65, 0x7a, 0xae, 0x08],
   [0xba, 0x78, 0x25, 0x2e, 0x1c, 0xa6, 0xb4, 0xc6, 0xe8, 0xdd, 0x74, 0x1f, 0x4b, 0xbd, 0x8b, 0x8a],
   [0x70, 0x3e, 0xb5, 0x66, 0x48, 0x03, 0xf6, 0x0e, 0x61, 0x35, 0x57, 0xb9, 0x86, 0xc1, 0x1d, 0x9e],
   [0xe1, 0xf8, 0x98, 0x11, 0x69, 0xd9, 0x8e, 0x94, 0x9b, 0x1e, 0x87, 0xe9, 0xce, 0x55, 0x28, 0xdf],
   [0x8c, 0xa1, 0x89, 0x0d, 0xbf, 0xe6, 0x42, 0x68, 0x41, 0x99, 0x2d, 0x0f, 0xb0, 0x54, 0xbb, 0x16]]

/-- The inverse S-box table of R66, row `hi` by row. -/
def invSboxRows : List (List Byte) :=
  [[0x52, 0x09, 0x6a, 0xd5, 0x30, 0x36, 0xa5, 0x38, 0xbf, 0x40, 0xa3, 0x9e, 0x81, 0xf3, 0xd7, 0xfb],
   [0x7c, 0xe3, 0x39, 0x82, 0x9b, 0x2f, 0xff, 0x87, 0x34, 0x8e, 0x43, 0x44, 0xc4, 0xde, 0xe9, 0xcb],
   [0x54, 0x7b, 0x94, 0x32, 0xa6, 0xc2, 0x23, 0x3d, 0xee, 0x4c, 0x95, 0x0b, 0x42, 0xfa, 0xc3, 0x4e],
   [0x08, 0x2e, 0xa1, 0x66, 0x28, 0xd9, 0x24, 0xb2, 0x76, 0x5b, 0xa2, 0x49, 0x6d, 0x8b, 0xd1, 0x25],
   [0x72, 0xf8, 0xf6, 0x64, 0x86, 0x68, 0x98, 0x16, 0xd4, 0xa4, 0x5c, 0xcc, 0x5d, 0x65, 0xb6, 0x92],
   [0x6c, 0x70, 0x48, 0x50, 0xfd, 0xed, 0xb9, 0xda, 0x5e, 0x15, 0x46, 0x57, 0xa7, 0x8d, 0x9d, 0x84],
   [0x90, 0xd8, 0xab, 0x00, 0x8c, 0xbc, 0xd3, 0x0a, 0xf7, 0xe4, 0x58, 0x05, 0xb8, 0xb3, 0x45, 0x06],
   [0xd0, 0x2c, 0x1e, 0x8f, 0xca, 0x3f, 0x0f, 0x02, 0xc1, 0xaf, 0xbd, 0x03, 0x01, 0x13, 0x8a, 0x6b],
   [0x3a, 0x91, 0x11, 0x41, 0x4f, 0x67, 0xdc, 0xea, 0x97, 0xf2, 0xcf, 0xce, 0xf0, 0xb4, 0xe6, 0x73],
   [0x96, 0xac, 0x74, 0x22, 0xe7, 0xad, 0x35, 0x85, 0xe2, 0xf9, 0x37, 0xe8, 0x1c, 0x75, 0xdf, 0x6e],
   [0x47, 0xf1, 0x1a, 0x71, 0x1d, 0x29, 0xc5, 0x89, 0x6f, 0xb7, 0x62, 0x0e, 0xaa, 0x18, 0xbe, 0x1b],
   [0xfc, 0x56, 0x3e, 0x4b, 0xc6, 0xd2, 0x79, 0x20, 0x9a, 0xdb, 0xc0, 0xfe, 0x78, 0xcd, 0x5a, 0xf4],
   [0x1f, 0xdd, 0xa8, 0x33, 0x88, 0x07, 0xc7, 0x31, 0xb1, 0x12, 0x10, 0x59, 0x27, 0x80, 0xec, 0x5f],
   [0x60, 0x51, 0x7f, 0xa9, 0x19, 0xb5, 0x4a, 0x0d, 0x2d, 0xe5, 0x7a, 0x9f, 0x93, 0xc9, 0x9c, 0xef],
   [0xa0, 0xe0, 0x3b, 0x4d, 0xae, 0x2a, 0xf5, 0xb0, 0xc8, 0xeb, 0xbb, 0x3c, 0x83, 0x53, 0x99, 0x61],
   [0x17, 0x2b, 0x04, 0x7e, 0xba, 0x77, 0xd6, 0x26, 0xe1, 0x69, 0x14, 0x63, 0x55, 0x21, 0x0c, 0x7d]]

/-- An entry of a table of 16 rows of 16 (R65, R66): row `a[7:4]`, column `a[3:0]`. -/
def tableByte (rows : List (List Byte)) (a : Byte) : Byte := (rows.getD (a.toNat / 16) []).getD (a.toNat % 16) 0

/-- `SBox(a)` (R64, R65). -/
def sbox (a : Byte) : Byte := tableByte sboxRows a

/-- `InvSBox(a)` (R64, R66). -/
def invSbox (a : Byte) : Byte := tableByte invSboxRows a

/-- A function of bytes on each lane of a column. -/
def mapColumn (f : Byte → Byte) (c : Column) : Column := { r0 := f c.r0, r1 := f c.r1, r2 := f c.r2, r3 := f c.r3 }

/-- A function of bytes on each of the 16 lanes, independently (R64). -/
def mapGrid (f : Byte → Byte) (g : Grid) : Grid :=
  { c0 := mapColumn f g.c0, c1 := mapColumn f g.c1, c2 := mapColumn f g.c2, c3 := mapColumn f g.c3 }

/-- SubBytes (R64). -/
def subBytes (g : Grid) : Grid := mapGrid sbox g

/-- InvSubBytes (R64). -/
def invSubBytes (g : Grid) : Grid := mapGrid invSbox g

/-- ShiftRows (R67): `s'[r][c] = s[r][(c + r) mod 4]`. -/
def shiftRows (g : Grid) : Grid :=
  { c0 := { r0 := g.c0.r0, r1 := g.c1.r1, r2 := g.c2.r2, r3 := g.c3.r3 }
    c1 := { r0 := g.c1.r0, r1 := g.c2.r1, r2 := g.c3.r2, r3 := g.c0.r3 }
    c2 := { r0 := g.c2.r0, r1 := g.c3.r1, r2 := g.c0.r2, r3 := g.c1.r3 }
    c3 := { r0 := g.c3.r0, r1 := g.c0.r1, r2 := g.c1.r2, r3 := g.c2.r3 } }

/-- InvShiftRows (R67): `s'[r][c] = s[r][(c - r) mod 4]`. -/
def invShiftRows (g : Grid) : Grid :=
  { c0 := { r0 := g.c0.r0, r1 := g.c3.r1, r2 := g.c2.r2, r3 := g.c1.r3 }
    c1 := { r0 := g.c1.r0, r1 := g.c0.r1, r2 := g.c3.r2, r3 := g.c2.r3 }
    c2 := { r0 := g.c2.r0, r1 := g.c1.r1, r2 := g.c0.r2, r3 := g.c3.r3 }
    c3 := { r0 := g.c3.r0, r1 := g.c2.r1, r2 := g.c1.r2, r3 := g.c0.r3 } }

/-- One lane of a column product: the field products of four constants with the column's lanes, added (R68). -/
def dotColumn (k0 k1 k2 k3 : Byte) (c : Column) : Byte :=
  fieldMul k0 c.r0 ^^^ fieldMul k1 c.r1 ^^^ fieldMul k2 c.r2 ^^^ fieldMul k3 c.r3

/-- MixColumns on one column (R68). -/
def mixColumn (c : Column) : Column :=
  { r0 := dotColumn 0x02 0x03 0x01 0x01 c
    r1 := dotColumn 0x01 0x02 0x03 0x01 c
    r2 := dotColumn 0x01 0x01 0x02 0x03 c
    r3 := dotColumn 0x03 0x01 0x01 0x02 c }

/-- InvMixColumns on one column (R68). -/
def invMixColumn (c : Column) : Column :=
  { r0 := dotColumn 0x0e 0x0b 0x0d 0x09 c
    r1 := dotColumn 0x09 0x0e 0x0b 0x0d c
    r2 := dotColumn 0x0d 0x09 0x0e 0x0b c
    r3 := dotColumn 0x0b 0x0d 0x09 0x0e c }

/-- MixColumns (R68): each column "replaced independently of the other columns". -/
def mixColumns (g : Grid) : Grid :=
  { c0 := mixColumn g.c0, c1 := mixColumn g.c1, c2 := mixColumn g.c2, c3 := mixColumn g.c3 }

/-- InvMixColumns (R68). -/
def invMixColumns (g : Grid) : Grid :=
  { c0 := invMixColumn g.c0, c1 := invMixColumn g.c1, c2 := invMixColumn g.c2, c3 := invMixColumn g.c3 }

/-- The XOR of two words of the key schedule, or of two columns, lane by lane. -/
def xorColumn (a b : Column) : Column :=
  { r0 := a.r0 ^^^ b.r0, r1 := a.r1 ^^^ b.r1, r2 := a.r2 ^^^ b.r2, r3 := a.r3 ^^^ b.r3 }

/-- AddRoundKey (R69): `s'[r][c] = s[r][c] XOR rk[r + 4c]`. -/
def addRoundKey (g rk : Grid) : Grid :=
  { c0 := xorColumn g.c0 rk.c0, c1 := xorColumn g.c1 rk.c1, c2 := xorColumn g.c2 rk.c2, c3 := xorColumn g.c3 rk.c3 }

/-- RotWord (R70): `[t[1], t[2], t[3], t[0]]`. -/
def rotWord (t : Column) : Column := { r0 := t.r1, r1 := t.r2, r2 := t.r3, r3 := t.r0 }

/-- SubWord (R70): the S-box on each byte. -/
def subWord (t : Column) : Column := mapColumn sbox t

/-- `Rcon[1..10]` (R70). -/
def rconBytes : List Byte := [0x01, 0x02, 0x04, 0x08, 0x10, 0x20, 0x40, 0x80, 0x1b, 0x36]

/-- The word `t` of R70 at an `i` that is a multiple of 4: `SubWord(RotWord(w[i-1]))` with `t[0] XOR Rcon[i/4]`. -/
def keyCore (w : Column) (rcon : Byte) : Column :=
  let t := subWord (rotWord w)
  { t with r0 := t.r0 ^^^ rcon }

/-- One round of R70's loop: the four words `w[4j] .. w[4j+3]` from the four before them. At `i = 4j` the word `t` is
`keyCore`; at the three others it is `w[i-1]` as it is. -/
def nextRoundKey (rk : Grid) (rcon : Byte) : Grid :=
  let w0 := xorColumn rk.c0 (keyCore rk.c3 rcon)
  let w1 := xorColumn rk.c1 w0
  let w2 := xorColumn rk.c2 w1
  let w3 := xorColumn rk.c3 w2
  { c0 := w0, c1 := w1, c2 := w2, c3 := w3 }

/-- The round keys that follow `rk`, one for each round constant. -/
def roundKeysFrom (rk : Grid) : List Byte → List Grid
  | [] => []
  | rcon :: rest => nextRoundKey rk rcon :: roundKeysFrom (nextRoundKey rk rcon) rest

/-- `KeyExpansion(K)` (R70): `RK[0]` is the key, and `RK[1]` to `RK[10]` follow. -/
def keyExpansion (k : List Byte) : List Grid := gridOfBytes k :: roundKeysFrom (gridOfBytes k) rconBytes

/-- The rounds of the cipher after the first AddRoundKey (R71): the last round key ends the cipher with no MixColumns. -/
def encRounds : List Grid → Grid → Grid
  | [], s => s
  | [rk], s => addRoundKey (shiftRows (subBytes s)) rk
  | rk :: rks, s => encRounds rks (addRoundKey (mixColumns (shiftRows (subBytes s))) rk)

/-- `AES128_Enc(K, blk)` on the state, for the round keys in order (R71). -/
def encGrid : List Grid → Grid → Grid
  | [], s => s
  | rk0 :: rks, s => encRounds rks (addRoundKey s rk0)

/-- The rounds of the inverse cipher after the first AddRoundKey, for `RK[9]` down to `RK[0]` (R72). -/
def decRounds : List Grid → Grid → Grid
  | [], s => s
  | [rk], s => addRoundKey (invSubBytes (invShiftRows s)) rk
  | rk :: rks, s => decRounds rks (invMixColumns (addRoundKey (invSubBytes (invShiftRows s)) rk))

/-- The inverse cipher on the state, for the round keys from the last to the first (R72). -/
def decGrid : List Grid → Grid → Grid
  | [], s => s
  | rk10 :: rks, s => decRounds rks (addRoundKey s rk10)

/-- `AES128_Enc(K, blk)` (R71). -/
def aesEnc (k blk : List Byte) : List Byte := gridBytes (encGrid (keyExpansion k) (gridOfBytes blk))

/-- `AES128_Dec(K, blk)` (R72). -/
def aesDec (k blk : List Byte) : List Byte := gridBytes (decGrid (keyExpansion k).reverse (gridOfBytes blk))

end Sys2Proof.Machine
end

