-- ==== Sys2Proof/Machine/Cbc.lean ====
section
/-! DEFINITION. The CBC chaining (R56, R57). The chaining value CV (R29) is an argument of the loop: a private copy of the
IV at the start of each pass. -/

namespace Sys2Proof.Machine

/-- `a XOR b` on two byte strings of equal length (R9). -/
def xorBytes (a b : List Byte) : List Byte := List.zipWith (· ^^^ ·) a b

/-- The loop of `CBC_Enc` over `N` blocks, from a chaining value (R56). -/
def cbcEncBlocks (k : List Byte) : Nat → List Byte → List Byte → List Byte
  | 0, _, _ => []
  | n + 1, cv, p =>
    let c := aesEnc k (xorBytes (p.take 16) cv)
    c ++ cbcEncBlocks k n c (p.drop 16)

/-- `CBC_Enc(K, iv, P)` (R56), for `len(P) = 16·N`. -/
def cbcEnc (k iv p : List Byte) : List Byte := cbcEncBlocks k (p.length / 16) iv p

/-- The loop of `CBC_Dec` over `N` blocks, from a chaining value (R57). -/
def cbcDecBlocks (k : List Byte) : Nat → List Byte → List Byte → List Byte
  | 0, _, _ => []
  | n + 1, cv, c => xorBytes (aesDec k (c.take 16)) cv ++ cbcDecBlocks k n (c.take 16) (c.drop 16)

/-- `CBC_Dec(K, iv, C)` (R57), for `len(C) = 16·N`. -/
def cbcDec (k iv c : List Byte) : List Byte := cbcDecBlocks k (c.length / 16) iv c

end Sys2Proof.Machine
end

