-- ==== Sys2Proof/Syntax.lean ====
section
/-! DEFINITION. What the four agents of R15 say to the engine: the nine commands of R45 (one constructor for each row of
spec/opcode_table.json), the host's bus accesses (R12, R34), the entropy source's answers (R91), and the events of the one
total order of R41. -/

namespace Sys2Proof

/-- The nine commands (R45). "A command has no operand fields" (R47): its operands are registers, buffer bytes and
entropy, all fixed by the command. -/
inductive Instr where
  /-- FRAME_BUILD, OP 0x1 (R54) -/
  | frameBuild
  /-- FRAME_PARSE, OP 0x2 (R55) -/
  | frameParse
  /-- GEN_IV, OP 0x3 (R59) -/
  | genIv
  /-- CBC_ENCRYPT, OP 0x4 (R60) -/
  | cbcEncrypt
  /-- CBC_DECRYPT, OP 0x5 (R61) -/
  | cbcDecrypt
  /-- B64_ENCODE, OP 0x6 (R76) -/
  | b64Encode
  /-- B64_DECODE, OP 0x7 (R77) -/
  | b64Decode
  /-- PAYLOAD_ENCRYPT, OP 0x8 (R78) -/
  | payloadEncrypt
  /-- PAYLOAD_DECRYPT, OP 0x9 (R79) -/
  | payloadDecrypt
  deriving DecidableEq, Repr

/-- The width of a host access. Only 32 bits is served; "8 or 16 bits, or a burst" gets an error response (R34). -/
inductive Width where
  | bits8
  | bits16
  | bits32
  | burst
  deriving DecidableEq, Repr

/-- One host access: `MemRead(off, 4)` or `MemWrite(off, 4, v)` (R12), and the accesses of another width or at a
misaligned offset, which R34 answers with an error. -/
inductive Access where
  | read (off : Offset) (width : Width)
  | write (off : Offset) (width : Width) (v : Word)
  deriving DecidableEq, Repr

/-- The entropy source's answer to one request (R91): `Ok(r)` or `Fail`, all or nothing. -/
inductive Answer where
  | ok (r : List Byte)
  | fail
  deriving DecidableEq, Repr

/-- One event of the total order of R41, by the agent that takes it (R15). A command start is the host's CMD write; a
request, and a completion, is a move of the engine; a soft reset is the host's CTRL write. -/
inductive Event where
  /-- the Host issues one access, served at one point of the order (R38) -/
  | host (a : Access)
  /-- the Engine takes its next move: it runs its command up to an entropy request or to the completion (R13, R85) -/
  | engine
  /-- the Entropy source answers the request that carries this tag (R91) -/
  | entropy (tag : Nat) (a : Answer)
  /-- the Diagnostic sink takes the oldest event off the port, or it is lost (R92, U8) -/
  | sink (lost : Bool)
  /-- power-on reset (R99) -/
  | powerOn
  deriving DecidableEq, Repr

end Sys2Proof
end

