-- ==== Sys2Proof/WellFormed.lean ====
section
/-! DEFINITION. The checks on what reaches the engine, each a Bool: the two checks that make a CMD word one of the nine
commands (R44, R45, R46), the two checks that make a host access one the bus serves (R34), and the check that an entropy
answer keeps the port's protocol (R91). -/

namespace Sys2Proof

/-- `OP = CMD[3:0]` (R44). -/
def cmdOp (w : Word) : BitVec 4 := w.extractLsb' 0 4

/-- `RSV = CMD[31:4]` (R44). -/
def cmdRsv (w : Word) : BitVec 28 := w.extractLsb' 4 28

/-- "RSV: reserved; must be 0" (R44). -/
def rsvZero (w : Word) : Bool := cmdRsv w == 0

/-- OP is one of the nine opcodes of R45: not 0x0 and not in 0xA..0xF (R46). -/
def opAssigned (w : Word) : Bool := 1 ≤ (cmdOp w).toNat && (cmdOp w).toNat ≤ 9

/-- A CMD word is legal when neither test of R46 calls it illegal. -/
def wordWellFormed (w : Word) : Bool := rsvZero w && opAssigned w

/-- A command has no operand field (R47), so every term of `Instr` is well formed. -/
def instrWellFormed (_ : Instr) : Bool := true

/-- The offset of a host access (R34). -/
def Access.offset : Access → Offset
  | .read off _ => off
  | .write off _ _ => off

/-- The width of a host access (R34). -/
def Access.width : Access → Width
  | .read _ w => w
  | .write _ w _ => w

/-- "at a byte offset that is a multiple of 4" (R34). -/
def accessAligned (a : Access) : Bool := a.offset.toNat % 4 == 0

/-- "moves exactly 32 bits" (R34). -/
def accessFullWidth (a : Access) : Bool := a.width == .bits32

/-- An access the bus serves; any other "receives an error response" (R34). -/
def accessWellFormed (a : Access) : Bool := accessAligned a && accessFullWidth a

/-- "an `Ok` carries exactly `n` bytes" (R91), `n` the number asked for. -/
def answerFits (n : Nat) : Answer → Bool
  | .ok r => r.length == n
  | .fail => true

end Sys2Proof
end

