-- ==== Sys2Proof/Decode.lean ====
section
/-! DEFINITION. The command decoder and encoder (R44 to R46), and the bus's byte lanes (R36; that the decoder takes the CMD
word as its four lanes is log entry 14). -/

namespace Sys2Proof

/-- The four bytes of a word in lane order: byte `j` is bits [8j+7:8j] (R36). -/
def laneBytes (w : Word) : List Byte :=
  [w.extractLsb' 0 8, w.extractLsb' 8 8, w.extractLsb' 16 8, w.extractLsb' 24 8]

/-- A field's value in its place in a word: bit 0 of the field at bit `k`, every other bit of the word 0. -/
def fieldAt (k : Nat) (v : BitVec n) : Word := v.setWidth 32 <<< k

/-- The word that four bytes make on the bus: byte `j` in bits [8j+7:8j] (R36). -/
def wordOfLanes (b0 b1 b2 b3 : Byte) : Word := fieldAt 0 b0 ||| fieldAt 8 b1 ||| fieldAt 16 b2 ||| fieldAt 24 b3

/-- Why a CMD value is no command. -/
inductive Reject where
  /-- fewer than four bytes: no 32-bit word (R44) -/
  | truncated
  /-- `RSV != 0` (R46) -/
  | reservedBits
  /-- OP 0x0 or in 0xA..0xF (R46) -/
  | reservedOpcode (op : BitVec 4)
  deriving DecidableEq, Repr

/-- The opcode map (R45), by the value of OP; none for the reserved opcodes. -/
def commandOfOp : Nat → Option Instr
  | 1 => some .frameBuild
  | 2 => some .frameParse
  | 3 => some .genIv
  | 4 => some .cbcEncrypt
  | 5 => some .cbcDecrypt
  | 6 => some .b64Encode
  | 7 => some .b64Decode
  | 8 => some .payloadEncrypt
  | 9 => some .payloadDecrypt
  | _ => none

/-- "A decoder tells the command from the whole word: `OP = CMD[3:0]` and `RSV = CMD[31:4]`" (R44). Every word is one of
the nine commands or rejected by name (R46). -/
def decodeWord (w : Word) : Except Reject Instr :=
  if rsvZero w then
    match commandOfOp (cmdOp w).toNat with
    | some i => .ok i
    | none => .error (.reservedOpcode (cmdOp w))
  else .error .reservedBits

/-- The decoder on bytes in lane order: one 32-bit word, and the bytes after it. -/
def decode : List Byte → Except Reject (Instr × List Byte)
  | b0 :: b1 :: b2 :: b3 :: rest => (decodeWord (wordOfLanes b0 b1 b2 b3)).map (fun i => (i, rest))
  | _ => .error .truncated

/-- The instruction the decoder reads from the low `nbits` bits of `w`, every bit above them 0, laid out as the bus lays
out a word (R36). -/
def decodeTableWord (nbits w : Nat) : Option Instr :=
  match decode (laneBytes (BitVec.ofNat 32 (w % 2 ^ nbits))) with
  | .ok (i, _) => some i
  | .error _ => none

/-- The OP value of a command (R45). -/
def opcodeOf : Instr → BitVec 4
  | .frameBuild => 0x1
  | .frameParse => 0x2
  | .genIv => 0x3
  | .cbcEncrypt => 0x4
  | .cbcDecrypt => 0x5
  | .b64Encode => 0x6
  | .b64Decode => 0x7
  | .payloadEncrypt => 0x8
  | .payloadDecrypt => 0x9

/-- The CMD word of a command: RSV 0 in bits 31:4, OP in bits 3:0 (R44, R45). -/
def encodeWord (i : Instr) : Word := (opcodeOf i).setWidth 32

/-- The bytes of a command's word, in lane order. -/
def encode (i : Instr) : List Byte := laneBytes (encodeWord i)

end Sys2Proof
end

