-- ==== Sys2Proof/Config.lean ====
section
/-! DEFINITION. The engine's open parameters (R6), and the free values: what the spec leaves unspecified (U1 to U4 of
93_implementation_defined.md). A free value is an opaque constant, so nothing proves what it is. -/

namespace Sys2Proof

/-- The parameters the spec leaves OPEN (R6). A machine has one `Config`; every step leaves it as it is. -/
structure Config where
  /-- `BUF_BYTES` in 16-byte blocks, less the four it has at least: each of the 4093 values is a legal buffer size, and
  each legal size ("a multiple of 16 with 64 ≤ `BUF_BYTES` ≤ 65536", R6) is one of them. -/
  bufBlocks : Fin 4093
  /-- `ENGINE_BASE`: where the host maps offset 0 of the engine (R6, R33). No rule depends on it. -/
  engineBase : Nat
  deriving DecidableEq, Repr

/-- `BUF_BYTES` (R6): the size of IBUF and of OBUF in bytes. -/
def Config.bufBytes (c : Config) : Nat := 16 * (c.bufBlocks.val + 4)

/-- The reference configuration of the spec's test vectors: `BUF_BYTES` = 4096 (R6, D5). `ENGINE_BASE` is open and
stands at 0. DESIGN CHOICE (log entry 1). -/
def Config.reference : Config := { bufBlocks := 252, engineBase := 0 }

/-- The host's physical address of an engine offset (R6 `ENGINE_BASE`, R33): "nothing in this spec depends on it". -/
def Config.physicalAddress (c : Config) (off : Offset) : Nat := c.engineBase + off.toNat

/-- `ENTROPY_MAX_REQ` (R6): the largest entropy request the engine issues. -/
def Config.entropyMaxReq (c : Config) : Nat := c.bufBytes

/-- FREE VALUE: the byte that offset `addr` of a buffer holds where draw number `draw` left the buffer unspecified: after
a reset (R31, U3) and, for OBUF, after a failed command (R87, U1). No body: every value is possible (log entries 2 and 16). -/
opaque Config.freeByte (draw addr : Nat) : Byte

/-- FREE VALUE: what a read of OUT_LEN, IVk or an OBUF word returns while BUSY = 1 (R103, U2), a new draw at each read
(log entry 3). -/
opaque Config.freeWord (draw : Nat) : Word

/-- FREE VALUE: the bytes a scratch buffer holds before a command writes it (R29, R31, U4). "No rule reads them before a
command writes them" (R31): only states that no run reaches read one (log entry 4). -/
opaque Config.freeScratch (draw : Nat) : List Byte

end Sys2Proof
end

