-- ==== Sys2Proof/Machine/State.lean ====
section
/-! DEFINITION. The engine's state, all of it plain data (R16, R29), the reasons a step stops, and the reset state (R31). -/

namespace Sys2Proof.Machine

/-- Why the machine stops with a fault. -/
inductive Fault where
  /-- Raised by an `Event.entropy` whose `Ok` carries another number of bytes than its request asked for. The port's
  protocol has no such answer ("an `Ok` carries exactly `n` bytes", R91), so the spec gives the engine no effect for it.
  Safe: no order of events that R91 allows holds one. No command raises it. -/
  | entropyAnswerLength
  deriving DecidableEq, Repr

/-- Why the machine gives an instruction no meaning. -/
inductive Refusal where
  /-- Raised by an arm of `exec` for an instruction that has no meaning yet. Safe: the machine stops. No arm raises it:
  all nine commands have their meaning. -/
  | notModelled (mnemonic : String)
  deriving DecidableEq, Repr

/-- The error codes 1 to 8 of R82. -/
inductive ErrorCode where
  | emptyInput
  | entropyUnavailable
  | encryptionFailure
  | decodeError
  | malformed
  | corrupted
  | lengthError
  | illegalCommand
  deriving DecidableEq, Repr

/-- Byte memory: the listed bytes, by address, in rising order of address. What an unlisted address of a buffer reads as
is `byteAt` of Machine/Ops.lean. -/
abbrev Memory := List Host.Cell

/-- Four 32-bit registers that hold one 16-byte string: KEY0 to KEY3 (R24), IV0 to IV3 (R25). -/
structure Quad where
  w0 : Word
  w1 : Word
  w2 : Word
  w3 : Word
  deriving DecidableEq, Repr

/-- The engine phase (R28). `busy cmd` is BUSY(op) with `op = cmd[3:0]`; the whole word written to CMD is held, since its
RSV bits decide whether the running command is illegal (R46; log entry 5). -/
inductive Phase where
  | idle
  | busy (cmd : Word)
  deriving DecidableEq, Repr

/-- Which of a command's entropy requests (R47): the frame's filler bytes, or an IV. -/
inductive Purpose where
  | filler
  | iv
  deriving DecidableEq, Repr

/-- How far the running command's pseudocode has come (R13): it has made no entropy request that was answered, or its
latest request, made for `p`, was answered by `a`. -/
inductive Stage where
  | fresh
  | answered (p : Purpose) (a : Answer)
  deriving DecidableEq, Repr

/-- An outstanding entropy request (R29): its size, what it is for, and a tag of the model's own that tells its answer
from a late answer to a request abandoned before (R100; log entry 6). -/
structure Request where
  tag : Nat
  size : Nat
  purpose : Purpose
  deriving DecidableEq, Repr

/-- The content of a hidden buffer: unspecified, or the bytes a command wrote to it (R29, R31; log entry 4). -/
inductive Hidden where
  | unspecified
  | holds (bytes : List Byte)
  deriving DecidableEq, Repr

/-- The hidden state of R29 that a command computes with: never read by the host. -/
structure Scratch where
  /-- the chaining value CV, 16 bytes -/
  cv : Hidden
  /-- the round keys, 11 × 16 bytes -/
  roundKeys : Hidden
  /-- the transient Frame of the PAYLOAD commands -/
  frame : Hidden
  /-- the transient CipherFrame of the PAYLOAD commands -/
  env : Hidden
  deriving DecidableEq, Repr

/-- "Contents unspecified": what the scratch is after a reset (R31) and between commands (R29). -/
def Scratch.unspecified : Scratch :=
  { cv := .unspecified, roundKeys := .unspecified, frame := .unspecified, env := .unspecified }

/-- The severity of a diagnostic event (R92). -/
inductive Severity where
  | error
  | notice
  deriving DecidableEq, Repr

/-- An event `(sev, code, count)` of the diagnostic port (R92). -/
structure DiagEvent where
  sev : Severity
  code : BitVec 4
  count : Word
  deriving DecidableEq, Repr

/-- What the bus answers to a host access (R34): the error flag, and the data of a read (0 for a write). -/
structure BusResponse where
  error : Bool
  data : Word
  deriving DecidableEq, Repr

/-- The whole machine. The host-visible registers CMD, STATUS, CTRL are views of these fields: CMD holds no state (R19);
STATUS is `statusWord` and CTRL is `ctrlWord` of Machine/Flags.lean, with BUSY read off the phase (R28), KEY_VALID off
KEY_WR (R20) and ENT_WAIT off the outstanding request (R29). The output line `irq` is `irq` there (R90). -/
structure State where
  /-- the open parameters (R6); the model's own place for them (log entry 1) -/
  config : Config
  /-- the engine phase (R28): STATUS.BUSY, and the running command -/
  phase : Phase
  /-- the running command's place in its pseudocode (R13) -/
  stage : Stage
  /-- STATUS.DONE, bit 1 (R20) -/
  done : Bool
  /-- STATUS.ERR, bit 2 (R20) -/
  err : Bool
  /-- STATUS.KEY_WR, bits 7:4 (R20, R24): the key-written mask of R29 -/
  keyWr : BitVec 4
  /-- STATUS.ERRCODE, bits 11:8 (R20, R82) -/
  errcode : BitVec 4
  /-- STATUS.WR_IGN, bit 12 (R20) -/
  wrIgn : Bool
  /-- STATUS.LAST_OP, bits 19:16 (R20) -/
  lastOp : BitVec 4
  /-- CTRL.IRQ_EN, bit 0 (R21) -/
  irqEn : Bool
  /-- IN_LEN (R22) -/
  inLen : Word
  /-- OUT_LEN (R23) -/
  outLen : Word
  /-- KEY0 to KEY3 (R24) -/
  key : Quad
  /-- IV0 to IV3 (R25) -/
  iv : Quad
  /-- IBUF and OBUF (R26, R27), by their byte offsets in the engine's address space (R33) -/
  mem : Memory
  /-- the draw that left the unlisted bytes of IBUF unspecified (the model's own; log entry 2) -/
  ibufDraw : Nat
  /-- the draw that left the unlisted bytes of OBUF unspecified (the model's own; log entry 2) -/
  obufDraw : Nat
  /-- CV, round keys, FRAME and ENV (R29) -/
  scratch : Scratch
  /-- the outstanding entropy request (R29): STATUS.ENT_WAIT, bit 13 (R20) -/
  request : Option Request
  /-- the tag of the next entropy request (the model's own; log entry 6) -/
  nextTag : Nat
  /-- the diagnostic port: events emitted and not yet taken off it or lost, oldest first (R92; log entry 10) -/
  diag : List DiagEvent
  /-- the bus's answer to the last host access (R34; the model's own; log entry 7) -/
  resp : BusResponse
  /-- the number of free values drawn so far (the model's own; log entries 2 and 3) -/
  draws : Nat
  /-- the events still to come, in the total order of R41 (the model's own: the agents' schedule; log entry 8) -/
  events : List Event
  deriving DecidableEq, Repr

/-- The reset state of R31 for a configuration, with no event to come; the model's own fields stand as log entry 13
says. -/
def State.resetOf (c : Config) : State :=
  { config := c
    phase := .idle
    stage := .fresh
    done := false
    err := false
    keyWr := 0
    errcode := 0
    wrIgn := false
    lastOp := 0
    irqEn := false
    inLen := 0
    outLen := 0
    key := { w0 := 0, w1 := 0, w2 := 0, w3 := 0 }
    iv := { w0 := 0, w1 := 0, w2 := 0, w3 := 0 }
    mem := []
    ibufDraw := 0
    obufDraw := 0
    scratch := Scratch.unspecified
    request := none
    nextTag := 0
    diag := []
    resp := { error := false, data := 0 }
    draws := 1
    events := [] }

/-- The machine right after power-on reset (R99, R31), in the reference configuration (R6; log entry 1). -/
def State.reset : State := State.resetOf Config.reference

end Sys2Proof.Machine
end

