-- ==== Sys2Proof/Machine/Flags.lean ====
section
/-! DEFINITION. The status flags (R20, R30), the CTRL and STATUS words, the interrupt line (R90), the error code numbers
(R82), and the write-1-to-clear of STATUS (R20). -/

namespace Sys2Proof.Machine

/-- The code of an error, as STATUS.ERRCODE holds it (R82). -/
def errorNumber : ErrorCode → BitVec 4
  | .emptyInput => 1
  | .entropyUnavailable => 2
  | .encryptionFailure => 3
  | .decodeError => 4
  | .malformed => 5
  | .corrupted => 6
  | .lengthError => 7
  | .illegalCommand => 8

/-- STATUS.BUSY: "1 exactly in `BUSY(op)`" (R28). -/
def busy (s : State) : Bool :=
  match s.phase with
  | .idle => false
  | .busy _ => true

/-- STATUS.KEY_VALID: "1 exactly when KEY_WR = 0b1111" (R20). -/
def keyValid (s : State) : Bool := s.keyWr == 0b1111

/-- STATUS.ENT_WAIT: "1 while the engine waits for an answer from the entropy port" (R20). -/
def entWait (s : State) : Bool := s.request.isSome

/-- The word a read of STATUS returns (R20): LAST_OP 19:16, ENT_WAIT 13, WR_IGN 12, ERRCODE 11:8, KEY_WR 7:4,
KEY_VALID 3, ERR 2, DONE 1, BUSY 0; the reserved bits 31:20 and 15:14 read 0. -/
def statusWord (s : State) : Word :=
  fieldAt 0 (BitVec.ofBool (busy s)) ||| fieldAt 1 (BitVec.ofBool s.done) ||| fieldAt 2 (BitVec.ofBool s.err) |||
    fieldAt 3 (BitVec.ofBool (keyValid s)) ||| fieldAt 4 s.keyWr ||| fieldAt 8 s.errcode |||
    fieldAt 12 (BitVec.ofBool s.wrIgn) ||| fieldAt 13 (BitVec.ofBool (entWait s)) ||| fieldAt 16 s.lastOp

/-- The word a read of CTRL returns (R21): IRQ_EN in bit 0; SRST and the reserved bits read 0. -/
def ctrlWord (s : State) : Word := fieldAt 0 (BitVec.ofBool s.irqEn)

/-- The interrupt line: `irq = STATUS.DONE AND CTRL.IRQ_EN` (R90). -/
def irq (s : State) : Bool := s.done && s.irqEn

/-- A write of `v` to STATUS (R20): "clears DONE if bit 1 of the written value is 1, clears ERR if bit 2 is 1, clears WR_IGN
if bit 12 is 1, and changes nothing else". It is also how the host puts a completion behind it (R89). -/
def clearByStatusWrite (v : Word) (s : State) : State :=
  { s with
    done := s.done && !v.getLsbD 1
    err := s.err && !v.getLsbD 2
    wrIgn := s.wrIgn && !v.getLsbD 12 }

end Sys2Proof.Machine
end

