-- ==== Sys2Proof/Machine/Operands.lean ====
section
/-! DEFINITION. What an access or a command names: the location at an offset of the address map (R18, R33), a word and the
byte string of KEY and IV (R24, R25, R36), one byte and a byte string of the buffers (R26, R27), and the lengths the
commands compute (R8). -/

namespace Sys2Proof.Machine

/-- A host-visible location (R18, R33). `ibuf i` and `obuf i` are the words that hold bytes `i` to `i + 3` of a buffer. -/
inductive Target where
  | cmd
  | status
  | ctrl
  | inLen
  | outLen
  | key (k : Fin 4)
  | iv (k : Fin 4)
  | ibuf (i : Nat)
  | obuf (i : Nat)
  | reserved
  deriving DecidableEq, Repr

/-- The byte offset of IBUF[0] (R33). -/
def ibufBase : Nat := 0x10000

/-- The byte offset of OBUF[0] (R33). -/
def obufBase : Nat := 0x20000

/-- The register at an offset of the register page (R18): 0x14 to 0x1C and 0x40 to 0xFFFC are reserved. -/
def registerAt : Nat → Target
  | 0x00 => .cmd
  | 0x04 => .status
  | 0x08 => .ctrl
  | 0x0C => .inLen
  | 0x10 => .outLen
  | 0x20 => .key 0
  | 0x24 => .key 1
  | 0x28 => .key 2
  | 0x2C => .key 3
  | 0x30 => .iv 0
  | 0x34 => .iv 1
  | 0x38 => .iv 2
  | 0x3C => .iv 3
  | _ => .reserved

/-- The address map (R33): the location at an aligned byte offset, for a buffer size. -/
def targetAt (bufBytes off : Nat) : Target :=
  if off < ibufBase then registerAt off
  else if off < ibufBase + bufBytes then .ibuf (off - ibufBase)
  else if obufBase ≤ off && off < obufBase + bufBytes then .obuf (off - obufBase)
  else .reserved

/-- Register `k` of the four: KEYk or IVk (R24, R25). -/
def Quad.get (q : Quad) (k : Fin 4) : Word :=
  match k with
  | 0 => q.w0
  | 1 => q.w1
  | 2 => q.w2
  | 3 => q.w3

/-- A write of register `k` of the four. -/
def Quad.set (q : Quad) (k : Fin 4) (v : Word) : Quad :=
  match k with
  | 0 => { q with w0 := v }
  | 1 => { q with w1 := v }
  | 2 => { q with w2 := v }
  | 3 => { q with w3 := v }

/-- The 16-byte string the four registers hold: byte `4k + j` is bits [8j+7:8j] of register `k` (R24, R25, R36). -/
def Quad.bytes (q : Quad) : List Byte := laneBytes q.w0 ++ laneBytes q.w1 ++ laneBytes q.w2 ++ laneBytes q.w3

/-- The registers that hold a 16-byte string (R25, R36); the inverse of `Quad.bytes`. -/
def Quad.ofBytes (b : List Byte) : Quad :=
  { w0 := wordOfLanes (b.getD 0 0) (b.getD 1 0) (b.getD 2 0) (b.getD 3 0)
    w1 := wordOfLanes (b.getD 4 0) (b.getD 5 0) (b.getD 6 0) (b.getD 7 0)
    w2 := wordOfLanes (b.getD 8 0) (b.getD 9 0) (b.getD 10 0) (b.getD 11 0)
    w3 := wordOfLanes (b.getD 12 0) (b.getD 13 0) (b.getD 14 0) (b.getD 15 0) }

/-- Sixteen bytes 0x00: the value of KEY and IV after a reset (R31), and of KEY after a key clear (R88). -/
def Quad.zero : Quad := { w0 := 0, w1 := 0, w2 := 0, w3 := 0 }

/-- The byte listed at an address, if one is. -/
def Memory.get : Memory → Nat → Option Byte
  | [], _ => none
  | (a, b) :: rest, addr => if a = addr then some b else Memory.get rest addr

/-- What an unlisted address reads as: a free value, drawn when the buffer it lies in became unspecified (R31, R87; log
entry 2). -/
def unlistedByte (s : State) (addr : Nat) : Byte :=
  if addr < obufBase then Config.freeByte s.ibufDraw addr else Config.freeByte s.obufDraw addr

/-- The byte at an offset of the IBUF or OBUF window: the listed one, else the free value of an unspecified byte. -/
def byteAt (s : State) (addr : Nat) : Byte := (s.mem.get addr).getD (unlistedByte s addr)

/-- IBUF[i] (R11, R26, R33). -/
def ibufByte (s : State) (i : Nat) : Byte := byteAt s (ibufBase + i)

/-- OBUF[i] (R11, R27, R33). -/
def obufByte (s : State) (i : Nat) : Byte := byteAt s (obufBase + i)

/-- The byte string IBUF[0..n) (R11): a command's input. -/
def inputBytes (s : State) (n : Nat) : List Byte := (List.range n).map (ibufByte s)

/-- The word of a buffer at byte offset `addr` (R36). -/
def bufferWord (s : State) (addr : Nat) : Word :=
  wordOfLanes (byteAt s addr) (byteAt s (addr + 1)) (byteAt s (addr + 2)) (byteAt s (addr + 3))

/-- `BUF_BYTES` (R6). -/
def bufBytes (s : State) : Nat := s.config.bufBytes

/-- IN_LEN as a number of bytes: the operand `n` of every command but GEN_IV (R22, R47). -/
def inLength (s : State) : Nat := s.inLen.toNat

/-- `roundUp(x, m) = m · ceil(x / m)` (R8). -/
def roundUp (x m : Nat) : Nat := m * ((x + m - 1) / m)

/-- `paddedSize`: the frame length for a message of `n` bytes (R14, R48). -/
def paddedSize (n : Nat) : Nat := roundUp (n + 8) 16

/-- The number of base64 characters for `n` bytes: `4 · ceil(n / 3)` (R74). -/
def base64Length (n : Nat) : Nat := 4 * ((n + 2) / 3)

/-- The string in the first `n` bytes of IBUF, which "ends at the first 0x00" or at IN_LEN (R77, D16). -/
def inputString (s : State) (n : Nat) : List Byte := (inputBytes s n).takeWhile (fun b => b != 0)

/-- A scratch buffer's bytes: what a command wrote to it, else a free value (U4: "`any value`; no rule reads it before
writing it"; log entry 4). -/
def scratchBytes (draw : Nat) : Hidden → List Byte
  | .holds b => b
  | .unspecified => Config.freeScratch draw

end Sys2Proof.Machine
end

