-- ==== Sys2Proof/Machine/Ops.lean ====
section
/-! DEFINITION. The operations the host port and the commands share: memory writes, the command start (R84), an entropy
request and its answer (R91), the two completions (R85 to R88, R92), and reset (R99, R100). Taking an exception is
`failCompletion`: "What the source calls a failure is a command that completes with an error code". There is no return
from one (R89): the host clears DONE and ERR (`clearByStatusWrite`) or starts the next command (`startCommand`). -/

namespace Sys2Proof.Machine

/-- A byte written at an address, the list kept in rising order. -/
def Memory.set : Memory → Nat → Byte → Memory
  | [], addr, v => [(addr, v)]
  | (a, b) :: rest, addr, v =>
    if addr < a then (addr, v) :: (a, b) :: rest
    else if addr = a then (a, v) :: rest
    else (a, b) :: Memory.set rest addr v

/-- A byte string written from an address on. -/
def Memory.setBytes (m : Memory) (addr : Nat) : List Byte → Memory
  | [] => m
  | v :: vs => Memory.setBytes (m.set addr v) (addr + 1) vs

/-- The listed bytes below an address. -/
def Memory.below (m : Memory) (addr : Nat) : Memory := m.filter (fun c => c.1 < addr)

/-- The canonical form: addresses strictly rising. An unlisted address of a buffer holds no stored byte, so no entry can
be equal to what it reads as (log entry 2). -/
def Memory.wf : Memory → Bool
  | [] => true
  | [_] => true
  | (a, _) :: (b, y) :: rest => decide (a < b) && Memory.wf ((b, y) :: rest)

/-- A byte string stored in a buffer, from an offset of the address map on. -/
def storeBytes (addr : Nat) (bytes : List Byte) (s : State) : State := { s with mem := s.mem.setBytes addr bytes }

/-- "OBUF <- unspecified" (R87): no byte of OBUF is listed, and the unlisted ones are a new draw (log entry 2). -/
def loseObuf (s : State) : State :=
  { s with mem := s.mem.below obufBase, obufDraw := s.draws, draws := s.draws + 1 }

/-- The key-using commands, opcodes 0x4, 0x5, 0x8, 0x9 (R88). -/
def keyUsing : Instr → Bool
  | .frameBuild => false
  | .frameParse => false
  | .genIv => false
  | .cbcEncrypt => true
  | .cbcDecrypt => true
  | .b64Encode => false
  | .b64Decode => false
  | .payloadEncrypt => true
  | .payloadDecrypt => true

/-- Key clear (R88): "sets the 16 key bytes to 0x00 and STATUS.KEY_WR to 0b0000 (so KEY_VALID = 0)". -/
def clearKey (s : State) : State := { s with key := Quad.zero, keyWr := 0 }

/-- The key clear of a completion, when the command that completes is key-using (R88). -/
def clearKeyIf (b : Bool) (s : State) : State := if b then clearKey s else s

/-- The IV register write a command has made, if it made one (R25, R85). -/
def writeIv (iv : Option (List Byte)) (s : State) : State :=
  match iv with
  | none => s
  | some b => { s with iv := Quad.ofBytes b }

/-- An event put on the diagnostic port, behind those not yet taken (R92); "the engine never waits for it". -/
def emitDiag (e : DiagEvent) (s : State) : State := { s with diag := s.diag ++ [e] }

/-- The engine back in IDLE (R28), with no request outstanding and its hidden state not visible any more (R29). -/
def toIdle (s : State) : State :=
  { s with phase := .idle, stage := .fresh, request := none, scratch := Scratch.unspecified }

/-- Command start (R84): phase, BUSY, DONE, ERR, ERRCODE and LAST_OP; "every other register [is] unchanged". The command
begins at the top of its pseudocode. -/
def startCommand (v : Word) (s : State) : State :=
  { s with phase := .busy v, stage := .fresh, done := false, err := false, errcode := 0, lastOp := cmdOp v }

/-- `issue request(n); STATUS.ENT_WAIT <- 1` (R91). The command goes on where the answer leaves it. -/
def requestEntropy (p : Purpose) (n : Nat) (s : State) : State :=
  { s with request := some { tag := s.nextTag, size := n, purpose := p }, nextTag := s.nextTag + 1 }

/-- The entropy source's answer (R91): it ends the wait it belongs to (`STATUS.ENT_WAIT <- 0`). An answer to a request that a
reset abandoned is discarded ("An answer that arrives after a reset is discarded", R91, R100). DESIGN CHOICE: so is an
answer that matches no outstanding request though no reset abandoned one (unsolicited, duplicate or early), of which the
spec says nothing (log entry 18); an `Ok` of another length than asked stops with a fault (log entry 9). -/
def receiveAnswer (tag : Nat) (a : Answer) (s : State) : Host.Outcome State Fault Refusal :=
  match s.request with
  | none => .next s
  | some r =>
    if r.tag = tag then
      if answerFits r.size a then .next { s with request := none, stage := .answered r.purpose a }
      else .fault .entropyAnswerLength
    else .next s

/-- What a command that succeeds leaves in OBUF (R27): its result, followed by 0x00 when the result is a nul-terminated
string. -/
def resultBytes (out : List Byte) (nul : Bool) : List Byte := if nul then out ++ [0] else out

/-- The commands whose success is told to the diagnostic port: PAYLOAD_DECRYPT alone (R86, R92). -/
def noticesSuccess : Instr → Bool
  | .frameBuild => false
  | .frameParse => false
  | .genIv => false
  | .cbcEncrypt => false
  | .cbcDecrypt => false
  | .b64Encode => false
  | .b64Decode => false
  | .payloadEncrypt => false
  | .payloadDecrypt => true

/-- `Diag(NOTICE, 0, OUT_LEN)` at a success of PAYLOAD_DECRYPT (R86, R92). -/
def emitNoticeIf (b : Bool) (s : State) : State :=
  if b then emitDiag { sev := .notice, code := 0, count := s.outLen } s else s

/-- Completion with success (R86, `finish_ok()`), in one atomic step (R85): the result in OBUF from OBUF[0] on, OUT_LEN
without the terminator (R23), the IV write, the key clear (R88), the status, and the notice of PAYLOAD_DECRYPT. -/
def successCompletion (i : Instr) (out : List Byte) (nul : Bool) (iv : Option (List Byte)) (s : State) : State :=
  emitNoticeIf (noticesSuccess i) (toIdle (clearKeyIf (keyUsing i) (writeIv iv
    { storeBytes obufBase (resultBytes out nul) s with
      outLen := BitVec.ofNat 32 out.length, errcode := 0, err := false, done := true })))

/-- Completion with failure (R87, `raise Error(code)`), in one atomic step: the IV write kept if the command made one, OUT_LEN
0, OBUF unspecified, the key clear of a key-using command, the status, and `Diag(ERROR, code, 0)`. This is the machine's
one way to take an exception. -/
def failCompletion (clear : Bool) (code : ErrorCode) (iv : Option (List Byte)) (s : State) : State :=
  emitDiag { sev := .error, code := errorNumber code, count := 0 }
    (toIdle (clearKeyIf clear (writeIv iv
      { loseObuf s with outLen := 0, errcode := errorNumber code, err := true, done := true })))

/-- `raise Error(code)` in a command (R12, R87). -/
def raiseError (i : Instr) (code : ErrorCode) (iv : Option (List Byte)) (s : State) : Host.Outcome State Fault Refusal :=
  .next (failCompletion (keyUsing i) code iv s)

/-- `finish_ok()` in a command (R12, R86). -/
def finishOk (i : Instr) (out : List Byte) (nul : Bool) (iv : Option (List Byte)) (s : State) :
    Host.Outcome State Fault Refusal :=
  .next (successCompletion i out nul iv s)

/-- The completion of an illegal CMD value (R46): error IllegalCommand; it "does not clear the key". -/
def completeIllegal (s : State) : State := failCompletion false .illegalCommand none s

/-- The reset state of R31, entered at power-on (R99) and by a soft reset (R100) in one atomic step: a running command is
abandoned without a completion, an outstanding request is abandoned, and both buffers become unspecified. The port's
events that are not yet taken, the tag counter and the events to come are not the reset's (log entry 12). -/
def enterReset (s : State) : State :=
  { s with
    phase := .idle
    stage := .fresh
    done := false
    err := false
    keyWr := 0
    errcode := 0
    wrIgn := false
    lastOp := 0
    irqEn := false
    inLen := 0
    outLen := 0
    key := Quad.zero
    iv := Quad.zero
    mem := []
    ibufDraw := s.draws
    obufDraw := s.draws
    scratch := Scratch.unspecified
    request := none
    draws := s.draws + 1 }

/-- The Diagnostic sink takes the oldest event off the port, or that event is lost (R92): "its loss changes no engine state". -/
def sinkMove (s : State) : State := { s with diag := s.diag.drop 1 }

end Sys2Proof.Machine
end

