-- ==== Sys2Proof/Machine/CipherEngine.lean ====
section
/-! DEFINITION. The commands of the CipherEngine: GEN_IV (R59), CBC_ENCRYPT (R60) and CBC_DECRYPT (R61). -/

namespace Sys2Proof.Machine

/-- GEN_IV (R59). It does not read IN_LEN; on success OBUF is unchanged and OUT_LEN is 0. -/
def execGenIv (s : State) : Host.Outcome State Fault Refusal :=
  match s.stage with
  | .fresh => .next (requestEntropy .iv 16 s)
  | .answered _ .fail => raiseError .genIv .entropyUnavailable none s
  | .answered _ (.ok r) => finishOk .genIv [] false (some r) s

/-- CBC_ENCRYPT (R60). -/
def execCbcEncrypt (s : State) : Host.Outcome State Fault Refusal :=
  let n := inLength s
  if bufBytes s < n then raiseError .cbcEncrypt .lengthError none s
  else if n % 16 ≠ 0 then raiseError .cbcEncrypt .encryptionFailure none s
  else if keyValid s then finishOk .cbcEncrypt (cbcEnc s.key.bytes s.iv.bytes (inputBytes s n)) false none s
  else raiseError .cbcEncrypt .encryptionFailure none s

/-- CBC_DECRYPT (R61). -/
def execCbcDecrypt (s : State) : Host.Outcome State Fault Refusal :=
  let n := inLength s
  if bufBytes s < n then raiseError .cbcDecrypt .lengthError none s
  else if n % 16 ≠ 0 then raiseError .cbcDecrypt .malformed none s
  else if keyValid s then finishOk .cbcDecrypt (cbcDec s.key.bytes s.iv.bytes (inputBytes s n)) false none s
  else raiseError .cbcDecrypt .encryptionFailure none s

end Sys2Proof.Machine
end

