-- ==== Sys2Proof/Machine/Frame.lean ====
section
/-! DEFINITION. The frame functions `BuildFrame` and `ParseFrame` (R52, R53), through the big-endian accessors of R10. -/

namespace Sys2Proof.Machine

/-- `be32(n)` (R10): `[n[31:24], n[23:16], n[15:8], n[7:0]]`. -/
def be32 (n : Nat) : List Byte :=
  let w : Word := BitVec.ofNat 32 n
  [w.extractLsb' 24 8, w.extractLsb' 16 8, w.extractLsb' 8 8, w.extractLsb' 0 8]

/-- `rd_be32` (R10) of the four bytes of `b` from index `i` on: the first byte is the most significant. -/
def readBe32 (b : List Byte) (i : Nat) : Nat :=
  (wordOfLanes (b.getD (i + 3) 0) (b.getD (i + 2) 0) (b.getD (i + 1) 0) (b.getD i 0)).toNat

/-- `F[i .. i + len(b)) <- b`. -/
def overwrite (f : List Byte) (i : Nat) (b : List Byte) : List Byte := f.take i ++ b ++ f.drop (i + b.length)

/-- `BuildFrame(M, r)` (R52): the random fill, the pattern bytes stamped from bytes 2 and 3 of it, the length, the message. -/
def buildFrame (m r : List Byte) : List Byte :=
  let f := overwrite r 0 [r.getD 2 0]
  let f := overwrite f 1 [f.getD 3 0]
  let f := overwrite f 4 (be32 m.length)
  overwrite f 8 m

/-- `ParseFrame(B)` (R53), its tests in the rule's order, on mathematical integers (R8, D30). -/
def parseFrame (b : List Byte) : Except ErrorCode (List Byte) :=
  if b.length < 8 ∨ b.length % 16 ≠ 0 then .error .malformed
  else if b.getD 0 0 ≠ b.getD 2 0 ∨ b.getD 1 0 ≠ b.getD 3 0 then .error .corrupted
  else if b.length < 8 + readBe32 b 4 then .error .malformed
  else .ok ((b.drop 8).take (readBe32 b 4))

end Sys2Proof.Machine
end

