-- ==== Sys2Proof/Machine/PaddingFramer.lean ====
section
/-! DEFINITION. The commands of the PaddingFramer: FRAME_BUILD (R54) and FRAME_PARSE (R55). A meaning is one move of the
engine on the running command: its pseudocode from the top, up to an entropy request that is not answered yet or to the
completion (R13, R85). The inputs do not change while a command runs (R102), so its tests, made again after an answer,
come out as before (log entry 11). -/

namespace Sys2Proof.Machine

/-- FRAME_BUILD (R54). -/
def execFrameBuild (s : State) : Host.Outcome State Fault Refusal :=
  let n := inLength s
  if bufBytes s < n then raiseError .frameBuild .lengthError none s
  else if n = 0 then raiseError .frameBuild .emptyInput none s
  else if bufBytes s < paddedSize n then raiseError .frameBuild .lengthError none s
  else
    match s.stage with
    | .fresh => .next (requestEntropy .filler (paddedSize n) s)
    | .answered _ .fail => raiseError .frameBuild .entropyUnavailable none s
    | .answered _ (.ok r) => finishOk .frameBuild (buildFrame (inputBytes s n) r) false none s

/-- FRAME_PARSE (R55). -/
def execFrameParse (s : State) : Host.Outcome State Fault Refusal :=
  let n := inLength s
  if bufBytes s < n then raiseError .frameParse .lengthError none s
  else
    match parseFrame (inputBytes s n) with
    | .error e => raiseError .frameParse e none s
    | .ok m => finishOk .frameParse m true none s

end Sys2Proof.Machine
end

