-- ==== Sys2Proof/Machine/Base64.lean ====
section
/-! DEFINITION. The transport codec's functions `B64_Encode` and `B64_Decode` (R73 to R75). -/

namespace Sys2Proof.Machine

/-- The pad character `=` (R73). -/
def padChar : Byte := 0x3D

/-- `sym(v)`: the alphabet symbol of a 6-bit value (R73). -/
def b64Symbol (v : BitVec 6) : Byte :=
  let n := v.toNat
  if n < 26 then BitVec.ofNat 8 (0x41 + n)
  else if n < 52 then BitVec.ofNat 8 (0x61 + (n - 26))
  else if n < 62 then BitVec.ofNat 8 (0x30 + (n - 52))
  else if n = 62 then 0x2B
  else 0x2F

/-- `val(ch)`: the value of an alphabet symbol; none for a byte outside the alphabet, the pad character among them (R73). -/
def b64Value (ch : Byte) : Option (BitVec 6) :=
  let c := ch.toNat
  if 0x41 ≤ c ∧ c ≤ 0x5A then some (BitVec.ofNat 6 (c - 0x41))
  else if 0x61 ≤ c ∧ c ≤ 0x7A then some (BitVec.ofNat 6 (c - 0x61 + 26))
  else if 0x30 ≤ c ∧ c ≤ 0x39 then some (BitVec.ofNat 6 (c - 0x30 + 52))
  else if c = 0x2B then some 62
  else if c = 0x2F then some 63
  else none

/-- The four symbols of a 24-bit group, most significant bits first (R74). -/
def b64Quad (v : BitVec 24) : List Byte :=
  [b64Symbol (v.extractLsb' 18 6), b64Symbol (v.extractLsb' 12 6), b64Symbol (v.extractLsb' 6 6), b64Symbol (v.extractLsb' 0 6)]

/-- The 24 bits of a group of three bytes (R74): `b[3g]·2^16 + b[3g+1]·2^8 + b[3g+2]`. -/
def b64Group (a b c : Byte) : BitVec 24 := a.setWidth 24 <<< 16 ||| b.setWidth 24 <<< 8 ||| c.setWidth 24

/-- The 24 bits of a group of four symbol values (R75): the sum of `val(s[4g+j]) · 2^(18 - 6j)`. -/
def b64Ungroup (v0 v1 v2 v3 : BitVec 6) : BitVec 24 :=
  v0.setWidth 24 <<< 18 ||| v1.setWidth 24 <<< 12 ||| v2.setWidth 24 <<< 6 ||| v3.setWidth 24

/-- `B64_Encode(b)` (R74): a group of three bytes at a time; a last group of one byte ends in `==`, of two bytes in `=`. -/
def base64Encode : List Byte → List Byte
  | [] => []
  | [a] => (b64Quad (b64Group a 0 0)).take 2 ++ [padChar, padChar]
  | [a, b] => (b64Quad (b64Group a b 0)).take 3 ++ [padChar]
  | a :: b :: c :: rest => b64Quad (b64Group a b c) ++ base64Encode rest

/-- The length of the longest run of `=` that ends a string (R75). -/
def padRun (s : List Byte) : Nat := (s.reverse.takeWhile (fun ch => ch == padChar)).length

/-- The values of a string's symbols; none when a byte is outside the alphabet (R75). -/
def b64Values : List Byte → Option (List (BitVec 6))
  | [] => some []
  | ch :: rest =>
    match b64Value ch, b64Values rest with
    | some v, some vs => some (v :: vs)
    | _, _ => none

/-- The three bytes of each group of four 6-bit values, most significant first (R75). -/
def b64Bytes : List (BitVec 6) → List Byte
  | v0 :: v1 :: v2 :: v3 :: rest =>
    let v := b64Ungroup v0 v1 v2 v3
    v.extractLsb' 16 8 :: v.extractLsb' 8 8 :: v.extractLsb' 0 8 :: b64Bytes rest
  | _ => []

/-- `B64_Decode(s)` (R75): its three tests in order; then each group's bytes, where "pad positions count 0" and a last group
with `p` pads gives `3 - p` bytes, so that `len(d) = 3n/4 - p`. Leftover bits are dropped whatever their value (D18). -/
def base64Decode (s : List Byte) : Except ErrorCode (List Byte) :=
  let n := s.length
  let p := padRun s
  if n % 4 ≠ 0 then .error .decodeError
  else if 2 < p then .error .decodeError
  else
    match b64Values (s.take (n - p)) with
    | none => .error .decodeError
    | some vs => .ok ((b64Bytes (vs ++ List.replicate p 0)).take (3 * n / 4 - p))

end Sys2Proof.Machine
end

