-- ==== Sys2Proof/Machine/PayloadCodec.lean ====
section
/-! DEFINITION. The commands of the PayloadCodec: PAYLOAD_ENCRYPT (R78) and PAYLOAD_DECRYPT (R79). -/

namespace Sys2Proof.Machine

/-- PAYLOAD_ENCRYPT (R78). The answer to the filler request ends step 1: the frame goes to the scratch buffer FRAME and the
IV is asked for. The answer to the IV request ends step 2: the IV write is made, and steps 3 to 5 run. -/
def execPayloadEncrypt (s : State) : Host.Outcome State Fault Refusal :=
  let n := inLength s
  if bufBytes s < n then raiseError .payloadEncrypt .lengthError none s
  else if n = 0 then raiseError .payloadEncrypt .emptyInput none s
  else if bufBytes s < base64Length (16 + paddedSize n) + 1 then raiseError .payloadEncrypt .lengthError none s
  else
    match s.stage with
    | .fresh => .next (requestEntropy .filler (paddedSize n) s)
    | .answered _ .fail => raiseError .payloadEncrypt .entropyUnavailable none s
    | .answered .filler (.ok r1) =>
      .next (requestEntropy .iv 16
        { s with scratch := { s.scratch with frame := .holds (buildFrame (inputBytes s n) r1) } })
    | .answered .iv (.ok r2) =>
      if keyValid s then
        let frame := scratchBytes s.draws s.scratch.frame
        finishOk .payloadEncrypt (base64Encode (r2 ++ cbcEnc s.key.bytes r2 frame)) true (some r2) s
      else raiseError .payloadEncrypt .encryptionFailure (some r2) s

/-- Steps 3 to 6 of PAYLOAD_DECRYPT (R79), for an envelope that has passed step 2: the IV write is made first, so a later
failure keeps it (R85, R87). Step 6, the notice with the byte count, is part of the success (R86). -/
def decryptEnvelope (envelope : List Byte) (s : State) : Host.Outcome State Fault Refusal :=
  let iv := envelope.take 16
  if keyValid s then
    match parseFrame (cbcDec s.key.bytes iv (envelope.drop 16)) with
    | .error e => raiseError .payloadDecrypt e (some iv) s
    | .ok m => finishOk .payloadDecrypt m true (some iv) s
  else raiseError .payloadDecrypt .encryptionFailure (some iv) s

/-- PAYLOAD_DECRYPT (R79). -/
def execPayloadDecrypt (s : State) : Host.Outcome State Fault Refusal :=
  let n := inLength s
  if bufBytes s < n then raiseError .payloadDecrypt .lengthError none s
  else
    match base64Decode (inputString s n) with
    | .error e => raiseError .payloadDecrypt e none s
    | .ok envelope =>
      if envelope.length ≤ 16 ∨ (envelope.length - 16) % 16 ≠ 0 then raiseError .payloadDecrypt .malformed none s
      else decryptEnvelope envelope s

end Sys2Proof.Machine
end

