-- ==== Sys2Proof/Machine/TransportCodec.lean ====
section
/-! DEFINITION. The commands of the TransportCodec: B64_ENCODE (R76) and B64_DECODE (R77). -/

namespace Sys2Proof.Machine

/-- B64_ENCODE (R76). -/
def execB64Encode (s : State) : Host.Outcome State Fault Refusal :=
  let n := inLength s
  if bufBytes s < n then raiseError .b64Encode .lengthError none s
  else if bufBytes s < base64Length n + 1 then raiseError .b64Encode .lengthError none s
  else finishOk .b64Encode (base64Encode (inputBytes s n)) true none s

/-- B64_DECODE (R77). No terminator is written: "the result is binary". -/
def execB64Decode (s : State) : Host.Outcome State Fault Refusal :=
  let n := inLength s
  if bufBytes s < n then raiseError .b64Decode .lengthError none s
  else
    match base64Decode (inputString s n) with
    | .error e => raiseError .b64Decode e none s
    | .ok d => finishOk .b64Decode d false none s

end Sys2Proof.Machine
end

