-- ==== Sys2Proof/Machine/Dispatch.lean ====
section
/-! DEFINITION. One arm per command: the engine's next move on it. -/

namespace Sys2Proof.Machine

def exec (i : Instr) (s : State) : Host.Outcome State Fault Refusal :=
  match i with
  | .frameBuild => Sys2Proof.Machine.execFrameBuild s
  | .frameParse => Sys2Proof.Machine.execFrameParse s
  | .genIv => Sys2Proof.Machine.execGenIv s
  | .cbcEncrypt => Sys2Proof.Machine.execCbcEncrypt s
  | .cbcDecrypt => Sys2Proof.Machine.execCbcDecrypt s
  | .b64Encode => Sys2Proof.Machine.execB64Encode s
  | .b64Decode => Sys2Proof.Machine.execB64Decode s
  | .payloadEncrypt => Sys2Proof.Machine.execPayloadEncrypt s
  | .payloadDecrypt => Sys2Proof.Machine.execPayloadDecrypt s

end Sys2Proof.Machine
end

