-- ==== Sys2Proof/Machine/Engine.lean ====
section
/-! DEFINITION. The engine's own move (R13, R28, R89, R91): the running command is decoded from the word written to CMD and
takes its next step. -/

namespace Sys2Proof.Machine

/-- The bytes of the word the running command was started with, in lane order: what the engine decodes (R44). -/
def commandBytes (cmd : Word) : List Byte := laneBytes cmd

/-- The engine's move on the running command `cmd`: its meaning, or the completion of an illegal value (R46). -/
def runCommand (cmd : Word) (s : State) : Host.Outcome State Fault Refusal :=
  match decode (commandBytes cmd) with
  | .ok (i, _) => exec i s
  | .error _ => .next (completeIllegal s)

/-- The engine's move: nothing while IDLE ("The engine takes no further step until the host acts", R89) and while a request is
unanswered ("The engine then stays BUSY with ENT_WAIT = 1", R91); else the running command's. -/
def engineMove (s : State) : Host.Outcome State Fault Refusal :=
  match s.phase with
  | .idle => .next s
  | .busy cmd => if entWait s then .next s else runCommand cmd s

end Sys2Proof.Machine
end

