-- ==== Sys2Proof/Machine/HostPort.lean ====
section
/-! DEFINITION. The host's accesses (R34, R38, R39): what a read returns (R18, R103) and what a write does at each location,
while IDLE and while BUSY (R102). -/

namespace Sys2Proof.Machine

/-- The bus's answer to an access (R34). -/
def respond (error : Bool) (data : Word) (s : State) : State := { s with resp := { error := error, data := data } }

/-- The value of a location, when a read of it is specified: CMD, KEYk and reserved locations read 0 (R18, R19, R24). -/
def locationValue (s : State) : Target → Word
  | .cmd => 0
  | .status => statusWord s
  | .ctrl => ctrlWord s
  | .inLen => s.inLen
  | .outLen => s.outLen
  | .key _ => 0
  | .iv k => s.iv.get k
  | .ibuf i => bufferWord s (ibufBase + i)
  | .obuf i => bufferWord s (obufBase + i)
  | .reserved => 0

/-- The locations whose reads are unspecified while BUSY = 1: OUT_LEN, IVk and OBUF words (R103). -/
def readsFreeWhileBusy : Target → Bool
  | .outLen => true
  | .iv _ => true
  | .obuf _ => true
  | .cmd => false
  | .status => false
  | .ctrl => false
  | .inLen => false
  | .key _ => false
  | .ibuf _ => false
  | .reserved => false

/-- A read of a location (R103). "No read has a side effect" (R39): only the bus's answer, and the count of draws when the
value is a free one, change. -/
def readTarget (t : Target) (s : State) : State :=
  if busy s && readsFreeWhileBusy t then
    respond false (Config.freeWord s.draws) { s with draws := s.draws + 1 }
  else respond false (locationValue s t) s

/-- A host write that is ignored because BUSY = 1 (R102). -/
def ignoreWrite (s : State) : State := { s with wrIgn := true }

/-- CTRL.IRQ_EN from bit 0 of the written value (R21). -/
def setIrqEn (v : Word) (s : State) : State := { s with irqEn := v.getLsbD 0 }

/-- IN_LEN: "every value storable" (R22). -/
def setInLen (v : Word) (s : State) : State := { s with inLen := v }

/-- IVk: "stores the word" (R25). -/
def setIvWord (k : Fin 4) (v : Word) (s : State) : State := { s with iv := s.iv.set k v }

/-- A write of `v` to CTRL (R21): with SRST (bit 1) a soft reset (R100), which discards the IRQ_EN of the same write; else
IRQ_EN from bit 0. -/
def writeCtrl (v : Word) (s : State) : State :=
  if v.getLsbD 1 then enterReset s else setIrqEn v s

/-- A write of `v` to KEYk (R24): "stores the word and sets STATUS.KEY_WR bit k". -/
def writeKey (k : Fin 4) (v : Word) (s : State) : State :=
  { s with key := s.key.set k v, keyWr := s.keyWr ||| (1#4 <<< k.val) }

/-- A write of `v` to a location while the engine is IDLE (R19 to R27, R33, R40). -/
def writeIdle (t : Target) (v : Word) (s : State) : State :=
  match t with
  | .cmd => startCommand v s
  | .status => clearByStatusWrite v s
  | .ctrl => writeCtrl v s
  | .inLen => setInLen v s
  | .outLen => s
  | .key k => writeKey k v s
  | .iv k => setIvWord k v s
  | .ibuf i => storeBytes (ibufBase + i) (laneBytes v) s
  | .obuf _ => s
  | .reserved => s

/-- A write of `v` to a location while BUSY = 1 (R102): CMD, IN_LEN, KEYk, IVk and IBUF are ignored and set WR_IGN, STATUS
and CTRL are taken, OUT_LEN, OBUF and reserved locations have no effect. -/
def writeBusy (t : Target) (v : Word) (s : State) : State :=
  match t with
  | .cmd => ignoreWrite s
  | .status => clearByStatusWrite v s
  | .ctrl => writeCtrl v s
  | .inLen => ignoreWrite s
  | .outLen => s
  | .key _ => ignoreWrite s
  | .iv _ => ignoreWrite s
  | .ibuf _ => ignoreWrite s
  | .obuf _ => s
  | .reserved => s

/-- A write of `v` to a location. -/
def writeTarget (t : Target) (v : Word) (s : State) : State := if busy s then writeBusy t v s else writeIdle t v s

/-- The location an access names (R33). -/
def accessTarget (a : Access) (s : State) : Target := targetAt (bufBytes s) a.offset.toNat

/-- One host access (R34): an access of another width or at an offset that is no multiple of 4 "receives an error
response, changes no state and, if a read, returns 0x00000000". -/
def hostAccess (a : Access) (s : State) : State :=
  if accessWellFormed a then
    match a with
    | .read _ _ => readTarget (accessTarget a s) s
    | .write _ _ v => respond false 0 (writeTarget (accessTarget a s) v s)
  else respond true 0 s

end Sys2Proof.Machine
end

