-- ==== Sys2Proof/Machine/Step.lean ====
section
/-! DEFINITION. One step: the next event of the total order (R41). -/

namespace Sys2Proof.Machine

/-- The state with its next event taken off the list of events to come. -/
def State.withEvents (s : State) (es : List Event) : State := { s with events := es }

/-- One step: the agent that the next event names makes its move (R15, R41). With no event to come the engine moves, which
changes nothing while it is idle or waits. -/
def step (s : State) : Host.Outcome State Fault Refusal :=
  match s.events with
  | [] => engineMove s
  | .engine :: es => engineMove (s.withEvents es)
  | .host a :: es => .next (hostAccess a (s.withEvents es))
  | .entropy tag a :: es => receiveAnswer tag a (s.withEvents es)
  | .sink _ :: es => .next (sinkMove (s.withEvents es))
  | .powerOn :: es => .next (enterReset (s.withEvents es))

/-- The state right after the host has written the command word to CMD (R84), with the engine's move on it the next event.
"The engine fetches no instructions: a command is the value written to CMD" (R43), so this write stands for the load of
an instruction (log entry 8). A request of an earlier command is given up, as a start finds none (R28, R29). -/
def State.withFetchWord (s : State) (nbits w : Nat) : State :=
  { startCommand (BitVec.ofNat 32 (w % 2 ^ nbits)) s with
    request := none, events := .engine :: s.events }

end Sys2Proof.Machine
end

