-- ==== Sys2Proof/Safety.lean ====
section
/-! DEFINITION. The terms the claims use: what a safe step is, the invariants every step keeps, and what a completion does
and leaves alone (R85 to R88). -/

namespace Sys2Proof.Machine

/-- A step that answers a next state. -/
def StepsOn (s : State) : Prop := ∃ t, step s = .next t

/-- The next event keeps the entropy port's protocol (R91): an `Ok` that answers the outstanding request carries exactly the
bytes asked for. -/
def NextEventFits (s : State) : Prop :=
  ∀ tag a es q, s.events = .entropy tag a :: es → s.request = some q → q.tag = tag → answerFits q.size a = true

/-- STATUS is as R20 and R28 say: while a command runs DONE, ERR and ERRCODE are 0 and LAST_OP is its OP (R84); ERRCODE is
none of the reserved codes 9 to 15 (R82); ERR = 1 only with the code of an error. -/
structure StatusInv (s : State) : Prop where
  busyFlags : ∀ cmd, s.phase = .busy cmd → s.done = false ∧ s.err = false ∧ s.errcode = 0 ∧ s.lastOp = cmdOp cmd
  codeLegal : s.errcode.toNat ≤ 8
  errHasCode : s.err = true → s.errcode ≠ 0

/-- A key word that was not written since the key was last cleared is 0 (R20, R24, R88): no key byte outlives a clear. -/
def KeyInv (s : State) : Prop := ∀ k : Fin 4, s.keyWr.getLsbD k.val = false → s.key.get k = 0

/-- The size of a command's entropy request, for IN_LEN = `n` (R47, R91); none for a request the command does not make. -/
def requestSize (i : Instr) (p : Purpose) (n : Nat) : Option Nat :=
  match i, p with
  | .frameBuild, .filler => some (paddedSize n)
  | .genIv, .iv => some 16
  | .payloadEncrypt, .filler => some (paddedSize n)
  | .payloadEncrypt, .iv => some 16
  | _, _ => none

/-- The running command is a command of R45 whose request for `p` has the size `n` (R47). -/
def RunsRequest (s : State) (p : Purpose) (n : Nat) : Prop :=
  ∃ cmd i, s.phase = .busy cmd ∧ decodeWord cmd = .ok i ∧ requestSize i p (inLength s) = some n

/-- Entropy requests and answers are those of R47 and R91: an outstanding request belongs to the running command, has the
size R47 lists, "1 <= n <= ENTROPY_MAX_REQ", and a tag already given out; an answer taken has that size too; while IDLE
there is neither, and the hidden state is not visible (R29). Once an IV was asked for by PAYLOAD_ENCRYPT, FRAME holds the
frame. -/
structure ProgressInv (s : State) : Prop where
  idleQuiet : s.phase = .idle → s.request = none ∧ s.stage = .fresh ∧ s.scratch = Scratch.unspecified
  requestListed : ∀ q, s.request = some q →
    RunsRequest s q.purpose q.size ∧ 1 ≤ q.size ∧ q.size ≤ s.config.entropyMaxReq ∧ q.tag < s.nextTag
  answerListed : ∀ p r, s.stage = .answered p (.ok r) → RunsRequest s p r.length
  frameHeld : ∀ cmd, s.phase = .busy cmd → decodeWord cmd = .ok .payloadEncrypt →
    ((∃ q, s.request = some q ∧ q.purpose = .iv) ∨ ∃ r, s.stage = .answered .iv (.ok r)) →
    ∃ f, s.scratch.frame = .holds f ∧ f.length = paddedSize (inLength s)

/-- An offset of the IBUF or OBUF window (R33). -/
def InWindow (s : State) (addr : Nat) : Prop :=
  (ibufBase ≤ addr ∧ addr < ibufBase + bufBytes s) ∨ (obufBase ≤ addr ∧ addr < obufBase + bufBytes s)

/-- The buffers hold only bytes they have (R26, R27, R33, R35), in the memory's canonical form, and OUT_LEN counts bytes of
OBUF (R23). -/
structure BufferInv (s : State) : Prop where
  canonical : s.mem.wf = true
  inWindows : ∀ c ∈ s.mem, InWindow s c.1
  outLenFits : s.outLen.toNat ≤ bufBytes s

/-- Every event on the diagnostic port is one R92 lists: `(ERROR, code, 0)` with a code of R82, or `(NOTICE, 0, L)`. -/
def DiagInv (s : State) : Prop :=
  ∀ e ∈ s.diag,
    (e.sev = .error ∧ 1 ≤ e.code.toNat ∧ e.code.toNat ≤ 8 ∧ e.count = 0) ∨ (e.sev = .notice ∧ e.code = 0)

/-- What every completion leaves as it was (R85, R86, R87): IBUF, IN_LEN, CTRL, WR_IGN, LAST_OP, the configuration, the key
of a command that is not key-using, and what is the agents' own. -/
structure CompletionKeeps (clear : Bool) (s t : State) : Prop where
  config : t.config = s.config
  inLen : t.inLen = s.inLen
  irqEn : t.irqEn = s.irqEn
  wrIgn : t.wrIgn = s.wrIgn
  lastOp : t.lastOp = s.lastOp
  ibuf : ∀ addr, addr < obufBase → byteAt t addr = byteAt s addr
  key : clear = false → t.key = s.key ∧ t.keyWr = s.keyWr
  nextTag : t.nextTag = s.nextTag
  resp : t.resp = s.resp
  events : t.events = s.events

/-- What every completion does alike (R86, R87, R88): IDLE with DONE = 1, nothing outstanding, no hidden state left, the key
cleared after a key-using command, the IV register written when the command wrote it. -/
structure CompletionDoes (clear : Bool) (iv : Option (List Byte)) (s t : State) : Prop where
  phase : t.phase = .idle
  quiet : t.request = none ∧ t.stage = .fresh ∧ t.scratch = Scratch.unspecified
  done : t.done = true
  key : clear = true → t.key.bytes = List.replicate 16 0 ∧ t.keyWr = 0
  ivKept : iv = none → t.iv = s.iv
  ivWritten : ∀ b, iv = some b → t.iv.bytes = b

/-- `t` is `s` after a completion with success of command `i` (R86) whose result is the byte string `out`, followed by 0x00
when `nul` is true (R27): every byte of OBUF past those, and every byte of IBUF, is unchanged. -/
structure SuccessOf (i : Instr) (s t : State) (out : List Byte) (nul : Bool) (iv : Option (List Byte)) : Prop where
  does : CompletionDoes (keyUsing i) iv s t
  keeps : CompletionKeeps (keyUsing i) s t
  err : t.err = false
  errcode : t.errcode = 0
  outLen : t.outLen.toNat = out.length
  result : ∀ k, k < out.length → obufByte t k = out.getD k 0
  terminator : nul = true → obufByte t out.length = 0
  past : ∀ k, out.length + (if nul then 1 else 0) ≤ k → obufByte t k = obufByte s k
  diag : t.diag = s.diag ++ (if i = .payloadDecrypt then [{ sev := .notice, code := 0, count := t.outLen }] else [])

/-- `t` is `s` after a completion with failure `code` (R87); `clear` says whether the command that failed is key-using
(R88). Nothing is said of OBUF, which is unspecified. -/
structure FailureOf (clear : Bool) (s t : State) (code : ErrorCode) (iv : Option (List Byte)) : Prop where
  does : CompletionDoes clear iv s t
  keeps : CompletionKeeps clear s t
  err : t.err = true
  errcode : t.errcode = errorNumber code
  outLen : t.outLen = 0
  diag : t.diag = s.diag ++ [{ sev := .error, code := errorNumber code, count := 0 }]

/-- Command `i`, on its next move, completes with failure `code`, having written `iv` to the IV register if that is some. -/
def FailsWith (i : Instr) (s : State) (code : ErrorCode) (iv : Option (List Byte)) : Prop :=
  ∃ t, exec i s = .next t ∧ FailureOf (keyUsing i) s t code iv

/-- Command `i`, on its next move, completes with success and the result `out`. -/
def SucceedsWith (i : Instr) (s : State) (out : List Byte) (nul : Bool) (iv : Option (List Byte)) : Prop :=
  ∃ t, exec i s = .next t ∧ SuccessOf i s t out nul iv

/-- `t` is `s` with an entropy request of `n` bytes issued (R91) and the hidden buffers at `sc`; nothing else is changed. -/
def AsksFor (s t : State) (p : Purpose) (n : Nat) (sc : Scratch) : Prop :=
  t = { s with request := some { tag := s.nextTag, size := n, purpose := p }, nextTag := s.nextTag + 1, scratch := sc }

/-- The host's `MemWrite(off, 4, v)` (R12). -/
def busWrite (off : Offset) (v : Word) : Access := .write off .bits32 v

/-- The host's `MemRead(off, 4)` (R12). -/
def busRead (off : Offset) : Access := .read off .bits32

/-- The bus's answer to an access that is served (R34). -/
def served (data : Word) : BusResponse := { error := false, data := data }

/-- The offsets of IBUF words, for a buffer size (R33). -/
def IbufOffset (bufBytes off : Nat) : Prop := 0x10000 ≤ off ∧ off < 0x10000 + bufBytes

/-- The offsets of OBUF words (R33). -/
def ObufOffset (bufBytes off : Nat) : Prop := 0x20000 ≤ off ∧ off < 0x20000 + bufBytes

/-- The reserved offsets of R18 and R33. -/
def ReservedOffset (bufBytes off : Nat) : Prop :=
  (0x14 ≤ off ∧ off ≤ 0x1C) ∨ (0x40 ≤ off ∧ off < 0x10000) ∨ (0x10000 + bufBytes ≤ off ∧ off < 0x20000) ∨
    0x20000 + bufBytes ≤ off

/-- Block `j` of a byte string of 16-byte blocks (R56). -/
def blockOf (b : List Byte) (j : Nat) : List Byte := (b.drop (16 * j)).take 16

/-- The frame of R48 for message `m` and entropy `r`, written out by its layout: pattern bytes, length, message, filler. -/
def frameLayout (m r : List Byte) : List Byte :=
  [r.getD 2 0, r.getD 3 0, r.getD 2 0, r.getD 3 0] ++ be32 m.length ++ m ++ r.drop (8 + m.length)

/-- The message the PAYLOAD_ENCRYPT and FRAME_BUILD commands read (R47): IBUF[0..IN_LEN). -/
def messageOf (s : State) : List Byte := inputBytes s (inLength s)

/-- The string B64_DECODE and PAYLOAD_DECRYPT read (R77, R79): IBUF up to its first 0x00 or IN_LEN. -/
def stringOf (s : State) : List Byte := inputString s (inLength s)

/-- Lane `s[r][c]` of the AES state (R62): byte `r + 4c` of its block. -/
def laneOf (g : Grid) (r c : Nat) : Byte := (gridBytes g).getD (r + 4 * c) 0

/-- `RK[j]` of the key schedule (R70). -/
def roundKey (k : List Byte) (j : Nat) : Grid := (keyExpansion k).getD j (gridOfBytes [])

/-- The word `w[i]` of the key schedule: `RK[j]` is `w[4j]` to `w[4j+3]`, joined (R70). -/
def keyWord (k : List Byte) (i : Nat) : List Byte := ((gridBytes (roundKey k (i / 4))).drop (4 * (i % 4))).take 4

/-- RotWord, SubWord and the addition of `Rcon[j] = x^(j-1)` on a word of the key schedule (R70). -/
def scheduleCore (t : List Byte) (j : Nat) : List Byte :=
  [sbox (t.getD 1 0) ^^^ xtimes (j - 1) 0x01, sbox (t.getD 2 0), sbox (t.getD 3 0), sbox (t.getD 0 0)]

/-- The four symbols of a group's number `v`, most significant bits first (R74). -/
def symbolsOf (v : Nat) : List Byte :=
  [b64Symbol (BitVec.ofNat 6 (v / 2 ^ 18)), b64Symbol (BitVec.ofNat 6 (v / 2 ^ 12)), b64Symbol (BitVec.ofNat 6 (v / 2 ^ 6)),
   b64Symbol (BitVec.ofNat 6 v)]

/-- The value of character `i` of a base64 string; "pad positions count 0" (R75). -/
def symbolNumber (s : List Byte) (i : Nat) : Nat :=
  match b64Value (s.getD i 0) with
  | some v => v.toNat
  | none => 0

/-- The number of group `g` of a base64 string (R75): the sum of `val(s[4g+j]) · 2^(18 - 6j)`. -/
def groupNumber (s : List Byte) (g : Nat) : Nat :=
  symbolNumber s (4 * g) * 2 ^ 18 + symbolNumber s (4 * g + 1) * 2 ^ 12 + symbolNumber s (4 * g + 2) * 2 ^ 6 +
    symbolNumber s (4 * g + 3)

end Sys2Proof.Machine
end

