-- ==== Sys2Proof/Certificates/Slice0/Obligations.lean ====
section
/-! DEFINITION. The statements for the provers, by subject: the encoding, the step, the host port, entropy and reset, the nine
commands, the functions behind them, and the invariants. -/

open Sys2Proof Sys2Proof.Machine

-- The encoding

/-- R44, R45, R46: a byte string decodes to command `i` exactly when its first four bytes are the encoding of `i`, and the
bytes after them are left. So decode of encode is the command, no other word is a command, and no bit is dropped. The order
of a word's bytes is the model's reading (log entry 14). -/
def Obligations.DecodeAcceptsExactlyTheEncodings : Prop :=
  ∀ (b rest : List Byte) (i : Instr), decode b = .ok (i, rest) ↔ b = encode i ++ rest

/-- R44, R46: a word with RSV ≠ 0 is rejected for its reserved bits, and a word with RSV = 0 whose OP is 0x0 or 0xA to 0xF
is rejected for its opcode; every other word is a command. -/
def Obligations.IllegalWordsAreRejectedByName : Prop :=
  ∀ w : Word,
    (w.toNat / 16 ≠ 0 → decodeWord w = .error .reservedBits) ∧
    (w.toNat = 0 ∨ (10 ≤ w.toNat ∧ w.toNat ≤ 15) → decodeWord w = .error (.reservedOpcode (BitVec.ofNat 4 w.toNat))) ∧
    (1 ≤ w.toNat ∧ w.toNat ≤ 9 → ∃ i, decodeWord w = .ok i ∧ (opcodeOf i).toNat = w.toNat)

/-- R45: the CMD words of the opcode map, written out bit by bit, decode to their commands. The last is written out by its
four bytes, the lowest bits first, an order the spec does not give a CMD word and the model reads off R36 (log entry 14). -/
def Obligations.SampleWordsDecode : Prop :=
  decodeWord 0b00000000000000000000000000000001 = .ok .frameBuild ∧
  decodeWord 0b00000000000000000000000000000010 = .ok .frameParse ∧
  decodeWord 0b00000000000000000000000000000011 = .ok .genIv ∧
  decodeWord 0b00000000000000000000000000000100 = .ok .cbcEncrypt ∧
  decodeWord 0b00000000000000000000000000000101 = .ok .cbcDecrypt ∧
  decodeWord 0b00000000000000000000000000000110 = .ok .b64Encode ∧
  decodeWord 0b00000000000000000000000000000111 = .ok .b64Decode ∧
  decodeWord 0b00000000000000000000000000001000 = .ok .payloadEncrypt ∧
  decode [0b00001001, 0, 0, 0] = .ok (.payloadDecrypt, [])

-- The step

/-- R13, R41, R44: when the engine moves (the next event is its own, or no event is left), a command runs and no request is
unanswered, the step is the running command's move on the state with that event taken off. The state that
`withFetchWord` gives (a CMD write of R84 just made) is such a state. That the events stand in a list, and that
`withFetchWord` stands for the CMD write, is the model's choice (log entry 8), as is the order in which the engine takes the
word's bytes (log entry 14). -/
def Obligations.StepRunsTheDecodedCommand : Prop :=
  (∀ (s : State) (cmd : Word) (i : Instr), s.phase = .busy cmd → s.request = none → decode (laneBytes cmd) = .ok (i, []) →
    (∀ es, s.events = .engine :: es → step s = exec i (s.withEvents es)) ∧ (s.events = [] → step s = exec i s)) ∧
  (∀ (s : State) (nbits w : Nat) (i : Instr), decodeTableWord nbits w = some i →
    step (s.withFetchWord nbits w) =
      exec i { startCommand (BitVec.ofNat 32 (w % 2 ^ nbits)) s with request := none, events := s.events })

/-- R19, R34, R91: no step is refused, and a step whose next event keeps the entropy port's protocol answers a next state:
no command and no host access ever stops the machine. (That an answer of another length stops it is the model's choice,
log entry 9, and that an answer no request asked for does not, log entry 18.) -/
def Obligations.EveryProtocolStepGoesOn : Prop :=
  ∀ s : State, (NextEventFits s → StepsOn s) ∧ (∀ r, step s ≠ .refused r) ∧ ((∃ f, step s = .fault f) → ¬ NextEventFits s)

/-- R89, R91 and U6: the engine's move leaves an idle engine, and an engine whose request is unanswered, exactly as it is. -/
def Obligations.EngineRestsWhileIdleOrUnanswered : Prop :=
  ∀ (s : State) (es : List Event), s.events = .engine :: es → (s.phase = .idle ∨ entWait s = true) →
    step s = .next (s.withEvents es)

/-- R46: an illegal CMD value written while IDLE starts like any command (BUSY = 1, LAST_OP = OP), and the engine's next move
completes it with IllegalCommand, with no request made and the key kept. That the phase holds the whole CMD word, RSV
included, is the model's reading (log entry 5). -/
def Obligations.IllegalCommandCompletesWithCodeEight : Prop :=
  ∀ (s : State) (v : Word) (es : List Event), s.phase = .idle → s.request = none →
    (v.toNat / 16 ≠ 0 ∨ v.toNat % 16 = 0 ∨ 10 ≤ v.toNat % 16) →
    s.events = .host (busWrite 0x00 v) :: .engine :: es →
    ∃ t u, step s = .next t ∧ busy t = true ∧ t.lastOp = v.extractLsb' 0 4 ∧ t.request = none ∧
      step t = .next u ∧ FailureOf false (t.withEvents es) u .illegalCommand none ∧
      u.errcode = 8 ∧ u.nextTag = s.nextTag

-- The host port. The field `resp` holds the bus's answer; that a served write answers with data 0 is the model's choice
-- (log entry 7).

/-- R84, R19, R102: a CMD write while IDLE starts the command and changes nothing else, so `irq` falls; while BUSY it is
ignored and sets WR_IGN. That the phase holds the whole CMD word, where R84 writes its bits [3:0] alone, is the model's
reading (log entry 5); the data of a write's answer is the model's choice (log entry 7). -/
def Obligations.CmdWriteStartsACommand : Prop :=
  ∀ (s : State) (v : Word),
    (s.phase = .idle →
      hostAccess (busWrite 0x00 v) s =
        { s with
          phase := .busy v, stage := .fresh, done := false, err := false, errcode := 0, lastOp := v.extractLsb' 0 4
          resp := served 0 } ∧
      busy (hostAccess (busWrite 0x00 v) s) = true ∧ irq (hostAccess (busWrite 0x00 v) s) = false) ∧
    (busy s = true → hostAccess (busWrite 0x00 v) s = { s with wrIgn := true, resp := served 0 })

/-- R20: the fields of the word a read of STATUS returns, and its reserved bits. -/
def Obligations.StatusReadShowsEachField : Prop :=
  ∀ s : State, ∃ w, hostAccess (busRead 0x04) s = { s with resp := served w } ∧
    w.getLsbD 0 = busy s ∧ w.getLsbD 1 = s.done ∧ w.getLsbD 2 = s.err ∧
    w.getLsbD 3 = decide (s.keyWr = 0b1111) ∧ w.extractLsb' 4 4 = s.keyWr ∧ w.extractLsb' 8 4 = s.errcode ∧
    w.getLsbD 12 = s.wrIgn ∧ w.getLsbD 13 = s.request.isSome ∧ w.extractLsb' 14 2 = 0 ∧
    w.extractLsb' 16 4 = s.lastOp ∧ w.extractLsb' 20 12 = 0

/-- R20: a STATUS write clears DONE, ERR and WR_IGN by bits 1, 2 and 12 of the written value and changes nothing else, whether
or not BUSY = 1. The data of a write's answer is the model's choice (log entry 7). -/
def Obligations.StatusWriteClearsOnlyItsThreeBits : Prop :=
  ∀ (s : State) (v : Word),
    hostAccess (busWrite 0x04 v) s =
      { s with
        done := s.done && !v.getLsbD 1, err := s.err && !v.getLsbD 2, wrIgn := s.wrIgn && !v.getLsbD 12
        resp := served 0 }

/-- R34: an access of another width, or at an offset that is no multiple of 4, gets an error response, changes no state, and
reads 0. R34 gives the 0 to a read; that the answer to a bad write carries it too is the model's choice (log entry 7). -/
def Obligations.BadAccessChangesNothing : Prop :=
  ∀ (s : State) (a : Access), (a.offset.toNat % 4 ≠ 0 ∨ a.width ≠ .bits32) →
    hostAccess a s = { s with resp := { error := true, data := 0 } }

/-- R18 to R27, R33, R36: what a read of each location returns while IDLE; it changes nothing else (R39). -/
def Obligations.IdleReadsReturnTheLocation : Prop :=
  ∀ (s : State) (off : Offset), s.phase = .idle → off.toNat % 4 = 0 →
    ∃ d, hostAccess (busRead off) s = { s with resp := served d } ∧
      (off = 0x00 → d = 0) ∧ (off = 0x04 → d = statusWord s) ∧
      (off = 0x08 → d = if s.irqEn then 1 else 0) ∧ (off = 0x0C → d = s.inLen) ∧ (off = 0x10 → d = s.outLen) ∧
      (∀ k : Fin 4, off.toNat = 0x20 + 4 * k.val → d = 0) ∧
      (∀ k : Fin 4, off.toNat = 0x30 + 4 * k.val → d = s.iv.get k) ∧
      (IbufOffset (bufBytes s) off.toNat → ∀ j, j < 4 → d.extractLsb' (8 * j) 8 = ibufByte s (off.toNat - 0x10000 + j)) ∧
      (ObufOffset (bufBytes s) off.toNat → ∀ j, j < 4 → d.extractLsb' (8 * j) 8 = obufByte s (off.toNat - 0x20000 + j)) ∧
      (ReservedOffset (bufBytes s) off.toNat → d = 0)

/-- R18 to R27, R33, R36, R40: what a write of each location other than CMD and STATUS does while IDLE, and that it does nothing
else. A write to OUT_LEN, to OBUF and to a reserved location is ignored. The data of a write's answer is the model's choice
(log entry 7). -/
def Obligations.IdleWritesStoreTheLocation : Prop :=
  ∀ (s : State) (off : Offset) (v : Word), s.phase = .idle → off.toNat % 4 = 0 →
    (off = 0x08 → v.getLsbD 1 = false →
      hostAccess (busWrite off v) s = { s with irqEn := v.getLsbD 0, resp := served 0 }) ∧
    (off = 0x0C → hostAccess (busWrite off v) s = { s with inLen := v, resp := served 0 }) ∧
    (∀ k : Fin 4, off.toNat = 0x20 + 4 * k.val →
      ∃ q w, hostAccess (busWrite off v) s = { s with key := q, keyWr := w, resp := served 0 } ∧
        (∀ j, q.get j = if j = k then v else s.key.get j) ∧
        (∀ j : Fin 4, w.getLsbD j.val = if j = k then true else s.keyWr.getLsbD j.val)) ∧
    (∀ k : Fin 4, off.toNat = 0x30 + 4 * k.val →
      ∃ q, hostAccess (busWrite off v) s = { s with iv := q, resp := served 0 } ∧
        (∀ j, q.get j = if j = k then v else s.iv.get j)) ∧
    (IbufOffset (bufBytes s) off.toNat →
      ∃ m, hostAccess (busWrite off v) s = { s with mem := m, resp := served 0 } ∧
        ∀ addr, byteAt (hostAccess (busWrite off v) s) addr =
          if off.toNat ≤ addr ∧ addr < off.toNat + 4 then v.extractLsb' (8 * (addr - off.toNat)) 8 else byteAt s addr) ∧
    (off = 0x10 ∨ ObufOffset (bufBytes s) off.toNat ∨ ReservedOffset (bufBytes s) off.toNat →
      hostAccess (busWrite off v) s = { s with resp := served 0 })

/-- R24, R25, R36: byte `4k + j` of the KEY or IV string is bits [8j+7:8j] of register `k`. -/
def Obligations.RegisterWordHoldsItsFourBytes : Prop :=
  ∀ (q : Quad) (k : Fin 4) (j : Nat), j < 4 → q.bytes.getD (4 * k.val + j) 0 = (q.get k).extractLsb' (8 * j) 8

/-- R34, R102: the writes that are ignored while BUSY and set WR_IGN, the writes that are taken, and the writes that have no
effect; and that an access of a bad width or alignment has none. The data 0 in the answer to a bad write is the model's
choice, where R34 gives it to a read (log entry 7). -/
def Obligations.BusyWritesAreIgnoredOrTaken : Prop :=
  ∀ (s : State) (off : Offset) (v : Word), busy s = true → off.toNat % 4 = 0 →
    (off = 0x00 ∨ off = 0x0C ∨ (0x20 ≤ off.toNat ∧ off.toNat ≤ 0x3C) ∨ IbufOffset (bufBytes s) off.toNat →
      ∃ d, hostAccess (busWrite off v) s = { s with wrIgn := true, resp := served d }) ∧
    (off = 0x04 → ∃ d, hostAccess (busWrite off v) s =
      { s with
        done := s.done && !v.getLsbD 1, err := s.err && !v.getLsbD 2, wrIgn := s.wrIgn && !v.getLsbD 12
        resp := served d }) ∧
    (off = 0x08 → ∃ d, hostAccess (busWrite off v) s =
      if v.getLsbD 1 then { enterReset s with resp := served d }
      else { s with irqEn := v.getLsbD 0, resp := served d }) ∧
    (off = 0x10 ∨ ObufOffset (bufBytes s) off.toNat ∨ ReservedOffset (bufBytes s) off.toNat →
      ∃ d, hostAccess (busWrite off v) s = { s with resp := served d }) ∧
    (∀ a : Access, a.offset.toNat % 4 ≠ 0 ∨ a.width ≠ .bits32 →
      hostAccess a s = { s with resp := { error := true, data := 0 } })

/-- R103: while BUSY a read of STATUS, CTRL, IN_LEN or an IBUF word returns its current value, a read of CMD, KEYk or a
reserved location returns 0, and a read of OUT_LEN, IVk or an OBUF word returns some value, counted as one more draw;
no read changes anything else (R39). The count of draws is the model's own (log entry 3). -/
def Obligations.BusyReadsReturnCurrentOrFreeValues : Prop :=
  ∀ (s : State) (off : Offset), busy s = true → off.toNat % 4 = 0 →
    ((off = 0x10 ∨ (0x30 ≤ off.toNat ∧ off.toNat ≤ 0x3C) ∨ ObufOffset (bufBytes s) off.toNat) →
      ∃ d, hostAccess (busRead off) s = { s with resp := served d, draws := s.draws + 1 }) ∧
    (off = 0x04 → hostAccess (busRead off) s = { s with resp := served (statusWord s) }) ∧
    (off = 0x08 → hostAccess (busRead off) s = { s with resp := served (if s.irqEn then 1 else 0) }) ∧
    (off = 0x0C → hostAccess (busRead off) s = { s with resp := served s.inLen }) ∧
    (IbufOffset (bufBytes s) off.toNat →
      ∃ d, hostAccess (busRead off) s = { s with resp := served d } ∧
        ∀ j, j < 4 → d.extractLsb' (8 * j) 8 = ibufByte s (off.toNat - 0x10000 + j)) ∧
    ((off = 0x00 ∨ (0x20 ≤ off.toNat ∧ off.toNat ≤ 0x2C) ∨ ReservedOffset (bufBytes s) off.toNat) →
      hostAccess (busRead off) s = { s with resp := served 0 })

/-- R24, R93: key bytes cannot be read back, and nothing but a key-using command computes from them. While no key-using
command runs, two states that differ in the key alone step to two states that differ in the key alone. -/
def Obligations.KeyBytesStayInsideKeyUsingCommands : Prop :=
  ∀ (s t : State) (q : Quad),
    (∀ cmd i, s.phase = .busy cmd → decodeWord cmd = .ok i → keyUsing i = false) →
    step s = .next t → ∃ q', step { s with key := q } = .next { t with key := q' }

/-- R90: `irq` rises only at a completion with IRQ_EN = 1, or where IRQ_EN goes from 0 to 1 while DONE = 1; and it is 0 after a STATUS write
of bit 1, a CTRL write with IRQ_EN = 0, a command start and a reset. -/
def Obligations.IrqRisesOnlyAtCompletionOrEnable : Prop :=
  (∀ s t : State, step s = .next t → irq s = false → irq t = true →
    (∃ cmd, s.phase = .busy cmd ∧ t.phase = .idle ∧ s.irqEn = true) ∨ (s.done = true ∧ s.irqEn = false ∧ t.irqEn = true)) ∧
  (∀ (s : State) (v : Word),
    (v.getLsbD 1 = true → irq (hostAccess (busWrite 0x04 v) s) = false) ∧
    (v.getLsbD 0 = false → irq (hostAccess (busWrite 0x08 v) s) = false) ∧
    (s.phase = .idle → irq (hostAccess (busWrite 0x00 v) s) = false) ∧
    irq (enterReset s) = false)

-- Entropy and reset

/-- R91, R100: the answer to the outstanding request ends the wait, and the command goes on with it; an answer that belongs to
no outstanding request is discarded. That a tag says which request an answer belongs to is the model's choice (log
entry 6); so is it that an answer no reset made late, but that no request asked for, is discarded too (log entry 18). -/
def Obligations.EntropyAnswerEndsItsOwnWait : Prop :=
  ∀ (s : State) (tag : Nat) (a : Answer) (es : List Event), s.events = .entropy tag a :: es →
    (∀ q, s.request = some q → q.tag = tag → answerFits q.size a = true →
      step s = .next { s with request := none, stage := .answered q.purpose a, events := es }) ∧
    ((∀ q, s.request = some q → q.tag ≠ tag) → step s = .next (s.withEvents es))

/-- R47, R91: what FRAME_BUILD, GEN_IV and PAYLOAD_ENCRYPT ask the entropy port for, in order, and that they stay BUSY with
ENT_WAIT = 1. The model's choices: a request carries a tag and a counter gives it out (log entry 6); PAYLOAD_ENCRYPT holds
the frame of R48 in FRAME across its second request (log entry 4). -/
def Obligations.EntropyRequestsAreThoseListed : Prop :=
  (∀ s : State, s.stage = .fresh → 1 ≤ inLength s → paddedSize (inLength s) ≤ bufBytes s →
    ∃ t, exec .frameBuild s = .next t ∧ AsksFor s t .filler (paddedSize (inLength s)) s.scratch ∧ entWait t = true) ∧
  (∀ s : State, s.stage = .fresh →
    ∃ t, exec .genIv s = .next t ∧ AsksFor s t .iv 16 s.scratch ∧ entWait t = true) ∧
  (∀ s : State, s.stage = .fresh → 1 ≤ inLength s → base64Length (16 + paddedSize (inLength s)) + 1 ≤ bufBytes s →
    ∃ t, exec .payloadEncrypt s = .next t ∧ AsksFor s t .filler (paddedSize (inLength s)) s.scratch ∧ entWait t = true) ∧
  (∀ (s : State) (r : List Byte), s.stage = .answered .filler (.ok r) → r.length = paddedSize (inLength s) →
    1 ≤ inLength s → base64Length (16 + paddedSize (inLength s)) + 1 ≤ bufBytes s →
    ∃ t, exec .payloadEncrypt s = .next t ∧
      AsksFor s t .iv 16 { s.scratch with frame := .holds (frameLayout (messageOf s) r) } ∧ entWait t = true)

/-- R100, R31: a CTRL write with SRST = 1, at any time, leaves every register and flag at its reset value, abandons a running
command and its entropy request, emits no diagnostic event, and discards the IRQ_EN of the same write; the key is zero. The
model's choices: the reset leaves the diagnostic events emitted before it, the tag counter, the configuration and the
events to come as they are (log entry 12), and the write is answered with data 0 (log entry 7). -/
def Obligations.SoftResetEntersTheResetState : Prop :=
  ∀ (s : State) (v : Word), v.getLsbD 1 = true →
    ∃ t, hostAccess (busWrite 0x08 v) s = t ∧
      t.phase = .idle ∧ t.stage = .fresh ∧ t.request = none ∧ t.scratch = Scratch.unspecified ∧ statusWord t = 0 ∧
      ctrlWord t = 0 ∧ irq t = false ∧ t.inLen = 0 ∧ t.outLen = 0 ∧ t.key.bytes = List.replicate 16 0 ∧
      t.iv.bytes = List.replicate 16 0 ∧ t.diag = s.diag ∧ t.config = s.config ∧ t.events = s.events ∧
      t.nextTag = s.nextTag ∧ t.resp = served 0

/-- R91, R99, R100: an entropy answer that arrives after a reset is discarded. The first event after a soft reset, if it is
an answer, whatever its tag, does not move the engine. And an answer to the request that a soft or a power-on reset
abandoned is discarded however much later it arrives, also where a new command has its own request outstanding by then.
That a tag tells the two apart is the model's choice (log entry 6); that the abandoned request's tag was given out before
is part of the invariant of `StepKeepsProgressInv`. -/
def Obligations.AnswerAfterResetIsDiscarded : Prop :=
  (∀ (s : State) (v : Word) (tag : Nat) (a : Answer) (es : List Event), v.getLsbD 1 = true →
    s.events = .host (busWrite 0x08 v) :: .entropy tag a :: es →
    ∃ t, step s = .next t ∧ step t = .next (t.withEvents es)) ∧
  (∀ (s t u : State) (q : Request) (n : Nat) (a : Answer) (es fs : List Event), s.request = some q → q.tag < s.nextTag →
    (s.events = .powerOn :: es ∨ ∃ v : Word, v.getLsbD 1 = true ∧ s.events = .host (busWrite 0x08 v) :: es) →
    step s = .next t → Sys2Proof.core.run n t = .next u → u.events = .entropy q.tag a :: fs →
    step u = .next (u.withEvents fs))

/-- R31, R99: the values the reset state gives STATUS, CTRL, the registers, the phase and `irq`, in every configuration; a
power-on reset gives the same values from any state. -/
def Obligations.ResetStateValues : Prop :=
  (∀ c : Config, (State.resetOf c).phase = .idle ∧ statusWord (State.resetOf c) = 0 ∧ ctrlWord (State.resetOf c) = 0 ∧
    (State.resetOf c).inLen = 0 ∧ (State.resetOf c).outLen = 0 ∧
    (State.resetOf c).key.bytes = List.replicate 16 0 ∧ (State.resetOf c).iv.bytes = List.replicate 16 0 ∧
    (State.resetOf c).request = none ∧ irq (State.resetOf c) = false) ∧
  (∀ (s : State) (es : List Event), s.events = .powerOn :: es →
    ∃ t, step s = .next t ∧ t.phase = .idle ∧ statusWord t = 0 ∧ ctrlWord t = 0 ∧ t.inLen = 0 ∧ t.outLen = 0 ∧
      t.key.bytes = List.replicate 16 0 ∧ t.iv.bytes = List.replicate 16 0 ∧ t.request = none ∧ irq t = false)

/-- R92: the sink's taking an event off the port, or the loss of one, changes no engine state. That the port holds the
events not yet taken in a list is the model's choice (log entry 10). -/
def Obligations.SinkChangesNoEngineState : Prop :=
  ∀ (s : State) (lost : Bool) (es : List Event), s.events = .sink lost :: es →
    step s = .next { s with diag := s.diag.drop 1, events := es }

-- The commands

/-- R54, R48: FRAME_BUILD with its entropy answered `Ok` writes the frame: pattern bytes `r[2] r[3] r[2] r[3]`, the big-endian
length, the message, and the filler `r[8+n ..)`. -/
def Obligations.FrameBuildWritesTheFrame : Prop :=
  ∀ (s : State) (p : Purpose) (r : List Byte), 1 ≤ inLength s → paddedSize (inLength s) ≤ bufBytes s →
    s.stage = .answered p (.ok r) → r.length = paddedSize (inLength s) →
    SucceedsWith .frameBuild s (frameLayout (messageOf s) r) false none ∧
      (frameLayout (messageOf s) r).length = paddedSize (inLength s)

/-- R54, R83: the errors of FRAME_BUILD and their order. -/
def Obligations.FrameBuildFailsInItsOrder : Prop :=
  ∀ s : State,
    (bufBytes s < inLength s → FailsWith .frameBuild s .lengthError none) ∧
    (inLength s = 0 → FailsWith .frameBuild s .emptyInput none) ∧
    (1 ≤ inLength s → inLength s ≤ bufBytes s → bufBytes s < paddedSize (inLength s) →
      FailsWith .frameBuild s .lengthError none) ∧
    (∀ p, 1 ≤ inLength s → paddedSize (inLength s) ≤ bufBytes s → s.stage = .answered p .fail →
      FailsWith .frameBuild s .entropyUnavailable none)

/-- R55, R53: FRAME_PARSE of a frame whose size, pattern bytes and length field pass the tests writes the message and its
terminator. The length field is the big-endian number in bytes 4 to 7. -/
def Obligations.FrameParseWritesTheMessage : Prop :=
  ∀ (s : State) (l : Nat), inLength s ≤ bufBytes s → 8 ≤ inLength s → inLength s % 16 = 0 →
    ibufByte s 0 = ibufByte s 2 → ibufByte s 1 = ibufByte s 3 →
    l = (ibufByte s 4).toNat * 2 ^ 24 + (ibufByte s 5).toNat * 2 ^ 16 + (ibufByte s 6).toNat * 2 ^ 8 + (ibufByte s 7).toNat →
    8 + l ≤ inLength s →
    SucceedsWith .frameParse s ((List.range l).map (fun k => ibufByte s (8 + k))) true none

/-- R55, R83: the errors of FRAME_PARSE and their order: the size, then the pattern bytes, then the length field. -/
def Obligations.FrameParseFailsInItsOrder : Prop :=
  ∀ s : State,
    (bufBytes s < inLength s → FailsWith .frameParse s .lengthError none) ∧
    (inLength s ≤ bufBytes s → (inLength s < 8 ∨ inLength s % 16 ≠ 0) → FailsWith .frameParse s .malformed none) ∧
    (inLength s ≤ bufBytes s → 8 ≤ inLength s → inLength s % 16 = 0 →
      (ibufByte s 0 ≠ ibufByte s 2 ∨ ibufByte s 1 ≠ ibufByte s 3) → FailsWith .frameParse s .corrupted none) ∧
    (inLength s ≤ bufBytes s → 8 ≤ inLength s → inLength s % 16 = 0 →
      ibufByte s 0 = ibufByte s 2 → ibufByte s 1 = ibufByte s 3 →
      inLength s < 8 + ((ibufByte s 4).toNat * 2 ^ 24 + (ibufByte s 5).toNat * 2 ^ 16 + (ibufByte s 6).toNat * 2 ^ 8 +
        (ibufByte s 7).toNat) → FailsWith .frameParse s .malformed none)

/-- R59: GEN_IV loads the IV register with the 16 answered bytes, OUT_LEN = 0 and OBUF unchanged; after `Fail` it fails with
EntropyUnavailable and the IV register keeps its value. -/
def Obligations.GenIvLoadsTheAnswer : Prop :=
  ∀ (s : State) (p : Purpose),
    (∀ r : List Byte, s.stage = .answered p (.ok r) → r.length = 16 → SucceedsWith .genIv s [] false (some r)) ∧
    (s.stage = .answered p .fail → FailsWith .genIv s .entropyUnavailable none)

/-- R60: CBC_ENCRYPT writes `CBC_Enc(KEY, IV, IBUF[0..n))`, as long as its input, and keeps the IV register. -/
def Obligations.CbcEncryptWritesTheCiphertext : Prop :=
  ∀ s : State, inLength s ≤ bufBytes s → inLength s % 16 = 0 → s.keyWr = 0b1111 →
    SucceedsWith .cbcEncrypt s (cbcEnc s.key.bytes s.iv.bytes (messageOf s)) false none ∧
      (cbcEnc s.key.bytes s.iv.bytes (messageOf s)).length = inLength s

/-- R61: CBC_DECRYPT writes `CBC_Dec(KEY, IV, IBUF[0..n))`, as long as its input, and keeps the IV register. -/
def Obligations.CbcDecryptWritesThePlaintext : Prop :=
  ∀ s : State, inLength s ≤ bufBytes s → inLength s % 16 = 0 → s.keyWr = 0b1111 →
    SucceedsWith .cbcDecrypt s (cbcDec s.key.bytes s.iv.bytes (messageOf s)) false none ∧
      (cbcDec s.key.bytes s.iv.bytes (messageOf s)).length = inLength s

/-- R58, R60, R61, R83: the errors of the two CBC commands and their order. A misaligned length is EncryptionFailure for
CBC_ENCRYPT and Malformed for CBC_DECRYPT, and both come before the key test. -/
def Obligations.CbcCommandsFailInTheirOrder : Prop :=
  ∀ s : State,
    (bufBytes s < inLength s →
      FailsWith .cbcEncrypt s .lengthError none ∧ FailsWith .cbcDecrypt s .lengthError none) ∧
    (inLength s ≤ bufBytes s → inLength s % 16 ≠ 0 →
      FailsWith .cbcEncrypt s .encryptionFailure none ∧ FailsWith .cbcDecrypt s .malformed none) ∧
    (inLength s ≤ bufBytes s → inLength s % 16 = 0 → s.keyWr ≠ 0b1111 →
      FailsWith .cbcEncrypt s .encryptionFailure none ∧ FailsWith .cbcDecrypt s .encryptionFailure none)

/-- R76: B64_ENCODE writes the characters and the terminator when both fit, and fails LengthError when they do not. -/
def Obligations.B64EncodeWritesTheString : Prop :=
  ∀ s : State,
    (base64Length (inLength s) + 1 ≤ bufBytes s →
      SucceedsWith .b64Encode s (base64Encode (messageOf s)) true none ∧
        (base64Encode (messageOf s)).length = base64Length (inLength s)) ∧
    (bufBytes s < base64Length (inLength s) + 1 → FailsWith .b64Encode s .lengthError none)

/-- R77, R83: B64_DECODE writes the bytes of the string that ends at the first 0x00, with no terminator; it fails LengthError
for IN_LEN > BUF_BYTES, else DecodeError when the string does not decode. -/
def Obligations.B64DecodeWritesTheBytes : Prop :=
  ∀ s : State,
    (∀ d, inLength s ≤ bufBytes s → base64Decode (stringOf s) = .ok d → SucceedsWith .b64Decode s d false none) ∧
    (bufBytes s < inLength s → FailsWith .b64Decode s .lengthError none) ∧
    (inLength s ≤ bufBytes s → (∀ d, base64Decode (stringOf s) ≠ .ok d) → FailsWith .b64Decode s .decodeError none)

/-- R78: PAYLOAD_ENCRYPT, with its IV answered and the frame in FRAME, writes the base64 string of `IV || ciphertext` and its
terminator, and the IV register. That FRAME holds the frame between the two requests is the model's form of the scratch
buffer (log entry 4). -/
def Obligations.PayloadEncryptWritesTheTransportString : Prop :=
  ∀ (s : State) (r f : List Byte), 1 ≤ inLength s → base64Length (16 + paddedSize (inLength s)) + 1 ≤ bufBytes s →
    s.stage = .answered .iv (.ok r) → r.length = 16 → s.scratch.frame = .holds f → f.length = paddedSize (inLength s) →
    s.keyWr = 0b1111 →
    SucceedsWith .payloadEncrypt s (base64Encode (r ++ cbcEnc s.key.bytes r f)) true (some r) ∧
      (base64Encode (r ++ cbcEnc s.key.bytes r f)).length = base64Length (16 + paddedSize (inLength s))

/-- R78, R83, R85: the errors of PAYLOAD_ENCRYPT and their order. A missing key is found only after both answers, and the IV
register then holds the second. -/
def Obligations.PayloadEncryptFailsInItsOrder : Prop :=
  ∀ s : State,
    (bufBytes s < inLength s → FailsWith .payloadEncrypt s .lengthError none) ∧
    (inLength s = 0 → FailsWith .payloadEncrypt s .emptyInput none) ∧
    (1 ≤ inLength s → inLength s ≤ bufBytes s → bufBytes s < base64Length (16 + paddedSize (inLength s)) + 1 →
      FailsWith .payloadEncrypt s .lengthError none) ∧
    (1 ≤ inLength s → base64Length (16 + paddedSize (inLength s)) + 1 ≤ bufBytes s →
      (∀ p, s.stage = .answered p .fail → FailsWith .payloadEncrypt s .entropyUnavailable none) ∧
      (∀ r, s.stage = .answered .iv (.ok r) → r.length = 16 → s.keyWr ≠ 0b1111 →
        FailsWith .payloadEncrypt s .encryptionFailure (some r)))

/-- R79: PAYLOAD_DECRYPT of a string that decodes to an envelope of the right length, whose frame parses, writes the message
and its terminator, the envelope's IV to the IV register, and one notice with the message length. -/
def Obligations.PayloadDecryptWritesTheMessage : Prop :=
  ∀ (s : State) (env msg : List Byte), inLength s ≤ bufBytes s → base64Decode (stringOf s) = .ok env →
    16 < env.length → env.length % 16 = 0 → s.keyWr = 0b1111 →
    parseFrame (cbcDec s.key.bytes (env.take 16) (env.drop 16)) = .ok msg →
    SucceedsWith .payloadDecrypt s msg true (some (env.take 16))

/-- R79, R83, R85: the errors of PAYLOAD_DECRYPT and their order. Once the envelope's length passes, the IV register is written
even when the command fails. -/
def Obligations.PayloadDecryptFailsInItsOrder : Prop :=
  ∀ s : State,
    (bufBytes s < inLength s → FailsWith .payloadDecrypt s .lengthError none) ∧
    (inLength s ≤ bufBytes s →
      ((∀ d, base64Decode (stringOf s) ≠ .ok d) → FailsWith .payloadDecrypt s .decodeError none) ∧
      (∀ env, base64Decode (stringOf s) = .ok env →
        (env.length ≤ 16 ∨ env.length % 16 ≠ 0 → FailsWith .payloadDecrypt s .malformed none) ∧
        (16 < env.length → env.length % 16 = 0 →
          (s.keyWr ≠ 0b1111 → FailsWith .payloadDecrypt s .encryptionFailure (some (env.take 16))) ∧
          (∀ e, s.keyWr = 0b1111 → parseFrame (cbcDec s.key.bytes (env.take 16) (env.drop 16)) = .error e →
            FailsWith .payloadDecrypt s e (some (env.take 16)) ∧ (e = .corrupted ∨ e = .malformed)))))

/-- R88: the key-using commands are those of opcodes 0x4, 0x5, 0x8 and 0x9; a completion of one of them, and of no other
command, illegal ones included, clears the 16 key bytes and KEY_WR; and KEY_VALID = 1 needs every KEY_WR bit. -/
def Obligations.KeyUsingCompletionClearsTheKey : Prop :=
  (∀ i : Instr, keyUsing i = true ↔ opcodeOf i = 0x4 ∨ opcodeOf i = 0x5 ∨ opcodeOf i = 0x8 ∨ opcodeOf i = 0x9) ∧
  (∀ (i : Instr) (s t : State) (cmd : Word), s.phase = .busy cmd → exec i s = .next t →
    (t.phase = .idle → keyUsing i = true → t.key.bytes = List.replicate 16 0 ∧ t.keyWr = 0 ∧ keyValid t = false) ∧
    (t.phase ≠ .idle ∨ keyUsing i = false → t.key = s.key ∧ t.keyWr = s.keyWr)) ∧
  (∀ (s t : State) (cmd : Word), (cmd.toNat / 16 ≠ 0 ∨ cmd.toNat % 16 = 0 ∨ 10 ≤ cmd.toNat % 16) →
    runCommand cmd s = .next t →
    t.key = s.key ∧ t.keyWr = s.keyWr) ∧
  (∀ (s : State) (k : Fin 4), s.keyWr.getLsbD k.val = false → keyValid s = false)

/-- R29, R47, R85: an engine's move on a command that does not complete it changes only the request (so ENT_WAIT), the
tag counter (the model's own, log entry 6) and the scratch (its form: log entry 4), and no command's move changes IN_LEN, IBUF, CTRL, WR_IGN or LAST_OP. -/
def Obligations.CommandMoveFrame : Prop :=
  ∀ (i : Instr) (s t : State) (cmd : Word), s.phase = .busy cmd → exec i s = .next t →
    t.inLen = s.inLen ∧ t.irqEn = s.irqEn ∧ t.wrIgn = s.wrIgn ∧ t.lastOp = s.lastOp ∧ t.config = s.config ∧
    t.resp = s.resp ∧ t.events = s.events ∧ (∀ addr, addr < obufBase → byteAt t addr = byteAt s addr) ∧
    (t.phase ≠ .idle → t = { s with request := t.request, nextTag := t.nextTag, scratch := t.scratch }) ∧
    (t.phase = .idle → t.done = true ∧ t.request = none ∧ t.nextTag = s.nextTag)

-- The functions behind the commands

/-- R10: `be32(n)` is the four bytes of `n`, most significant first, and `rd_be32` of four bytes is the
number they make, so it reads `n` back. -/
def Obligations.BigEndianLengthReadsBack : Prop :=
  ∀ n : Nat, n < 2 ^ 32 →
    be32 n = [BitVec.ofNat 8 (n / 2 ^ 24), BitVec.ofNat 8 (n / 2 ^ 16), BitVec.ofNat 8 (n / 2 ^ 8), BitVec.ofNat 8 n] ∧
      readBe32 (be32 n) 0 = n ∧
      ∀ b0 b1 b2 b3 : Byte, readBe32 [b0, b1, b2, b3] 0 =
        b0.toNat * 2 ^ 24 + b1.toNat * 2 ^ 16 + b2.toNat * 2 ^ 8 + b3.toNat

/-- R52, R53: `ParseFrame` of the frame that `BuildFrame` makes is the message, for every message and every entropy string of
the frame's length; the frame has the layout of R48. -/
def Obligations.ParseFrameInvertsBuildFrame : Prop :=
  ∀ m r : List Byte, 1 ≤ m.length → 8 + m.length < 2 ^ 32 → r.length = paddedSize m.length →
    buildFrame m r = frameLayout m r ∧ parseFrame (buildFrame m r) = .ok m

/-- R64: each S-box entry is the affine map of the field inverse, and `InvSBox` undoes it. -/
def Obligations.SboxTableIsItsDefinition : Prop :=
  ∀ a : Byte, invSbox (sbox a) = a ∧ sbox (invSbox a) = a ∧
    ∃ b : Byte, (if a = 0 then b = 0 else fieldMul a b = 1) ∧
      sbox a = b ^^^ b.rotateLeft 1 ^^^ b.rotateLeft 2 ^^^ b.rotateLeft 3 ^^^ b.rotateLeft 4 ^^^ 0x63

/-- R63, R67, R68: the field product (linear, `1 • b = b`, `2 • b` is the shift reduced by 0x1B, each power of two doubles the
one before), the lanes that ShiftRows and InvShiftRows take, the rows of the MixColumns and InvMixColumns matrices, and
that InvMixColumns is the inverse of MixColumns. -/
def Obligations.InvMixColumnsUndoesMixColumns : Prop :=
  (∀ b : Byte, fieldMul 0x01 b = b ∧ fieldMul 0x02 b = b <<< 1 ^^^ (if b.getLsbD 7 then 0x1B else 0x00)) ∧
  (∀ a a' b : Byte, fieldMul (a ^^^ a') b = fieldMul a b ^^^ fieldMul a' b) ∧
  (∀ (i : Nat) (b : Byte), i < 7 → fieldMul (1#8 <<< (i + 1)) b = fieldMul 0x02 (fieldMul (1#8 <<< i) b)) ∧
  (∀ (g : Grid) (r c : Nat), r < 4 → c < 4 →
    laneOf (shiftRows g) r c = laneOf g r ((c + r) % 4) ∧
    laneOf (invShiftRows g) r c = laneOf g r ((c + 4 - r) % 4) ∧
    laneOf (mixColumns g) r c =
      fieldMul 0x02 (laneOf g r c) ^^^ fieldMul 0x03 (laneOf g ((r + 1) % 4) c) ^^^ laneOf g ((r + 2) % 4) c ^^^
        laneOf g ((r + 3) % 4) c ∧
    laneOf (invMixColumns g) r c =
      fieldMul 0x0e (laneOf g r c) ^^^ fieldMul 0x0b (laneOf g ((r + 1) % 4) c) ^^^
        fieldMul 0x0d (laneOf g ((r + 2) % 4) c) ^^^ fieldMul 0x09 (laneOf g ((r + 3) % 4) c)) ∧
  ∀ g : Grid, invMixColumns (mixColumns g) = g

/-- R62, R64, R69, R70, R71, R72: how a block enters the state; SubBytes and AddRoundKey lane by lane; the 44 words of the key
schedule by their recurrence, with `Rcon[j] = x^(j-1)`; the cipher as its ten rounds, the last without MixColumns; and the
inverse cipher as its own. The S-box is that of `SboxTableIsItsDefinition`; ShiftRows and MixColumns are those of
`InvMixColumnsUndoesMixColumns`. -/
def Obligations.AesRunsItsRounds : Prop :=
  (∀ (b : List Byte) (r c : Nat), r < 4 → c < 4 → laneOf (gridOfBytes b) r c = b.getD (r + 4 * c) 0) ∧
  (∀ (g rk : Grid) (r c : Nat), r < 4 → c < 4 →
    laneOf (subBytes g) r c = sbox (laneOf g r c) ∧ laneOf (invSubBytes g) r c = invSbox (laneOf g r c) ∧
    laneOf (addRoundKey g rk) r c = laneOf g r c ^^^ laneOf rk r c) ∧
  (∀ k : List Byte, k.length = 16 →
    (keyExpansion k).length = 11 ∧ (∀ i, i < 4 → keyWord k i = (k.drop (4 * i)).take 4) ∧
    ∀ i, 4 ≤ i → i < 44 → keyWord k i =
      xorBytes (keyWord k (i - 4)) (if i % 4 = 0 then scheduleCore (keyWord k (i - 1)) (i / 4) else keyWord k (i - 1))) ∧
  (∀ k b : List Byte,
    aesEnc k b = gridBytes (addRoundKey (shiftRows (subBytes ((List.range 9).foldl
      (fun s j => addRoundKey (mixColumns (shiftRows (subBytes s))) (roundKey k (j + 1)))
      (addRoundKey (gridOfBytes b) (roundKey k 0))))) (roundKey k 10)) ∧
    aesDec k b = gridBytes (addRoundKey (invSubBytes (invShiftRows ((List.range 9).foldl
      (fun s j => invMixColumns (addRoundKey (invSubBytes (invShiftRows s)) (roundKey k (9 - j))))
      (addRoundKey (gridOfBytes b) (roundKey k 10))))) (roundKey k 0)))

/-- R72: the inverse cipher undoes the cipher, for every key and every 16-byte block. -/
def Obligations.AesDecryptInvertsEncrypt : Prop :=
  ∀ k b : List Byte, b.length = 16 → aesDec k (aesEnc k b) = b

/-- R56: the chaining equations `C_0 = AES128_Enc(K, P_0 XOR iv)` and `C_i = AES128_Enc(K, P_i XOR C_(i-1))`, and
`len(C) = len(P)`. -/
def Obligations.CbcEncryptChains : Prop :=
  ∀ k iv p : List Byte, p.length % 16 = 0 →
    (cbcEnc k iv p).length = p.length ∧
    (16 ≤ p.length → blockOf (cbcEnc k iv p) 0 = aesEnc k (xorBytes (blockOf p 0) iv)) ∧
    (∀ i, 16 * (i + 2) ≤ p.length →
      blockOf (cbcEnc k iv p) (i + 1) = aesEnc k (xorBytes (blockOf p (i + 1)) (blockOf (cbcEnc k iv p) i)))

/-- R57: `CBC_Dec(K, iv, CBC_Enc(K, iv, P)) = P` for every key, IV and block-aligned plaintext. -/
def Obligations.CbcDecryptInvertsEncrypt : Prop :=
  ∀ k iv p : List Byte, iv.length = 16 → p.length % 16 = 0 → cbcDec k iv (cbcEnc k iv p) = p

/-- R57, R81: how a change spreads through CBC decryption. A change `d` of the IV changes plaintext block 0 by exactly `d` and
no other block; a change `d` of ciphertext block `i` changes block `i + 1` by exactly `d` and no block but `i` and
`i + 1`. -/
def Obligations.CbcDecryptSpreadsAFlip : Prop :=
  ∀ k iv c d : List Byte, iv.length = 16 → d.length = 16 → c.length % 16 = 0 →
    (16 ≤ c.length →
      cbcDec k (xorBytes iv d) c = xorBytes ((cbcDec k iv c).take 16) d ++ (cbcDec k iv c).drop 16) ∧
    (∀ i j, 16 * (i + 1) ≤ c.length → 16 * (j + 1) ≤ c.length → j ≠ i →
      blockOf (cbcDec k iv (c.take (16 * i) ++ xorBytes (blockOf c i) d ++ c.drop (16 * (i + 1)))) j =
        if j = i + 1 then xorBytes (blockOf (cbcDec k iv c) j) d else blockOf (cbcDec k iv c) j)

/-- R73: `val` and `sym` are inverse on the alphabet, the alphabet is the five ranges of the table with their values, and the
pad character is not in it. -/
def Obligations.Base64AlphabetIsTheTable : Prop :=
  (∀ v : BitVec 6, b64Value (b64Symbol v) = some v) ∧
  (∀ (ch : Byte) (v : BitVec 6), b64Value ch = some v → b64Symbol v = ch) ∧
  (∀ ch : Byte, b64Value ch ≠ none ↔
    (0x41 ≤ ch.toNat ∧ ch.toNat ≤ 0x5A) ∨ (0x61 ≤ ch.toNat ∧ ch.toNat ≤ 0x7A) ∨
    (0x30 ≤ ch.toNat ∧ ch.toNat ≤ 0x39) ∨ ch = 0x2B ∨ ch = 0x2F) ∧
  (∀ (ch : Byte) (v : BitVec 6), b64Value ch = some v →
    (0x41 ≤ ch.toNat ∧ ch.toNat ≤ 0x5A → v.toNat = ch.toNat - 0x41) ∧
    (0x61 ≤ ch.toNat ∧ ch.toNat ≤ 0x7A → v.toNat = ch.toNat - 0x61 + 26) ∧
    (0x30 ≤ ch.toNat ∧ ch.toNat ≤ 0x39 → v.toNat = ch.toNat - 0x30 + 52) ∧
    (ch = 0x2B → v.toNat = 62) ∧ (ch = 0x2F → v.toNat = 63)) ∧
  padChar = 0x3D ∧ b64Value padChar = none

/-- R74, R75: the characters of a group of one, two and three bytes (the symbols of its 24-bit number, most significant bits
first, then `==`, `=` or no pad), that groups of three concatenate, that the string has `4 · ceil(n / 3)` characters, and
that `B64_Decode(B64_Encode(b)) = b` for every byte string. -/
def Obligations.Base64DecodeInvertsEncode : Prop :=
  (∀ b : List Byte, base64Decode (base64Encode b) = .ok b ∧ (base64Encode b).length = 4 * ((b.length + 2) / 3)) ∧
  base64Encode [] = [] ∧
  (∀ a : Byte, base64Encode [a] = (symbolsOf (a.toNat * 2 ^ 16)).take 2 ++ [0x3D, 0x3D]) ∧
  (∀ a b : Byte, base64Encode [a, b] = (symbolsOf (a.toNat * 2 ^ 16 + b.toNat * 2 ^ 8)).take 3 ++ [0x3D]) ∧
  (∀ a b c : Byte, base64Encode [a, b, c] = symbolsOf (a.toNat * 2 ^ 16 + b.toNat * 2 ^ 8 + c.toNat)) ∧
  (∀ x y : List Byte, x.length % 3 = 0 → base64Encode (x ++ y) = base64Encode x ++ base64Encode y)

/-- R75: what `B64_Decode` fails on; the length of what it gives, `len(d) = 3n/4 - p`; and its bytes: byte `3g + k` of the
result is byte `k`, from the top, of the 24-bit number that the symbols `s[4g]` to `s[4g+3]` make, a pad counting 0. So in a
last group with pads the leftover bits, which lie below the bytes it gives, do not count, whatever their value. -/
def Obligations.Base64DecodeAcceptsExactly : Prop :=
  ∀ s : List Byte,
    (∀ d, base64Decode s = .ok d →
      d.length = 3 * s.length / 4 - padRun s ∧
      ∀ g k, k < 3 → 3 * g + k < d.length → (d.getD (3 * g + k) 0).toNat = groupNumber s g / 2 ^ (16 - 8 * k) % 2 ^ 8) ∧
    ((∃ d, base64Decode s = .ok d) ↔
      s.length % 4 = 0 ∧ padRun s ≤ 2 ∧ ∀ ch ∈ s.take (s.length - padRun s), b64Value ch ≠ none) ∧
    (∀ e, base64Decode s = .error e → e = .decodeError)

/-- R80: the round trip (the requests' tags are the model's choice, log entry 6). From a fresh PAYLOAD_ENCRYPT of a message that fits, a loaded key and two `Ok` answers, the command
completes with a transport string; and PAYLOAD_DECRYPT of that string under the same key, with or without its terminator
in IN_LEN, gives the message back, whatever bytes it holds; the decoded envelope has `16 + paddedSize` bytes. -/
def Obligations.PayloadRoundTrip : Prop :=
  ∀ (s : State) (r1 r2 : List Byte), s.stage = .fresh → 1 ≤ inLength s →
    base64Length (16 + paddedSize (inLength s)) + 1 ≤ bufBytes s → s.keyWr = 0b1111 →
    r1.length = paddedSize (inLength s) → r2.length = 16 →
    ∃ s1 a1 s2 a2 t, ∃ str : List Byte,
      exec .payloadEncrypt s = .next s1 ∧ receiveAnswer s.nextTag (.ok r1) s1 = .next a1 ∧
      exec .payloadEncrypt a1 = .next s2 ∧ receiveAnswer (s.nextTag + 1) (.ok r2) s2 = .next a2 ∧
      exec .payloadEncrypt a2 = .next t ∧ t.done = true ∧ t.err = false ∧ t.outLen.toNat = str.length ∧
      (∀ k, k < str.length → obufByte t k = str.getD k 0) ∧ obufByte t str.length = 0 ∧
      (∃ env, base64Decode str = .ok env ∧ env.length = 16 + paddedSize (inLength s)) ∧
      ∀ u : State, u.config = s.config → u.key = s.key → u.keyWr = 0b1111 →
        (messageOf u = str ∨ messageOf u = str ++ [0]) →
        SucceedsWith .payloadDecrypt u (messageOf s) true (some r2)

/-- R7: the lengths the commands accept, and their largest values for `BUF_BYTES` = 4096. -/
def Obligations.LengthLimits : Prop :=
  (∀ s : State, s.stage = .fresh → s.request = none →
    ((∃ t, exec .frameBuild s = .next t ∧ t.request ≠ none) ↔ 1 ≤ inLength s ∧ paddedSize (inLength s) ≤ bufBytes s) ∧
    ((∃ t, exec .b64Encode s = .next t ∧ t.err = false) ↔ base64Length (inLength s) + 1 ≤ bufBytes s) ∧
    ((∃ t, exec .payloadEncrypt s = .next t ∧ t.request ≠ none) ↔
      1 ≤ inLength s ∧ base64Length (16 + paddedSize (inLength s)) + 1 ≤ bufBytes s)) ∧
  (∀ n : Nat,
    (paddedSize n ≤ Config.reference.bufBytes ↔ n ≤ 4088) ∧ (base64Length n + 1 ≤ Config.reference.bufBytes ↔ n ≤ 3069) ∧
    (base64Length (16 + paddedSize n) + 1 ≤ Config.reference.bufBytes ↔ n ≤ 3032))

-- The invariants

/-- R20, R28, R82, R84: every step keeps the STATUS invariant: while BUSY, DONE, ERR and ERRCODE are 0 and LAST_OP is the OP of
the running command; ERRCODE is never one of the reserved codes 9 to 15; ERR = 1 only with an error's code. That the phase
holds the whole CMD word is the model's reading (log entry 5). -/
def Obligations.StepKeepsStatusInv : Prop :=
  ∀ s t : State, StatusInv s → step s = .next t → StatusInv t

/-- R24, R88: every step keeps it that a key word not written since the last clear is 0. -/
def Obligations.StepKeepsKeyInv : Prop :=
  ∀ s t : State, KeyInv s → step s = .next t → KeyInv t

/-- R28, R29, R47, R91: every step keeps it that an outstanding request, and an answer taken, are those R47 lists for the
running command; that the request's size is at most ENTROPY_MAX_REQ; and that an idle engine has neither. The tags and the
form of the scratch are the model's own (log entries 4 and 6). -/
def Obligations.StepKeepsProgressInv : Prop :=
  ∀ s t : State, ProgressInv s → step s = .next t → ProgressInv t

/-- R26, R27, R33, R35: every step keeps the memory in its canonical form and inside the two buffers' windows, and OUT_LEN at
most BUF_BYTES: "every index a command uses lies in `[0, BUF_BYTES)`". The canonical form is the model's own (log
entry 2). -/
def Obligations.StepKeepsBufferInv : Prop :=
  ∀ s t : State, ProgressInv s → BufferInv s → step s = .next t → BufferInv t

/-- R92: every step keeps it that the events on the diagnostic port are those R92 lists, and no step changes the
configuration (R6). -/
def Obligations.StepKeepsDiagInvAndConfig : Prop :=
  ∀ s t : State, DiagInv s → step s = .next t → DiagInv t ∧ t.config = s.config

/-- The reset state of every configuration meets the five invariants. -/
def Obligations.ResetMeetsTheInvariants : Prop :=
  ∀ c : Config, StatusInv (State.resetOf c) ∧ KeyInv (State.resetOf c) ∧ ProgressInv (State.resetOf c) ∧
    BufferInv (State.resetOf c) ∧ DiagInv (State.resetOf c)
end

