-- ==== Sys2Proof/Laws/State.lean ====
section
/-! SUPPORT. One lemma for each field and each update of the state: what the field holds after it. No later proof unfolds a
record update. -/

namespace Sys2Proof.Machine

@[simp] theorem storeBytes_config (addr : Nat) (bytes : List Byte) (s : State) : (storeBytes addr bytes s).config = s.config := rfl
@[simp] theorem storeBytes_phase (addr : Nat) (bytes : List Byte) (s : State) : (storeBytes addr bytes s).phase = s.phase := rfl
@[simp] theorem storeBytes_stage (addr : Nat) (bytes : List Byte) (s : State) : (storeBytes addr bytes s).stage = s.stage := rfl
@[simp] theorem storeBytes_done (addr : Nat) (bytes : List Byte) (s : State) : (storeBytes addr bytes s).done = s.done := rfl
@[simp] theorem storeBytes_err (addr : Nat) (bytes : List Byte) (s : State) : (storeBytes addr bytes s).err = s.err := rfl
@[simp] theorem storeBytes_keyWr (addr : Nat) (bytes : List Byte) (s : State) : (storeBytes addr bytes s).keyWr = s.keyWr := rfl
@[simp] theorem storeBytes_errcode (addr : Nat) (bytes : List Byte) (s : State) : (storeBytes addr bytes s).errcode = s.errcode := rfl
@[simp] theorem storeBytes_wrIgn (addr : Nat) (bytes : List Byte) (s : State) : (storeBytes addr bytes s).wrIgn = s.wrIgn := rfl
@[simp] theorem storeBytes_lastOp (addr : Nat) (bytes : List Byte) (s : State) : (storeBytes addr bytes s).lastOp = s.lastOp := rfl
@[simp] theorem storeBytes_irqEn (addr : Nat) (bytes : List Byte) (s : State) : (storeBytes addr bytes s).irqEn = s.irqEn := rfl
@[simp] theorem storeBytes_inLen (addr : Nat) (bytes : List Byte) (s : State) : (storeBytes addr bytes s).inLen = s.inLen := rfl
@[simp] theorem storeBytes_outLen (addr : Nat) (bytes : List Byte) (s : State) : (storeBytes addr bytes s).outLen = s.outLen := rfl
@[simp] theorem storeBytes_key (addr : Nat) (bytes : List Byte) (s : State) : (storeBytes addr bytes s).key = s.key := rfl
@[simp] theorem storeBytes_iv (addr : Nat) (bytes : List Byte) (s : State) : (storeBytes addr bytes s).iv = s.iv := rfl
@[simp] theorem storeBytes_mem (addr : Nat) (bytes : List Byte) (s : State) : (storeBytes addr bytes s).mem = s.mem.setBytes addr bytes := rfl
@[simp] theorem storeBytes_ibufDraw (addr : Nat) (bytes : List Byte) (s : State) : (storeBytes addr bytes s).ibufDraw = s.ibufDraw := rfl
@[simp] theorem storeBytes_obufDraw (addr : Nat) (bytes : List Byte) (s : State) : (storeBytes addr bytes s).obufDraw = s.obufDraw := rfl
@[simp] theorem storeBytes_scratch (addr : Nat) (bytes : List Byte) (s : State) : (storeBytes addr bytes s).scratch = s.scratch := rfl
@[simp] theorem storeBytes_request (addr : Nat) (bytes : List Byte) (s : State) : (storeBytes addr bytes s).request = s.request := rfl
@[simp] theorem storeBytes_nextTag (addr : Nat) (bytes : List Byte) (s : State) : (storeBytes addr bytes s).nextTag = s.nextTag := rfl
@[simp] theorem storeBytes_diag (addr : Nat) (bytes : List Byte) (s : State) : (storeBytes addr bytes s).diag = s.diag := rfl
@[simp] theorem storeBytes_resp (addr : Nat) (bytes : List Byte) (s : State) : (storeBytes addr bytes s).resp = s.resp := rfl
@[simp] theorem storeBytes_draws (addr : Nat) (bytes : List Byte) (s : State) : (storeBytes addr bytes s).draws = s.draws := rfl
@[simp] theorem storeBytes_events (addr : Nat) (bytes : List Byte) (s : State) : (storeBytes addr bytes s).events = s.events := rfl

@[simp] theorem loseObuf_config (s : State) : (loseObuf s).config = s.config := rfl
@[simp] theorem loseObuf_phase (s : State) : (loseObuf s).phase = s.phase := rfl
@[simp] theorem loseObuf_stage (s : State) : (loseObuf s).stage = s.stage := rfl
@[simp] theorem loseObuf_done (s : State) : (loseObuf s).done = s.done := rfl
@[simp] theorem loseObuf_err (s : State) : (loseObuf s).err = s.err := rfl
@[simp] theorem loseObuf_keyWr (s : State) : (loseObuf s).keyWr = s.keyWr := rfl
@[simp] theorem loseObuf_errcode (s : State) : (loseObuf s).errcode = s.errcode := rfl
@[simp] theorem loseObuf_wrIgn (s : State) : (loseObuf s).wrIgn = s.wrIgn := rfl
@[simp] theorem loseObuf_lastOp (s : State) : (loseObuf s).lastOp = s.lastOp := rfl
@[simp] theorem loseObuf_irqEn (s : State) : (loseObuf s).irqEn = s.irqEn := rfl
@[simp] theorem loseObuf_inLen (s : State) : (loseObuf s).inLen = s.inLen := rfl
@[simp] theorem loseObuf_outLen (s : State) : (loseObuf s).outLen = s.outLen := rfl
@[simp] theorem loseObuf_key (s : State) : (loseObuf s).key = s.key := rfl
@[simp] theorem loseObuf_iv (s : State) : (loseObuf s).iv = s.iv := rfl
@[simp] theorem loseObuf_mem (s : State) : (loseObuf s).mem = s.mem.below obufBase := rfl
@[simp] theorem loseObuf_ibufDraw (s : State) : (loseObuf s).ibufDraw = s.ibufDraw := rfl
@[simp] theorem loseObuf_obufDraw (s : State) : (loseObuf s).obufDraw = s.draws := rfl
@[simp] theorem loseObuf_scratch (s : State) : (loseObuf s).scratch = s.scratch := rfl
@[simp] theorem loseObuf_request (s : State) : (loseObuf s).request = s.request := rfl
@[simp] theorem loseObuf_nextTag (s : State) : (loseObuf s).nextTag = s.nextTag := rfl
@[simp] theorem loseObuf_diag (s : State) : (loseObuf s).diag = s.diag := rfl
@[simp] theorem loseObuf_resp (s : State) : (loseObuf s).resp = s.resp := rfl
@[simp] theorem loseObuf_draws (s : State) : (loseObuf s).draws = s.draws + 1 := rfl
@[simp] theorem loseObuf_events (s : State) : (loseObuf s).events = s.events := rfl

@[simp] theorem clearKey_config (s : State) : (clearKey s).config = s.config := rfl
@[simp] theorem clearKey_phase (s : State) : (clearKey s).phase = s.phase := rfl
@[simp] theorem clearKey_stage (s : State) : (clearKey s).stage = s.stage := rfl
@[simp] theorem clearKey_done (s : State) : (clearKey s).done = s.done := rfl
@[simp] theorem clearKey_err (s : State) : (clearKey s).err = s.err := rfl
@[simp] theorem clearKey_keyWr (s : State) : (clearKey s).keyWr = 0 := rfl
@[simp] theorem clearKey_errcode (s : State) : (clearKey s).errcode = s.errcode := rfl
@[simp] theorem clearKey_wrIgn (s : State) : (clearKey s).wrIgn = s.wrIgn := rfl
@[simp] theorem clearKey_lastOp (s : State) : (clearKey s).lastOp = s.lastOp := rfl
@[simp] theorem clearKey_irqEn (s : State) : (clearKey s).irqEn = s.irqEn := rfl
@[simp] theorem clearKey_inLen (s : State) : (clearKey s).inLen = s.inLen := rfl
@[simp] theorem clearKey_outLen (s : State) : (clearKey s).outLen = s.outLen := rfl
@[simp] theorem clearKey_key (s : State) : (clearKey s).key = Quad.zero := rfl
@[simp] theorem clearKey_iv (s : State) : (clearKey s).iv = s.iv := rfl
@[simp] theorem clearKey_mem (s : State) : (clearKey s).mem = s.mem := rfl
@[simp] theorem clearKey_ibufDraw (s : State) : (clearKey s).ibufDraw = s.ibufDraw := rfl
@[simp] theorem clearKey_obufDraw (s : State) : (clearKey s).obufDraw = s.obufDraw := rfl
@[simp] theorem clearKey_scratch (s : State) : (clearKey s).scratch = s.scratch := rfl
@[simp] theorem clearKey_request (s : State) : (clearKey s).request = s.request := rfl
@[simp] theorem clearKey_nextTag (s : State) : (clearKey s).nextTag = s.nextTag := rfl
@[simp] theorem clearKey_diag (s : State) : (clearKey s).diag = s.diag := rfl
@[simp] theorem clearKey_resp (s : State) : (clearKey s).resp = s.resp := rfl
@[simp] theorem clearKey_draws (s : State) : (clearKey s).draws = s.draws := rfl
@[simp] theorem clearKey_events (s : State) : (clearKey s).events = s.events := rfl

@[simp] theorem clearKeyIf_config (b : Bool) (s : State) : (clearKeyIf b s).config = s.config := by cases b <;> rfl
@[simp] theorem clearKeyIf_phase (b : Bool) (s : State) : (clearKeyIf b s).phase = s.phase := by cases b <;> rfl
@[simp] theorem clearKeyIf_stage (b : Bool) (s : State) : (clearKeyIf b s).stage = s.stage := by cases b <;> rfl
@[simp] theorem clearKeyIf_done (b : Bool) (s : State) : (clearKeyIf b s).done = s.done := by cases b <;> rfl
@[simp] theorem clearKeyIf_err (b : Bool) (s : State) : (clearKeyIf b s).err = s.err := by cases b <;> rfl
@[simp] theorem clearKeyIf_keyWr (b : Bool) (s : State) : (clearKeyIf b s).keyWr = if b then 0 else s.keyWr := by cases b <;> rfl
@[simp] theorem clearKeyIf_errcode (b : Bool) (s : State) : (clearKeyIf b s).errcode = s.errcode := by cases b <;> rfl
@[simp] theorem clearKeyIf_wrIgn (b : Bool) (s : State) : (clearKeyIf b s).wrIgn = s.wrIgn := by cases b <;> rfl
@[simp] theorem clearKeyIf_lastOp (b : Bool) (s : State) : (clearKeyIf b s).lastOp = s.lastOp := by cases b <;> rfl
@[simp] theorem clearKeyIf_irqEn (b : Bool) (s : State) : (clearKeyIf b s).irqEn = s.irqEn := by cases b <;> rfl
@[simp] theorem clearKeyIf_inLen (b : Bool) (s : State) : (clearKeyIf b s).inLen = s.inLen := by cases b <;> rfl
@[simp] theorem clearKeyIf_outLen (b : Bool) (s : State) : (clearKeyIf b s).outLen = s.outLen := by cases b <;> rfl
@[simp] theorem clearKeyIf_key (b : Bool) (s : State) : (clearKeyIf b s).key = if b then Quad.zero else s.key := by cases b <;> rfl
@[simp] theorem clearKeyIf_iv (b : Bool) (s : State) : (clearKeyIf b s).iv = s.iv := by cases b <;> rfl
@[simp] theorem clearKeyIf_mem (b : Bool) (s : State) : (clearKeyIf b s).mem = s.mem := by cases b <;> rfl
@[simp] theorem clearKeyIf_ibufDraw (b : Bool) (s : State) : (clearKeyIf b s).ibufDraw = s.ibufDraw := by cases b <;> rfl
@[simp] theorem clearKeyIf_obufDraw (b : Bool) (s : State) : (clearKeyIf b s).obufDraw = s.obufDraw := by cases b <;> rfl
@[simp] theorem clearKeyIf_scratch (b : Bool) (s : State) : (clearKeyIf b s).scratch = s.scratch := by cases b <;> rfl
@[simp] theorem clearKeyIf_request (b : Bool) (s : State) : (clearKeyIf b s).request = s.request := by cases b <;> rfl
@[simp] theorem clearKeyIf_nextTag (b : Bool) (s : State) : (clearKeyIf b s).nextTag = s.nextTag := by cases b <;> rfl
@[simp] theorem clearKeyIf_diag (b : Bool) (s : State) : (clearKeyIf b s).diag = s.diag := by cases b <;> rfl
@[simp] theorem clearKeyIf_resp (b : Bool) (s : State) : (clearKeyIf b s).resp = s.resp := by cases b <;> rfl
@[simp] theorem clearKeyIf_draws (b : Bool) (s : State) : (clearKeyIf b s).draws = s.draws := by cases b <;> rfl
@[simp] theorem clearKeyIf_events (b : Bool) (s : State) : (clearKeyIf b s).events = s.events := by cases b <;> rfl

@[simp] theorem writeIv_config (iv : Option (List Byte)) (s : State) : (writeIv iv s).config = s.config := by cases iv <;> rfl
@[simp] theorem writeIv_phase (iv : Option (List Byte)) (s : State) : (writeIv iv s).phase = s.phase := by cases iv <;> rfl
@[simp] theorem writeIv_stage (iv : Option (List Byte)) (s : State) : (writeIv iv s).stage = s.stage := by cases iv <;> rfl
@[simp] theorem writeIv_done (iv : Option (List Byte)) (s : State) : (writeIv iv s).done = s.done := by cases iv <;> rfl
@[simp] theorem writeIv_err (iv : Option (List Byte)) (s : State) : (writeIv iv s).err = s.err := by cases iv <;> rfl
@[simp] theorem writeIv_keyWr (iv : Option (List Byte)) (s : State) : (writeIv iv s).keyWr = s.keyWr := by cases iv <;> rfl
@[simp] theorem writeIv_errcode (iv : Option (List Byte)) (s : State) : (writeIv iv s).errcode = s.errcode := by cases iv <;> rfl
@[simp] theorem writeIv_wrIgn (iv : Option (List Byte)) (s : State) : (writeIv iv s).wrIgn = s.wrIgn := by cases iv <;> rfl
@[simp] theorem writeIv_lastOp (iv : Option (List Byte)) (s : State) : (writeIv iv s).lastOp = s.lastOp := by cases iv <;> rfl
@[simp] theorem writeIv_irqEn (iv : Option (List Byte)) (s : State) : (writeIv iv s).irqEn = s.irqEn := by cases iv <;> rfl
@[simp] theorem writeIv_inLen (iv : Option (List Byte)) (s : State) : (writeIv iv s).inLen = s.inLen := by cases iv <;> rfl
@[simp] theorem writeIv_outLen (iv : Option (List Byte)) (s : State) : (writeIv iv s).outLen = s.outLen := by cases iv <;> rfl
@[simp] theorem writeIv_key (iv : Option (List Byte)) (s : State) : (writeIv iv s).key = s.key := by cases iv <;> rfl
@[simp] theorem writeIv_iv (iv : Option (List Byte)) (s : State) : (writeIv iv s).iv = iv.elim s.iv Quad.ofBytes := by cases iv <;> rfl
@[simp] theorem writeIv_mem (iv : Option (List Byte)) (s : State) : (writeIv iv s).mem = s.mem := by cases iv <;> rfl
@[simp] theorem writeIv_ibufDraw (iv : Option (List Byte)) (s : State) : (writeIv iv s).ibufDraw = s.ibufDraw := by cases iv <;> rfl
@[simp] theorem writeIv_obufDraw (iv : Option (List Byte)) (s : State) : (writeIv iv s).obufDraw = s.obufDraw := by cases iv <;> rfl
@[simp] theorem writeIv_scratch (iv : Option (List Byte)) (s : State) : (writeIv iv s).scratch = s.scratch := by cases iv <;> rfl
@[simp] theorem writeIv_request (iv : Option (List Byte)) (s : State) : (writeIv iv s).request = s.request := by cases iv <;> rfl
@[simp] theorem writeIv_nextTag (iv : Option (List Byte)) (s : State) : (writeIv iv s).nextTag = s.nextTag := by cases iv <;> rfl
@[simp] theorem writeIv_diag (iv : Option (List Byte)) (s : State) : (writeIv iv s).diag = s.diag := by cases iv <;> rfl
@[simp] theorem writeIv_resp (iv : Option (List Byte)) (s : State) : (writeIv iv s).resp = s.resp := by cases iv <;> rfl
@[simp] theorem writeIv_draws (iv : Option (List Byte)) (s : State) : (writeIv iv s).draws = s.draws := by cases iv <;> rfl
@[simp] theorem writeIv_events (iv : Option (List Byte)) (s : State) : (writeIv iv s).events = s.events := by cases iv <;> rfl

@[simp] theorem emitDiag_config (e : DiagEvent) (s : State) : (emitDiag e s).config = s.config := rfl
@[simp] theorem emitDiag_phase (e : DiagEvent) (s : State) : (emitDiag e s).phase = s.phase := rfl
@[simp] theorem emitDiag_stage (e : DiagEvent) (s : State) : (emitDiag e s).stage = s.stage := rfl
@[simp] theorem emitDiag_done (e : DiagEvent) (s : State) : (emitDiag e s).done = s.done := rfl
@[simp] theorem emitDiag_err (e : DiagEvent) (s : State) : (emitDiag e s).err = s.err := rfl
@[simp] theorem emitDiag_keyWr (e : DiagEvent) (s : State) : (emitDiag e s).keyWr = s.keyWr := rfl
@[simp] theorem emitDiag_errcode (e : DiagEvent) (s : State) : (emitDiag e s).errcode = s.errcode := rfl
@[simp] theorem emitDiag_wrIgn (e : DiagEvent) (s : State) : (emitDiag e s).wrIgn = s.wrIgn := rfl
@[simp] theorem emitDiag_lastOp (e : DiagEvent) (s : State) : (emitDiag e s).lastOp = s.lastOp := rfl
@[simp] theorem emitDiag_irqEn (e : DiagEvent) (s : State) : (emitDiag e s).irqEn = s.irqEn := rfl
@[simp] theorem emitDiag_inLen (e : DiagEvent) (s : State) : (emitDiag e s).inLen = s.inLen := rfl
@[simp] theorem emitDiag_outLen (e : DiagEvent) (s : State) : (emitDiag e s).outLen = s.outLen := rfl
@[simp] theorem emitDiag_key (e : DiagEvent) (s : State) : (emitDiag e s).key = s.key := rfl
@[simp] theorem emitDiag_iv (e : DiagEvent) (s : State) : (emitDiag e s).iv = s.iv := rfl
@[simp] theorem emitDiag_mem (e : DiagEvent) (s : State) : (emitDiag e s).mem = s.mem := rfl
@[simp] theorem emitDiag_ibufDraw (e : DiagEvent) (s : State) : (emitDiag e s).ibufDraw = s.ibufDraw := rfl
@[simp] theorem emitDiag_obufDraw (e : DiagEvent) (s : State) : (emitDiag e s).obufDraw = s.obufDraw := rfl
@[simp] theorem emitDiag_scratch (e : DiagEvent) (s : State) : (emitDiag e s).scratch = s.scratch := rfl
@[simp] theorem emitDiag_request (e : DiagEvent) (s : State) : (emitDiag e s).request = s.request := rfl
@[simp] theorem emitDiag_nextTag (e : DiagEvent) (s : State) : (emitDiag e s).nextTag = s.nextTag := rfl
@[simp] theorem emitDiag_diag (e : DiagEvent) (s : State) : (emitDiag e s).diag = s.diag ++ [e] := rfl
@[simp] theorem emitDiag_resp (e : DiagEvent) (s : State) : (emitDiag e s).resp = s.resp := rfl
@[simp] theorem emitDiag_draws (e : DiagEvent) (s : State) : (emitDiag e s).draws = s.draws := rfl
@[simp] theorem emitDiag_events (e : DiagEvent) (s : State) : (emitDiag e s).events = s.events := rfl

@[simp] theorem emitNoticeIf_config (b : Bool) (s : State) : (emitNoticeIf b s).config = s.config := by cases b <;> rfl
@[simp] theorem emitNoticeIf_phase (b : Bool) (s : State) : (emitNoticeIf b s).phase = s.phase := by cases b <;> rfl
@[simp] theorem emitNoticeIf_stage (b : Bool) (s : State) : (emitNoticeIf b s).stage = s.stage := by cases b <;> rfl
@[simp] theorem emitNoticeIf_done (b : Bool) (s : State) : (emitNoticeIf b s).done = s.done := by cases b <;> rfl
@[simp] theorem emitNoticeIf_err (b : Bool) (s : State) : (emitNoticeIf b s).err = s.err := by cases b <;> rfl
@[simp] theorem emitNoticeIf_keyWr (b : Bool) (s : State) : (emitNoticeIf b s).keyWr = s.keyWr := by cases b <;> rfl
@[simp] theorem emitNoticeIf_errcode (b : Bool) (s : State) : (emitNoticeIf b s).errcode = s.errcode := by cases b <;> rfl
@[simp] theorem emitNoticeIf_wrIgn (b : Bool) (s : State) : (emitNoticeIf b s).wrIgn = s.wrIgn := by cases b <;> rfl
@[simp] theorem emitNoticeIf_lastOp (b : Bool) (s : State) : (emitNoticeIf b s).lastOp = s.lastOp := by cases b <;> rfl
@[simp] theorem emitNoticeIf_irqEn (b : Bool) (s : State) : (emitNoticeIf b s).irqEn = s.irqEn := by cases b <;> rfl
@[simp] theorem emitNoticeIf_inLen (b : Bool) (s : State) : (emitNoticeIf b s).inLen = s.inLen := by cases b <;> rfl
@[simp] theorem emitNoticeIf_outLen (b : Bool) (s : State) : (emitNoticeIf b s).outLen = s.outLen := by cases b <;> rfl
@[simp] theorem emitNoticeIf_key (b : Bool) (s : State) : (emitNoticeIf b s).key = s.key := by cases b <;> rfl
@[simp] theorem emitNoticeIf_iv (b : Bool) (s : State) : (emitNoticeIf b s).iv = s.iv := by cases b <;> rfl
@[simp] theorem emitNoticeIf_mem (b : Bool) (s : State) : (emitNoticeIf b s).mem = s.mem := by cases b <;> rfl
@[simp] theorem emitNoticeIf_ibufDraw (b : Bool) (s : State) : (emitNoticeIf b s).ibufDraw = s.ibufDraw := by cases b <;> rfl
@[simp] theorem emitNoticeIf_obufDraw (b : Bool) (s : State) : (emitNoticeIf b s).obufDraw = s.obufDraw := by cases b <;> rfl
@[simp] theorem emitNoticeIf_scratch (b : Bool) (s : State) : (emitNoticeIf b s).scratch = s.scratch := by cases b <;> rfl
@[simp] theorem emitNoticeIf_request (b : Bool) (s : State) : (emitNoticeIf b s).request = s.request := by cases b <;> rfl
@[simp] theorem emitNoticeIf_nextTag (b : Bool) (s : State) : (emitNoticeIf b s).nextTag = s.nextTag := by cases b <;> rfl
@[simp] theorem emitNoticeIf_diag (b : Bool) (s : State) :
    (emitNoticeIf b s).diag = s.diag ++ (if b then [{ sev := .notice, code := 0, count := s.outLen }] else []) := by cases b <;> simp [emitNoticeIf]
@[simp] theorem emitNoticeIf_resp (b : Bool) (s : State) : (emitNoticeIf b s).resp = s.resp := by cases b <;> rfl
@[simp] theorem emitNoticeIf_draws (b : Bool) (s : State) : (emitNoticeIf b s).draws = s.draws := by cases b <;> rfl
@[simp] theorem emitNoticeIf_events (b : Bool) (s : State) : (emitNoticeIf b s).events = s.events := by cases b <;> rfl

@[simp] theorem toIdle_config (s : State) : (toIdle s).config = s.config := rfl
@[simp] theorem toIdle_phase (s : State) : (toIdle s).phase = .idle := rfl
@[simp] theorem toIdle_stage (s : State) : (toIdle s).stage = .fresh := rfl
@[simp] theorem toIdle_done (s : State) : (toIdle s).done = s.done := rfl
@[simp] theorem toIdle_err (s : State) : (toIdle s).err = s.err := rfl
@[simp] theorem toIdle_keyWr (s : State) : (toIdle s).keyWr = s.keyWr := rfl
@[simp] theorem toIdle_errcode (s : State) : (toIdle s).errcode = s.errcode := rfl
@[simp] theorem toIdle_wrIgn (s : State) : (toIdle s).wrIgn = s.wrIgn := rfl
@[simp] theorem toIdle_lastOp (s : State) : (toIdle s).lastOp = s.lastOp := rfl
@[simp] theorem toIdle_irqEn (s : State) : (toIdle s).irqEn = s.irqEn := rfl
@[simp] theorem toIdle_inLen (s : State) : (toIdle s).inLen = s.inLen := rfl
@[simp] theorem toIdle_outLen (s : State) : (toIdle s).outLen = s.outLen := rfl
@[simp] theorem toIdle_key (s : State) : (toIdle s).key = s.key := rfl
@[simp] theorem toIdle_iv (s : State) : (toIdle s).iv = s.iv := rfl
@[simp] theorem toIdle_mem (s : State) : (toIdle s).mem = s.mem := rfl
@[simp] theorem toIdle_ibufDraw (s : State) : (toIdle s).ibufDraw = s.ibufDraw := rfl
@[simp] theorem toIdle_obufDraw (s : State) : (toIdle s).obufDraw = s.obufDraw := rfl
@[simp] theorem toIdle_scratch (s : State) : (toIdle s).scratch = Scratch.unspecified := rfl
@[simp] theorem toIdle_request (s : State) : (toIdle s).request = none := rfl
@[simp] theorem toIdle_nextTag (s : State) : (toIdle s).nextTag = s.nextTag := rfl
@[simp] theorem toIdle_diag (s : State) : (toIdle s).diag = s.diag := rfl
@[simp] theorem toIdle_resp (s : State) : (toIdle s).resp = s.resp := rfl
@[simp] theorem toIdle_draws (s : State) : (toIdle s).draws = s.draws := rfl
@[simp] theorem toIdle_events (s : State) : (toIdle s).events = s.events := rfl

@[simp] theorem startCommand_config (v : Word) (s : State) : (startCommand v s).config = s.config := rfl
@[simp] theorem startCommand_phase (v : Word) (s : State) : (startCommand v s).phase = .busy v := rfl
@[simp] theorem startCommand_stage (v : Word) (s : State) : (startCommand v s).stage = .fresh := rfl
@[simp] theorem startCommand_done (v : Word) (s : State) : (startCommand v s).done = false := rfl
@[simp] theorem startCommand_err (v : Word) (s : State) : (startCommand v s).err = false := rfl
@[simp] theorem startCommand_keyWr (v : Word) (s : State) : (startCommand v s).keyWr = s.keyWr := rfl
@[simp] theorem startCommand_errcode (v : Word) (s : State) : (startCommand v s).errcode = 0 := rfl
@[simp] theorem startCommand_wrIgn (v : Word) (s : State) : (startCommand v s).wrIgn = s.wrIgn := rfl
@[simp] theorem startCommand_lastOp (v : Word) (s : State) : (startCommand v s).lastOp = cmdOp v := rfl
@[simp] theorem startCommand_irqEn (v : Word) (s : State) : (startCommand v s).irqEn = s.irqEn := rfl
@[simp] theorem startCommand_inLen (v : Word) (s : State) : (startCommand v s).inLen = s.inLen := rfl
@[simp] theorem startCommand_outLen (v : Word) (s : State) : (startCommand v s).outLen = s.outLen := rfl
@[simp] theorem startCommand_key (v : Word) (s : State) : (startCommand v s).key = s.key := rfl
@[simp] theorem startCommand_iv (v : Word) (s : State) : (startCommand v s).iv = s.iv := rfl
@[simp] theorem startCommand_mem (v : Word) (s : State) : (startCommand v s).mem = s.mem := rfl
@[simp] theorem startCommand_ibufDraw (v : Word) (s : State) : (startCommand v s).ibufDraw = s.ibufDraw := rfl
@[simp] theorem startCommand_obufDraw (v : Word) (s : State) : (startCommand v s).obufDraw = s.obufDraw := rfl
@[simp] theorem startCommand_scratch (v : Word) (s : State) : (startCommand v s).scratch = s.scratch := rfl
@[simp] theorem startCommand_request (v : Word) (s : State) : (startCommand v s).request = s.request := rfl
@[simp] theorem startCommand_nextTag (v : Word) (s : State) : (startCommand v s).nextTag = s.nextTag := rfl
@[simp] theorem startCommand_diag (v : Word) (s : State) : (startCommand v s).diag = s.diag := rfl
@[simp] theorem startCommand_resp (v : Word) (s : State) : (startCommand v s).resp = s.resp := rfl
@[simp] theorem startCommand_draws (v : Word) (s : State) : (startCommand v s).draws = s.draws := rfl
@[simp] theorem startCommand_events (v : Word) (s : State) : (startCommand v s).events = s.events := rfl

@[simp] theorem requestEntropy_config (p : Purpose) (n : Nat) (s : State) : (requestEntropy p n s).config = s.config := rfl
@[simp] theorem requestEntropy_phase (p : Purpose) (n : Nat) (s : State) : (requestEntropy p n s).phase = s.phase := rfl
@[simp] theorem requestEntropy_stage (p : Purpose) (n : Nat) (s : State) : (requestEntropy p n s).stage = s.stage := rfl
@[simp] theorem requestEntropy_done (p : Purpose) (n : Nat) (s : State) : (requestEntropy p n s).done = s.done := rfl
@[simp] theorem requestEntropy_err (p : Purpose) (n : Nat) (s : State) : (requestEntropy p n s).err = s.err := rfl
@[simp] theorem requestEntropy_keyWr (p : Purpose) (n : Nat) (s : State) : (requestEntropy p n s).keyWr = s.keyWr := rfl
@[simp] theorem requestEntropy_errcode (p : Purpose) (n : Nat) (s : State) : (requestEntropy p n s).errcode = s.errcode := rfl
@[simp] theorem requestEntropy_wrIgn (p : Purpose) (n : Nat) (s : State) : (requestEntropy p n s).wrIgn = s.wrIgn := rfl
@[simp] theorem requestEntropy_lastOp (p : Purpose) (n : Nat) (s : State) : (requestEntropy p n s).lastOp = s.lastOp := rfl
@[simp] theorem requestEntropy_irqEn (p : Purpose) (n : Nat) (s : State) : (requestEntropy p n s).irqEn = s.irqEn := rfl
@[simp] theorem requestEntropy_inLen (p : Purpose) (n : Nat) (s : State) : (requestEntropy p n s).inLen = s.inLen := rfl
@[simp] theorem requestEntropy_outLen (p : Purpose) (n : Nat) (s : State) : (requestEntropy p n s).outLen = s.outLen := rfl
@[simp] theorem requestEntropy_key (p : Purpose) (n : Nat) (s : State) : (requestEntropy p n s).key = s.key := rfl
@[simp] theorem requestEntropy_iv (p : Purpose) (n : Nat) (s : State) : (requestEntropy p n s).iv = s.iv := rfl
@[simp] theorem requestEntropy_mem (p : Purpose) (n : Nat) (s : State) : (requestEntropy p n s).mem = s.mem := rfl
@[simp] theorem requestEntropy_ibufDraw (p : Purpose) (n : Nat) (s : State) : (requestEntropy p n s).ibufDraw = s.ibufDraw := rfl
@[simp] theorem requestEntropy_obufDraw (p : Purpose) (n : Nat) (s : State) : (requestEntropy p n s).obufDraw = s.obufDraw := rfl
@[simp] theorem requestEntropy_scratch (p : Purpose) (n : Nat) (s : State) : (requestEntropy p n s).scratch = s.scratch := rfl
@[simp] theorem requestEntropy_request (p : Purpose) (n : Nat) (s : State) :
    (requestEntropy p n s).request = some { tag := s.nextTag, size := n, purpose := p } := rfl
@[simp] theorem requestEntropy_nextTag (p : Purpose) (n : Nat) (s : State) : (requestEntropy p n s).nextTag = s.nextTag + 1 := rfl
@[simp] theorem requestEntropy_diag (p : Purpose) (n : Nat) (s : State) : (requestEntropy p n s).diag = s.diag := rfl
@[simp] theorem requestEntropy_resp (p : Purpose) (n : Nat) (s : State) : (requestEntropy p n s).resp = s.resp := rfl
@[simp] theorem requestEntropy_draws (p : Purpose) (n : Nat) (s : State) : (requestEntropy p n s).draws = s.draws := rfl
@[simp] theorem requestEntropy_events (p : Purpose) (n : Nat) (s : State) : (requestEntropy p n s).events = s.events := rfl

@[simp] theorem successCompletion_config (i : Instr) (out : List Byte) (nul : Bool) (iv : Option (List Byte)) (s : State) : (successCompletion i out nul iv s).config = s.config := by simp [successCompletion]
@[simp] theorem successCompletion_phase (i : Instr) (out : List Byte) (nul : Bool) (iv : Option (List Byte)) (s : State) : (successCompletion i out nul iv s).phase = .idle := by simp [successCompletion]
@[simp] theorem successCompletion_stage (i : Instr) (out : List Byte) (nul : Bool) (iv : Option (List Byte)) (s : State) : (successCompletion i out nul iv s).stage = .fresh := by simp [successCompletion]
@[simp] theorem successCompletion_done (i : Instr) (out : List Byte) (nul : Bool) (iv : Option (List Byte)) (s : State) : (successCompletion i out nul iv s).done = true := by simp [successCompletion]
@[simp] theorem successCompletion_err (i : Instr) (out : List Byte) (nul : Bool) (iv : Option (List Byte)) (s : State) : (successCompletion i out nul iv s).err = false := by simp [successCompletion]
@[simp] theorem successCompletion_keyWr (i : Instr) (out : List Byte) (nul : Bool) (iv : Option (List Byte)) (s : State) : (successCompletion i out nul iv s).keyWr = if keyUsing i then 0 else s.keyWr := by simp [successCompletion]
@[simp] theorem successCompletion_errcode (i : Instr) (out : List Byte) (nul : Bool) (iv : Option (List Byte)) (s : State) : (successCompletion i out nul iv s).errcode = 0 := by simp [successCompletion]
@[simp] theorem successCompletion_wrIgn (i : Instr) (out : List Byte) (nul : Bool) (iv : Option (List Byte)) (s : State) : (successCompletion i out nul iv s).wrIgn = s.wrIgn := by simp [successCompletion]
@[simp] theorem successCompletion_lastOp (i : Instr) (out : List Byte) (nul : Bool) (iv : Option (List Byte)) (s : State) : (successCompletion i out nul iv s).lastOp = s.lastOp := by simp [successCompletion]
@[simp] theorem successCompletion_irqEn (i : Instr) (out : List Byte) (nul : Bool) (iv : Option (List Byte)) (s : State) : (successCompletion i out nul iv s).irqEn = s.irqEn := by simp [successCompletion]
@[simp] theorem successCompletion_inLen (i : Instr) (out : List Byte) (nul : Bool) (iv : Option (List Byte)) (s : State) : (successCompletion i out nul iv s).inLen = s.inLen := by simp [successCompletion]
@[simp] theorem successCompletion_outLen (i : Instr) (out : List Byte) (nul : Bool) (iv : Option (List Byte)) (s : State) : (successCompletion i out nul iv s).outLen = BitVec.ofNat 32 out.length := by simp [successCompletion]
@[simp] theorem successCompletion_key (i : Instr) (out : List Byte) (nul : Bool) (iv : Option (List Byte)) (s : State) : (successCompletion i out nul iv s).key = if keyUsing i then Quad.zero else s.key := by simp [successCompletion]
@[simp] theorem successCompletion_iv (i : Instr) (out : List Byte) (nul : Bool) (iv : Option (List Byte)) (s : State) : (successCompletion i out nul iv s).iv = iv.elim s.iv Quad.ofBytes := by simp [successCompletion]
@[simp] theorem successCompletion_mem (i : Instr) (out : List Byte) (nul : Bool) (iv : Option (List Byte)) (s : State) :
    (successCompletion i out nul iv s).mem = s.mem.setBytes obufBase (resultBytes out nul) := by simp [successCompletion]
@[simp] theorem successCompletion_ibufDraw (i : Instr) (out : List Byte) (nul : Bool) (iv : Option (List Byte)) (s : State) : (successCompletion i out nul iv s).ibufDraw = s.ibufDraw := by simp [successCompletion]
@[simp] theorem successCompletion_obufDraw (i : Instr) (out : List Byte) (nul : Bool) (iv : Option (List Byte)) (s : State) : (successCompletion i out nul iv s).obufDraw = s.obufDraw := by simp [successCompletion]
@[simp] theorem successCompletion_scratch (i : Instr) (out : List Byte) (nul : Bool) (iv : Option (List Byte)) (s : State) : (successCompletion i out nul iv s).scratch = Scratch.unspecified := by simp [successCompletion]
@[simp] theorem successCompletion_request (i : Instr) (out : List Byte) (nul : Bool) (iv : Option (List Byte)) (s : State) : (successCompletion i out nul iv s).request = none := by simp [successCompletion]
@[simp] theorem successCompletion_nextTag (i : Instr) (out : List Byte) (nul : Bool) (iv : Option (List Byte)) (s : State) : (successCompletion i out nul iv s).nextTag = s.nextTag := by simp [successCompletion]
@[simp] theorem successCompletion_diag (i : Instr) (out : List Byte) (nul : Bool) (iv : Option (List Byte)) (s : State) :
    (successCompletion i out nul iv s).diag = s.diag ++ (if noticesSuccess i then [{ sev := .notice, code := 0, count := BitVec.ofNat 32 out.length }] else []) := by simp [successCompletion]
@[simp] theorem successCompletion_resp (i : Instr) (out : List Byte) (nul : Bool) (iv : Option (List Byte)) (s : State) : (successCompletion i out nul iv s).resp = s.resp := by simp [successCompletion]
@[simp] theorem successCompletion_draws (i : Instr) (out : List Byte) (nul : Bool) (iv : Option (List Byte)) (s : State) : (successCompletion i out nul iv s).draws = s.draws := by simp [successCompletion]
@[simp] theorem successCompletion_events (i : Instr) (out : List Byte) (nul : Bool) (iv : Option (List Byte)) (s : State) : (successCompletion i out nul iv s).events = s.events := by simp [successCompletion]

@[simp] theorem failCompletion_config (b : Bool) (code : ErrorCode) (iv : Option (List Byte)) (s : State) : (failCompletion b code iv s).config = s.config := by simp [failCompletion]
@[simp] theorem failCompletion_phase (b : Bool) (code : ErrorCode) (iv : Option (List Byte)) (s : State) : (failCompletion b code iv s).phase = .idle := by simp [failCompletion]
@[simp] theorem failCompletion_stage (b : Bool) (code : ErrorCode) (iv : Option (List Byte)) (s : State) : (failCompletion b code iv s).stage = .fresh := by simp [failCompletion]
@[simp] theorem failCompletion_done (b : Bool) (code : ErrorCode) (iv : Option (List Byte)) (s : State) : (failCompletion b code iv s).done = true := by simp [failCompletion]
@[simp] theorem failCompletion_err (b : Bool) (code : ErrorCode) (iv : Option (List Byte)) (s : State) : (failCompletion b code iv s).err = true := by simp [failCompletion]
@[simp] theorem failCompletion_keyWr (b : Bool) (code : ErrorCode) (iv : Option (List Byte)) (s : State) : (failCompletion b code iv s).keyWr = if b then 0 else s.keyWr := by simp [failCompletion]
@[simp] theorem failCompletion_errcode (b : Bool) (code : ErrorCode) (iv : Option (List Byte)) (s : State) : (failCompletion b code iv s).errcode = errorNumber code := by simp [failCompletion]
@[simp] theorem failCompletion_wrIgn (b : Bool) (code : ErrorCode) (iv : Option (List Byte)) (s : State) : (failCompletion b code iv s).wrIgn = s.wrIgn := by simp [failCompletion]
@[simp] theorem failCompletion_lastOp (b : Bool) (code : ErrorCode) (iv : Option (List Byte)) (s : State) : (failCompletion b code iv s).lastOp = s.lastOp := by simp [failCompletion]
@[simp] theorem failCompletion_irqEn (b : Bool) (code : ErrorCode) (iv : Option (List Byte)) (s : State) : (failCompletion b code iv s).irqEn = s.irqEn := by simp [failCompletion]
@[simp] theorem failCompletion_inLen (b : Bool) (code : ErrorCode) (iv : Option (List Byte)) (s : State) : (failCompletion b code iv s).inLen = s.inLen := by simp [failCompletion]
@[simp] theorem failCompletion_outLen (b : Bool) (code : ErrorCode) (iv : Option (List Byte)) (s : State) : (failCompletion b code iv s).outLen = 0 := by simp [failCompletion]
@[simp] theorem failCompletion_key (b : Bool) (code : ErrorCode) (iv : Option (List Byte)) (s : State) : (failCompletion b code iv s).key = if b then Quad.zero else s.key := by simp [failCompletion]
@[simp] theorem failCompletion_iv (b : Bool) (code : ErrorCode) (iv : Option (List Byte)) (s : State) : (failCompletion b code iv s).iv = iv.elim s.iv Quad.ofBytes := by simp [failCompletion]
@[simp] theorem failCompletion_mem (b : Bool) (code : ErrorCode) (iv : Option (List Byte)) (s : State) : (failCompletion b code iv s).mem = s.mem.below obufBase := by simp [failCompletion]
@[simp] theorem failCompletion_ibufDraw (b : Bool) (code : ErrorCode) (iv : Option (List Byte)) (s : State) : (failCompletion b code iv s).ibufDraw = s.ibufDraw := by simp [failCompletion]
@[simp] theorem failCompletion_obufDraw (b : Bool) (code : ErrorCode) (iv : Option (List Byte)) (s : State) : (failCompletion b code iv s).obufDraw = s.draws := by simp [failCompletion]
@[simp] theorem failCompletion_scratch (b : Bool) (code : ErrorCode) (iv : Option (List Byte)) (s : State) : (failCompletion b code iv s).scratch = Scratch.unspecified := by simp [failCompletion]
@[simp] theorem failCompletion_request (b : Bool) (code : ErrorCode) (iv : Option (List Byte)) (s : State) : (failCompletion b code iv s).request = none := by simp [failCompletion]
@[simp] theorem failCompletion_nextTag (b : Bool) (code : ErrorCode) (iv : Option (List Byte)) (s : State) : (failCompletion b code iv s).nextTag = s.nextTag := by simp [failCompletion]
@[simp] theorem failCompletion_diag (b : Bool) (code : ErrorCode) (iv : Option (List Byte)) (s : State) :
    (failCompletion b code iv s).diag = s.diag ++ [{ sev := .error, code := errorNumber code, count := 0 }] := by simp [failCompletion]
@[simp] theorem failCompletion_resp (b : Bool) (code : ErrorCode) (iv : Option (List Byte)) (s : State) : (failCompletion b code iv s).resp = s.resp := by simp [failCompletion]
@[simp] theorem failCompletion_draws (b : Bool) (code : ErrorCode) (iv : Option (List Byte)) (s : State) : (failCompletion b code iv s).draws = s.draws + 1 := by simp [failCompletion]
@[simp] theorem failCompletion_events (b : Bool) (code : ErrorCode) (iv : Option (List Byte)) (s : State) : (failCompletion b code iv s).events = s.events := by simp [failCompletion]

@[simp] theorem enterReset_config (s : State) : (enterReset s).config = s.config := rfl
@[simp] theorem enterReset_phase (s : State) : (enterReset s).phase = .idle := rfl
@[simp] theorem enterReset_stage (s : State) : (enterReset s).stage = .fresh := rfl
@[simp] theorem enterReset_done (s : State) : (enterReset s).done = false := rfl
@[simp] theorem enterReset_err (s : State) : (enterReset s).err = false := rfl
@[simp] theorem enterReset_keyWr (s : State) : (enterReset s).keyWr = 0 := rfl
@[simp] theorem enterReset_errcode (s : State) : (enterReset s).errcode = 0 := rfl
@[simp] theorem enterReset_wrIgn (s : State) : (enterReset s).wrIgn = false := rfl
@[simp] theorem enterReset_lastOp (s : State) : (enterReset s).lastOp = 0 := rfl
@[simp] theorem enterReset_irqEn (s : State) : (enterReset s).irqEn = false := rfl
@[simp] theorem enterReset_inLen (s : State) : (enterReset s).inLen = 0 := rfl
@[simp] theorem enterReset_outLen (s : State) : (enterReset s).outLen = 0 := rfl
@[simp] theorem enterReset_key (s : State) : (enterReset s).key = Quad.zero := rfl
@[simp] theorem enterReset_iv (s : State) : (enterReset s).iv = Quad.zero := rfl
@[simp] theorem enterReset_mem (s : State) : (enterReset s).mem = [] := rfl
@[simp] theorem enterReset_ibufDraw (s : State) : (enterReset s).ibufDraw = s.draws := rfl
@[simp] theorem enterReset_obufDraw (s : State) : (enterReset s).obufDraw = s.draws := rfl
@[simp] theorem enterReset_scratch (s : State) : (enterReset s).scratch = Scratch.unspecified := rfl
@[simp] theorem enterReset_request (s : State) : (enterReset s).request = none := rfl
@[simp] theorem enterReset_nextTag (s : State) : (enterReset s).nextTag = s.nextTag := rfl
@[simp] theorem enterReset_diag (s : State) : (enterReset s).diag = s.diag := rfl
@[simp] theorem enterReset_resp (s : State) : (enterReset s).resp = s.resp := rfl
@[simp] theorem enterReset_draws (s : State) : (enterReset s).draws = s.draws + 1 := rfl
@[simp] theorem enterReset_events (s : State) : (enterReset s).events = s.events := rfl

@[simp] theorem sinkMove_config (s : State) : (sinkMove s).config = s.config := rfl
@[simp] theorem sinkMove_phase (s : State) : (sinkMove s).phase = s.phase := rfl
@[simp] theorem sinkMove_stage (s : State) : (sinkMove s).stage = s.stage := rfl
@[simp] theorem sinkMove_done (s : State) : (sinkMove s).done = s.done := rfl
@[simp] theorem sinkMove_err (s : State) : (sinkMove s).err = s.err := rfl
@[simp] theorem sinkMove_keyWr (s : State) : (sinkMove s).keyWr = s.keyWr := rfl
@[simp] theorem sinkMove_errcode (s : State) : (sinkMove s).errcode = s.errcode := rfl
@[simp] theorem sinkMove_wrIgn (s : State) : (sinkMove s).wrIgn = s.wrIgn := rfl
@[simp] theorem sinkMove_lastOp (s : State) : (sinkMove s).lastOp = s.lastOp := rfl
@[simp] theorem sinkMove_irqEn (s : State) : (sinkMove s).irqEn = s.irqEn := rfl
@[simp] theorem sinkMove_inLen (s : State) : (sinkMove s).inLen = s.inLen := rfl
@[simp] theorem sinkMove_outLen (s : State) : (sinkMove s).outLen = s.outLen := rfl
@[simp] theorem sinkMove_key (s : State) : (sinkMove s).key = s.key := rfl
@[simp] theorem sinkMove_iv (s : State) : (sinkMove s).iv = s.iv := rfl
@[simp] theorem sinkMove_mem (s : State) : (sinkMove s).mem = s.mem := rfl
@[simp] theorem sinkMove_ibufDraw (s : State) : (sinkMove s).ibufDraw = s.ibufDraw := rfl
@[simp] theorem sinkMove_obufDraw (s : State) : (sinkMove s).obufDraw = s.obufDraw := rfl
@[simp] theorem sinkMove_scratch (s : State) : (sinkMove s).scratch = s.scratch := rfl
@[simp] theorem sinkMove_request (s : State) : (sinkMove s).request = s.request := rfl
@[simp] theorem sinkMove_nextTag (s : State) : (sinkMove s).nextTag = s.nextTag := rfl
@[simp] theorem sinkMove_diag (s : State) : (sinkMove s).diag = s.diag.drop 1 := rfl
@[simp] theorem sinkMove_resp (s : State) : (sinkMove s).resp = s.resp := rfl
@[simp] theorem sinkMove_draws (s : State) : (sinkMove s).draws = s.draws := rfl
@[simp] theorem sinkMove_events (s : State) : (sinkMove s).events = s.events := rfl

@[simp] theorem clearByStatusWrite_config (v : Word) (s : State) : (clearByStatusWrite v s).config = s.config := rfl
@[simp] theorem clearByStatusWrite_phase (v : Word) (s : State) : (clearByStatusWrite v s).phase = s.phase := rfl
@[simp] theorem clearByStatusWrite_stage (v : Word) (s : State) : (clearByStatusWrite v s).stage = s.stage := rfl
@[simp] theorem clearByStatusWrite_done (v : Word) (s : State) : (clearByStatusWrite v s).done = (s.done && !v.getLsbD 1) := rfl
@[simp] theorem clearByStatusWrite_err (v : Word) (s : State) : (clearByStatusWrite v s).err = (s.err && !v.getLsbD 2) := rfl
@[simp] theorem clearByStatusWrite_keyWr (v : Word) (s : State) : (clearByStatusWrite v s).keyWr = s.keyWr := rfl
@[simp] theorem clearByStatusWrite_errcode (v : Word) (s : State) : (clearByStatusWrite v s).errcode = s.errcode := rfl
@[simp] theorem clearByStatusWrite_wrIgn (v : Word) (s : State) : (clearByStatusWrite v s).wrIgn = (s.wrIgn && !v.getLsbD 12) := rfl
@[simp] theorem clearByStatusWrite_lastOp (v : Word) (s : State) : (clearByStatusWrite v s).lastOp = s.lastOp := rfl
@[simp] theorem clearByStatusWrite_irqEn (v : Word) (s : State) : (clearByStatusWrite v s).irqEn = s.irqEn := rfl
@[simp] theorem clearByStatusWrite_inLen (v : Word) (s : State) : (clearByStatusWrite v s).inLen = s.inLen := rfl
@[simp] theorem clearByStatusWrite_outLen (v : Word) (s : State) : (clearByStatusWrite v s).outLen = s.outLen := rfl
@[simp] theorem clearByStatusWrite_key (v : Word) (s : State) : (clearByStatusWrite v s).key = s.key := rfl
@[simp] theorem clearByStatusWrite_iv (v : Word) (s : State) : (clearByStatusWrite v s).iv = s.iv := rfl
@[simp] theorem clearByStatusWrite_mem (v : Word) (s : State) : (clearByStatusWrite v s).mem = s.mem := rfl
@[simp] theorem clearByStatusWrite_ibufDraw (v : Word) (s : State) : (clearByStatusWrite v s).ibufDraw = s.ibufDraw := rfl
@[simp] theorem clearByStatusWrite_obufDraw (v : Word) (s : State) : (clearByStatusWrite v s).obufDraw = s.obufDraw := rfl
@[simp] theorem clearByStatusWrite_scratch (v : Word) (s : State) : (clearByStatusWrite v s).scratch = s.scratch := rfl
@[simp] theorem clearByStatusWrite_request (v : Word) (s : State) : (clearByStatusWrite v s).request = s.request := rfl
@[simp] theorem clearByStatusWrite_nextTag (v : Word) (s : State) : (clearByStatusWrite v s).nextTag = s.nextTag := rfl
@[simp] theorem clearByStatusWrite_diag (v : Word) (s : State) : (clearByStatusWrite v s).diag = s.diag := rfl
@[simp] theorem clearByStatusWrite_resp (v : Word) (s : State) : (clearByStatusWrite v s).resp = s.resp := rfl
@[simp] theorem clearByStatusWrite_draws (v : Word) (s : State) : (clearByStatusWrite v s).draws = s.draws := rfl
@[simp] theorem clearByStatusWrite_events (v : Word) (s : State) : (clearByStatusWrite v s).events = s.events := rfl

@[simp] theorem respond_config (b : Bool) (v : Word) (s : State) : (respond b v s).config = s.config := rfl
@[simp] theorem respond_phase (b : Bool) (v : Word) (s : State) : (respond b v s).phase = s.phase := rfl
@[simp] theorem respond_stage (b : Bool) (v : Word) (s : State) : (respond b v s).stage = s.stage := rfl
@[simp] theorem respond_done (b : Bool) (v : Word) (s : State) : (respond b v s).done = s.done := rfl
@[simp] theorem respond_err (b : Bool) (v : Word) (s : State) : (respond b v s).err = s.err := rfl
@[simp] theorem respond_keyWr (b : Bool) (v : Word) (s : State) : (respond b v s).keyWr = s.keyWr := rfl
@[simp] theorem respond_errcode (b : Bool) (v : Word) (s : State) : (respond b v s).errcode = s.errcode := rfl
@[simp] theorem respond_wrIgn (b : Bool) (v : Word) (s : State) : (respond b v s).wrIgn = s.wrIgn := rfl
@[simp] theorem respond_lastOp (b : Bool) (v : Word) (s : State) : (respond b v s).lastOp = s.lastOp := rfl
@[simp] theorem respond_irqEn (b : Bool) (v : Word) (s : State) : (respond b v s).irqEn = s.irqEn := rfl
@[simp] theorem respond_inLen (b : Bool) (v : Word) (s : State) : (respond b v s).inLen = s.inLen := rfl
@[simp] theorem respond_outLen (b : Bool) (v : Word) (s : State) : (respond b v s).outLen = s.outLen := rfl
@[simp] theorem respond_key (b : Bool) (v : Word) (s : State) : (respond b v s).key = s.key := rfl
@[simp] theorem respond_iv (b : Bool) (v : Word) (s : State) : (respond b v s).iv = s.iv := rfl
@[simp] theorem respond_mem (b : Bool) (v : Word) (s : State) : (respond b v s).mem = s.mem := rfl
@[simp] theorem respond_ibufDraw (b : Bool) (v : Word) (s : State) : (respond b v s).ibufDraw = s.ibufDraw := rfl
@[simp] theorem respond_obufDraw (b : Bool) (v : Word) (s : State) : (respond b v s).obufDraw = s.obufDraw := rfl
@[simp] theorem respond_scratch (b : Bool) (v : Word) (s : State) : (respond b v s).scratch = s.scratch := rfl
@[simp] theorem respond_request (b : Bool) (v : Word) (s : State) : (respond b v s).request = s.request := rfl
@[simp] theorem respond_nextTag (b : Bool) (v : Word) (s : State) : (respond b v s).nextTag = s.nextTag := rfl
@[simp] theorem respond_diag (b : Bool) (v : Word) (s : State) : (respond b v s).diag = s.diag := rfl
@[simp] theorem respond_resp (b : Bool) (v : Word) (s : State) : (respond b v s).resp = { error := b, data := v } := rfl
@[simp] theorem respond_draws (b : Bool) (v : Word) (s : State) : (respond b v s).draws = s.draws := rfl
@[simp] theorem respond_events (b : Bool) (v : Word) (s : State) : (respond b v s).events = s.events := rfl

@[simp] theorem ignoreWrite_config (s : State) : (ignoreWrite s).config = s.config := rfl
@[simp] theorem ignoreWrite_phase (s : State) : (ignoreWrite s).phase = s.phase := rfl
@[simp] theorem ignoreWrite_stage (s : State) : (ignoreWrite s).stage = s.stage := rfl
@[simp] theorem ignoreWrite_done (s : State) : (ignoreWrite s).done = s.done := rfl
@[simp] theorem ignoreWrite_err (s : State) : (ignoreWrite s).err = s.err := rfl
@[simp] theorem ignoreWrite_keyWr (s : State) : (ignoreWrite s).keyWr = s.keyWr := rfl
@[simp] theorem ignoreWrite_errcode (s : State) : (ignoreWrite s).errcode = s.errcode := rfl
@[simp] theorem ignoreWrite_wrIgn (s : State) : (ignoreWrite s).wrIgn = true := rfl
@[simp] theorem ignoreWrite_lastOp (s : State) : (ignoreWrite s).lastOp = s.lastOp := rfl
@[simp] theorem ignoreWrite_irqEn (s : State) : (ignoreWrite s).irqEn = s.irqEn := rfl
@[simp] theorem ignoreWrite_inLen (s : State) : (ignoreWrite s).inLen = s.inLen := rfl
@[simp] theorem ignoreWrite_outLen (s : State) : (ignoreWrite s).outLen = s.outLen := rfl
@[simp] theorem ignoreWrite_key (s : State) : (ignoreWrite s).key = s.key := rfl
@[simp] theorem ignoreWrite_iv (s : State) : (ignoreWrite s).iv = s.iv := rfl
@[simp] theorem ignoreWrite_mem (s : State) : (ignoreWrite s).mem = s.mem := rfl
@[simp] theorem ignoreWrite_ibufDraw (s : State) : (ignoreWrite s).ibufDraw = s.ibufDraw := rfl
@[simp] theorem ignoreWrite_obufDraw (s : State) : (ignoreWrite s).obufDraw = s.obufDraw := rfl
@[simp] theorem ignoreWrite_scratch (s : State) : (ignoreWrite s).scratch = s.scratch := rfl
@[simp] theorem ignoreWrite_request (s : State) : (ignoreWrite s).request = s.request := rfl
@[simp] theorem ignoreWrite_nextTag (s : State) : (ignoreWrite s).nextTag = s.nextTag := rfl
@[simp] theorem ignoreWrite_diag (s : State) : (ignoreWrite s).diag = s.diag := rfl
@[simp] theorem ignoreWrite_resp (s : State) : (ignoreWrite s).resp = s.resp := rfl
@[simp] theorem ignoreWrite_draws (s : State) : (ignoreWrite s).draws = s.draws := rfl
@[simp] theorem ignoreWrite_events (s : State) : (ignoreWrite s).events = s.events := rfl

@[simp] theorem writeKey_config (k : Fin 4) (v : Word) (s : State) : (writeKey k v s).config = s.config := rfl
@[simp] theorem writeKey_phase (k : Fin 4) (v : Word) (s : State) : (writeKey k v s).phase = s.phase := rfl
@[simp] theorem writeKey_stage (k : Fin 4) (v : Word) (s : State) : (writeKey k v s).stage = s.stage := rfl
@[simp] theorem writeKey_done (k : Fin 4) (v : Word) (s : State) : (writeKey k v s).done = s.done := rfl
@[simp] theorem writeKey_err (k : Fin 4) (v : Word) (s : State) : (writeKey k v s).err = s.err := rfl
@[simp] theorem writeKey_keyWr (k : Fin 4) (v : Word) (s : State) : (writeKey k v s).keyWr = s.keyWr ||| (1#4 <<< k.val) := rfl
@[simp] theorem writeKey_errcode (k : Fin 4) (v : Word) (s : State) : (writeKey k v s).errcode = s.errcode := rfl
@[simp] theorem writeKey_wrIgn (k : Fin 4) (v : Word) (s : State) : (writeKey k v s).wrIgn = s.wrIgn := rfl
@[simp] theorem writeKey_lastOp (k : Fin 4) (v : Word) (s : State) : (writeKey k v s).lastOp = s.lastOp := rfl
@[simp] theorem writeKey_irqEn (k : Fin 4) (v : Word) (s : State) : (writeKey k v s).irqEn = s.irqEn := rfl
@[simp] theorem writeKey_inLen (k : Fin 4) (v : Word) (s : State) : (writeKey k v s).inLen = s.inLen := rfl
@[simp] theorem writeKey_outLen (k : Fin 4) (v : Word) (s : State) : (writeKey k v s).outLen = s.outLen := rfl
@[simp] theorem writeKey_key (k : Fin 4) (v : Word) (s : State) : (writeKey k v s).key = s.key.set k v := rfl
@[simp] theorem writeKey_iv (k : Fin 4) (v : Word) (s : State) : (writeKey k v s).iv = s.iv := rfl
@[simp] theorem writeKey_mem (k : Fin 4) (v : Word) (s : State) : (writeKey k v s).mem = s.mem := rfl
@[simp] theorem writeKey_ibufDraw (k : Fin 4) (v : Word) (s : State) : (writeKey k v s).ibufDraw = s.ibufDraw := rfl
@[simp] theorem writeKey_obufDraw (k : Fin 4) (v : Word) (s : State) : (writeKey k v s).obufDraw = s.obufDraw := rfl
@[simp] theorem writeKey_scratch (k : Fin 4) (v : Word) (s : State) : (writeKey k v s).scratch = s.scratch := rfl
@[simp] theorem writeKey_request (k : Fin 4) (v : Word) (s : State) : (writeKey k v s).request = s.request := rfl
@[simp] theorem writeKey_nextTag (k : Fin 4) (v : Word) (s : State) : (writeKey k v s).nextTag = s.nextTag := rfl
@[simp] theorem writeKey_diag (k : Fin 4) (v : Word) (s : State) : (writeKey k v s).diag = s.diag := rfl
@[simp] theorem writeKey_resp (k : Fin 4) (v : Word) (s : State) : (writeKey k v s).resp = s.resp := rfl
@[simp] theorem writeKey_draws (k : Fin 4) (v : Word) (s : State) : (writeKey k v s).draws = s.draws := rfl
@[simp] theorem writeKey_events (k : Fin 4) (v : Word) (s : State) : (writeKey k v s).events = s.events := rfl

@[simp] theorem withEvents_config (es : List Event) (s : State) : (s.withEvents es).config = s.config := rfl
@[simp] theorem withEvents_phase (es : List Event) (s : State) : (s.withEvents es).phase = s.phase := rfl
@[simp] theorem withEvents_stage (es : List Event) (s : State) : (s.withEvents es).stage = s.stage := rfl
@[simp] theorem withEvents_done (es : List Event) (s : State) : (s.withEvents es).done = s.done := rfl
@[simp] theorem withEvents_err (es : List Event) (s : State) : (s.withEvents es).err = s.err := rfl
@[simp] theorem withEvents_keyWr (es : List Event) (s : State) : (s.withEvents es).keyWr = s.keyWr := rfl
@[simp] theorem withEvents_errcode (es : List Event) (s : State) : (s.withEvents es).errcode = s.errcode := rfl
@[simp] theorem withEvents_wrIgn (es : List Event) (s : State) : (s.withEvents es).wrIgn = s.wrIgn := rfl
@[simp] theorem withEvents_lastOp (es : List Event) (s : State) : (s.withEvents es).lastOp = s.lastOp := rfl
@[simp] theorem withEvents_irqEn (es : List Event) (s : State) : (s.withEvents es).irqEn = s.irqEn := rfl
@[simp] theorem withEvents_inLen (es : List Event) (s : State) : (s.withEvents es).inLen = s.inLen := rfl
@[simp] theorem withEvents_outLen (es : List Event) (s : State) : (s.withEvents es).outLen = s.outLen := rfl
@[simp] theorem withEvents_key (es : List Event) (s : State) : (s.withEvents es).key = s.key := rfl
@[simp] theorem withEvents_iv (es : List Event) (s : State) : (s.withEvents es).iv = s.iv := rfl
@[simp] theorem withEvents_mem (es : List Event) (s : State) : (s.withEvents es).mem = s.mem := rfl
@[simp] theorem withEvents_ibufDraw (es : List Event) (s : State) : (s.withEvents es).ibufDraw = s.ibufDraw := rfl
@[simp] theorem withEvents_obufDraw (es : List Event) (s : State) : (s.withEvents es).obufDraw = s.obufDraw := rfl
@[simp] theorem withEvents_scratch (es : List Event) (s : State) : (s.withEvents es).scratch = s.scratch := rfl
@[simp] theorem withEvents_request (es : List Event) (s : State) : (s.withEvents es).request = s.request := rfl
@[simp] theorem withEvents_nextTag (es : List Event) (s : State) : (s.withEvents es).nextTag = s.nextTag := rfl
@[simp] theorem withEvents_diag (es : List Event) (s : State) : (s.withEvents es).diag = s.diag := rfl
@[simp] theorem withEvents_resp (es : List Event) (s : State) : (s.withEvents es).resp = s.resp := rfl
@[simp] theorem withEvents_draws (es : List Event) (s : State) : (s.withEvents es).draws = s.draws := rfl
@[simp] theorem withEvents_events (es : List Event) (s : State) : (s.withEvents es).events = es := rfl

@[simp] theorem setIrqEn_config (v : Word) (s : State) : (setIrqEn v s).config = s.config := rfl
@[simp] theorem setIrqEn_phase (v : Word) (s : State) : (setIrqEn v s).phase = s.phase := rfl
@[simp] theorem setIrqEn_stage (v : Word) (s : State) : (setIrqEn v s).stage = s.stage := rfl
@[simp] theorem setIrqEn_done (v : Word) (s : State) : (setIrqEn v s).done = s.done := rfl
@[simp] theorem setIrqEn_err (v : Word) (s : State) : (setIrqEn v s).err = s.err := rfl
@[simp] theorem setIrqEn_keyWr (v : Word) (s : State) : (setIrqEn v s).keyWr = s.keyWr := rfl
@[simp] theorem setIrqEn_errcode (v : Word) (s : State) : (setIrqEn v s).errcode = s.errcode := rfl
@[simp] theorem setIrqEn_wrIgn (v : Word) (s : State) : (setIrqEn v s).wrIgn = s.wrIgn := rfl
@[simp] theorem setIrqEn_lastOp (v : Word) (s : State) : (setIrqEn v s).lastOp = s.lastOp := rfl
@[simp] theorem setIrqEn_irqEn (v : Word) (s : State) : (setIrqEn v s).irqEn = v.getLsbD 0 := rfl
@[simp] theorem setIrqEn_inLen (v : Word) (s : State) : (setIrqEn v s).inLen = s.inLen := rfl
@[simp] theorem setIrqEn_outLen (v : Word) (s : State) : (setIrqEn v s).outLen = s.outLen := rfl
@[simp] theorem setIrqEn_key (v : Word) (s : State) : (setIrqEn v s).key = s.key := rfl
@[simp] theorem setIrqEn_iv (v : Word) (s : State) : (setIrqEn v s).iv = s.iv := rfl
@[simp] theorem setIrqEn_mem (v : Word) (s : State) : (setIrqEn v s).mem = s.mem := rfl
@[simp] theorem setIrqEn_ibufDraw (v : Word) (s : State) : (setIrqEn v s).ibufDraw = s.ibufDraw := rfl
@[simp] theorem setIrqEn_obufDraw (v : Word) (s : State) : (setIrqEn v s).obufDraw = s.obufDraw := rfl
@[simp] theorem setIrqEn_scratch (v : Word) (s : State) : (setIrqEn v s).scratch = s.scratch := rfl
@[simp] theorem setIrqEn_request (v : Word) (s : State) : (setIrqEn v s).request = s.request := rfl
@[simp] theorem setIrqEn_nextTag (v : Word) (s : State) : (setIrqEn v s).nextTag = s.nextTag := rfl
@[simp] theorem setIrqEn_diag (v : Word) (s : State) : (setIrqEn v s).diag = s.diag := rfl
@[simp] theorem setIrqEn_resp (v : Word) (s : State) : (setIrqEn v s).resp = s.resp := rfl
@[simp] theorem setIrqEn_draws (v : Word) (s : State) : (setIrqEn v s).draws = s.draws := rfl
@[simp] theorem setIrqEn_events (v : Word) (s : State) : (setIrqEn v s).events = s.events := rfl

@[simp] theorem setInLen_config (v : Word) (s : State) : (setInLen v s).config = s.config := rfl
@[simp] theorem setInLen_phase (v : Word) (s : State) : (setInLen v s).phase = s.phase := rfl
@[simp] theorem setInLen_stage (v : Word) (s : State) : (setInLen v s).stage = s.stage := rfl
@[simp] theorem setInLen_done (v : Word) (s : State) : (setInLen v s).done = s.done := rfl
@[simp] theorem setInLen_err (v : Word) (s : State) : (setInLen v s).err = s.err := rfl
@[simp] theorem setInLen_keyWr (v : Word) (s : State) : (setInLen v s).keyWr = s.keyWr := rfl
@[simp] theorem setInLen_errcode (v : Word) (s : State) : (setInLen v s).errcode = s.errcode := rfl
@[simp] theorem setInLen_wrIgn (v : Word) (s : State) : (setInLen v s).wrIgn = s.wrIgn := rfl
@[simp] theorem setInLen_lastOp (v : Word) (s : State) : (setInLen v s).lastOp = s.lastOp := rfl
@[simp] theorem setInLen_irqEn (v : Word) (s : State) : (setInLen v s).irqEn = s.irqEn := rfl
@[simp] theorem setInLen_inLen (v : Word) (s : State) : (setInLen v s).inLen = v := rfl
@[simp] theorem setInLen_outLen (v : Word) (s : State) : (setInLen v s).outLen = s.outLen := rfl
@[simp] theorem setInLen_key (v : Word) (s : State) : (setInLen v s).key = s.key := rfl
@[simp] theorem setInLen_iv (v : Word) (s : State) : (setInLen v s).iv = s.iv := rfl
@[simp] theorem setInLen_mem (v : Word) (s : State) : (setInLen v s).mem = s.mem := rfl
@[simp] theorem setInLen_ibufDraw (v : Word) (s : State) : (setInLen v s).ibufDraw = s.ibufDraw := rfl
@[simp] theorem setInLen_obufDraw (v : Word) (s : State) : (setInLen v s).obufDraw = s.obufDraw := rfl
@[simp] theorem setInLen_scratch (v : Word) (s : State) : (setInLen v s).scratch = s.scratch := rfl
@[simp] theorem setInLen_request (v : Word) (s : State) : (setInLen v s).request = s.request := rfl
@[simp] theorem setInLen_nextTag (v : Word) (s : State) : (setInLen v s).nextTag = s.nextTag := rfl
@[simp] theorem setInLen_diag (v : Word) (s : State) : (setInLen v s).diag = s.diag := rfl
@[simp] theorem setInLen_resp (v : Word) (s : State) : (setInLen v s).resp = s.resp := rfl
@[simp] theorem setInLen_draws (v : Word) (s : State) : (setInLen v s).draws = s.draws := rfl
@[simp] theorem setInLen_events (v : Word) (s : State) : (setInLen v s).events = s.events := rfl

@[simp] theorem setIvWord_config (k : Fin 4) (v : Word) (s : State) : (setIvWord k v s).config = s.config := rfl
@[simp] theorem setIvWord_phase (k : Fin 4) (v : Word) (s : State) : (setIvWord k v s).phase = s.phase := rfl
@[simp] theorem setIvWord_stage (k : Fin 4) (v : Word) (s : State) : (setIvWord k v s).stage = s.stage := rfl
@[simp] theorem setIvWord_done (k : Fin 4) (v : Word) (s : State) : (setIvWord k v s).done = s.done := rfl
@[simp] theorem setIvWord_err (k : Fin 4) (v : Word) (s : State) : (setIvWord k v s).err = s.err := rfl
@[simp] theorem setIvWord_keyWr (k : Fin 4) (v : Word) (s : State) : (setIvWord k v s).keyWr = s.keyWr := rfl
@[simp] theorem setIvWord_errcode (k : Fin 4) (v : Word) (s : State) : (setIvWord k v s).errcode = s.errcode := rfl
@[simp] theorem setIvWord_wrIgn (k : Fin 4) (v : Word) (s : State) : (setIvWord k v s).wrIgn = s.wrIgn := rfl
@[simp] theorem setIvWord_lastOp (k : Fin 4) (v : Word) (s : State) : (setIvWord k v s).lastOp = s.lastOp := rfl
@[simp] theorem setIvWord_irqEn (k : Fin 4) (v : Word) (s : State) : (setIvWord k v s).irqEn = s.irqEn := rfl
@[simp] theorem setIvWord_inLen (k : Fin 4) (v : Word) (s : State) : (setIvWord k v s).inLen = s.inLen := rfl
@[simp] theorem setIvWord_outLen (k : Fin 4) (v : Word) (s : State) : (setIvWord k v s).outLen = s.outLen := rfl
@[simp] theorem setIvWord_key (k : Fin 4) (v : Word) (s : State) : (setIvWord k v s).key = s.key := rfl
@[simp] theorem setIvWord_iv (k : Fin 4) (v : Word) (s : State) : (setIvWord k v s).iv = s.iv.set k v := rfl
@[simp] theorem setIvWord_mem (k : Fin 4) (v : Word) (s : State) : (setIvWord k v s).mem = s.mem := rfl
@[simp] theorem setIvWord_ibufDraw (k : Fin 4) (v : Word) (s : State) : (setIvWord k v s).ibufDraw = s.ibufDraw := rfl
@[simp] theorem setIvWord_obufDraw (k : Fin 4) (v : Word) (s : State) : (setIvWord k v s).obufDraw = s.obufDraw := rfl
@[simp] theorem setIvWord_scratch (k : Fin 4) (v : Word) (s : State) : (setIvWord k v s).scratch = s.scratch := rfl
@[simp] theorem setIvWord_request (k : Fin 4) (v : Word) (s : State) : (setIvWord k v s).request = s.request := rfl
@[simp] theorem setIvWord_nextTag (k : Fin 4) (v : Word) (s : State) : (setIvWord k v s).nextTag = s.nextTag := rfl
@[simp] theorem setIvWord_diag (k : Fin 4) (v : Word) (s : State) : (setIvWord k v s).diag = s.diag := rfl
@[simp] theorem setIvWord_resp (k : Fin 4) (v : Word) (s : State) : (setIvWord k v s).resp = s.resp := rfl
@[simp] theorem setIvWord_draws (k : Fin 4) (v : Word) (s : State) : (setIvWord k v s).draws = s.draws := rfl
@[simp] theorem setIvWord_events (k : Fin 4) (v : Word) (s : State) : (setIvWord k v s).events = s.events := rfl

end Sys2Proof.Machine
end

