-- ==== Sys2Proof/Laws/Memory.lean ====
section
/-! SUPPORT. The laws of byte memory: what a read gives after each write, and that every write keeps the canonical form. -/

namespace Sys2Proof.Machine

theorem memory_get_set (m : Memory) (addr : Nat) (v : Byte) (x : Nat) :
    (m.set addr v).get x = if x = addr then some v else m.get x := by
  induction m with
  | nil => simp [Memory.set, Memory.get, eq_comm]
  | cons c rest ih =>
    obtain ⟨a, b⟩ := c
    simp only [Memory.set]
    split
    · by_cases h : x = addr
      · simp [Memory.get, h]
      · simp [Memory.get, h, Ne.symm h]
    · split
      · rename_i h
        subst h
        by_cases h : x = addr
        · simp [Memory.get, h]
        · simp [Memory.get, h, Ne.symm h]
      · simp only [Memory.get, ih]
        by_cases h : a = x
        · subst h
          have h2 : a ≠ addr := fun e => by simp_all
          simp [h2]
        · simp [h]

/-- A byte string written from `addr` on: its bytes there, and every other byte as before. -/
theorem memory_get_setBytes (bytes : List Byte) (m : Memory) (addr x : Nat) :
    (m.setBytes addr bytes).get x =
      if addr ≤ x ∧ x < addr + bytes.length then some (bytes.getD (x - addr) 0) else m.get x := by
  induction bytes generalizing m addr with
  | nil =>
    have h : ¬ (addr ≤ x ∧ x < addr) := by omega
    simp [Memory.setBytes, h]
  | cons v vs ih =>
    rw [Memory.setBytes, ih, memory_get_set]
    by_cases h1 : x = addr
    · subst h1
      simp
    · by_cases h2 : addr ≤ x ∧ x < addr + (v :: vs).length
      · have h3 : addr + 1 ≤ x ∧ x < addr + 1 + vs.length := by simp at h2; omega
        have h4 : x - addr = (x - (addr + 1)) + 1 := by omega
        rw [if_pos h3, if_pos h2, h4, List.getD_cons_succ]
      · have h3 : ¬ (addr + 1 ≤ x ∧ x < addr + 1 + vs.length) := by simp at h2; omega
        rw [if_neg h3, if_neg h2, if_neg h1]

theorem memory_get_below (m : Memory) (addr x : Nat) :
    (m.below addr).get x = if x < addr then m.get x else none := by
  induction m with
  | nil => simp [Memory.below, Memory.get]
  | cons c rest ih =>
    obtain ⟨a, b⟩ := c
    simp only [Memory.below] at ih ⊢
    by_cases h : a < addr
    · simp only [List.filter_cons, h, decide_true, if_true, Memory.get, ih]
      by_cases h2 : a = x
      · simp [← h2, h]
      · simp [h2]
    · simp only [List.filter_cons, h, decide_false, Bool.false_eq_true, if_false, ih, Memory.get]
      by_cases h2 : x < addr
      · have h3 : a ≠ x := by omega
        simp [h2, h3]
      · simp [h2]

/-- The canonical form, as a statement about every two entries in order. -/
theorem memory_wf_iff (m : Memory) : m.wf = true ↔ m.Pairwise (fun c d => c.1 < d.1) := by
  induction m with
  | nil => simp [Memory.wf]
  | cons c rest ih =>
    obtain ⟨a, x⟩ := c
    cases rest with
    | nil => simp [Memory.wf]
    | cons d rest =>
      obtain ⟨b, y⟩ := d
      rw [Memory.wf, Bool.and_eq_true, decide_eq_true_iff, ih, List.pairwise_cons (a := (a, x))]
      constructor
      · rintro ⟨hab, h⟩
        refine ⟨fun e he => ?_, h⟩
        rcases List.mem_cons.1 he with rfl | he
        · exact hab
        · exact Nat.lt_trans hab ((List.pairwise_cons.1 h).1 e he)
      · rintro ⟨h, h2⟩
        exact ⟨h (b, y) (List.mem_cons_self ..), h2⟩

theorem memory_mem_set {m : Memory} {addr : Nat} {v : Byte} {c : Host.Cell} (h : c ∈ m.set addr v) :
    c = (addr, v) ∨ c ∈ m := by
  induction m with
  | nil => simpa [Memory.set] using h
  | cons d rest ih =>
    obtain ⟨a, b⟩ := d
    simp only [Memory.set] at h
    split at h
    · simpa using h
    · split at h
      · rename_i h2
        subst h2
        rcases List.mem_cons.1 h with h | h <;> simp [h]
      · rcases List.mem_cons.1 h with h | h
        · simp [h]
        · rcases ih h with h | h <;> simp [h]

theorem memory_wf_set {m : Memory} (h : m.wf = true) (addr : Nat) (v : Byte) : (m.set addr v).wf = true := by
  rw [memory_wf_iff] at h ⊢
  induction m with
  | nil => simp [Memory.set]
  | cons d rest ih =>
    obtain ⟨a, b⟩ := d
    obtain ⟨h1, h2⟩ := List.pairwise_cons.1 h
    simp only [Memory.set]
    split
    · rename_i hlt
      refine List.pairwise_cons.2 ⟨?_, h⟩
      intro e he
      rcases List.mem_cons.1 he with rfl | he
      · exact hlt
      · exact Nat.lt_trans hlt (h1 e he)
    · split
      · exact List.pairwise_cons.2 ⟨h1, h2⟩
      · refine List.pairwise_cons.2 ⟨?_, ih h2⟩
        intro e he
        rcases memory_mem_set he with rfl | he
        · show a < addr
          omega
        · exact h1 e he

theorem memory_wf_setBytes {m : Memory} (h : m.wf = true) (addr : Nat) (bytes : List Byte) :
    (m.setBytes addr bytes).wf = true := by
  induction bytes generalizing m addr with
  | nil => exact h
  | cons v vs ih => exact ih (memory_wf_set h addr v) (addr + 1)

theorem memory_wf_below {m : Memory} (h : m.wf = true) (addr : Nat) : (m.below addr).wf = true := by
  rw [memory_wf_iff] at h ⊢
  exact h.filter _

/-- An entry after a write of a byte string lies among the bytes written, or was there before. -/
theorem memory_mem_setBytes {bytes : List Byte} {m : Memory} {addr : Nat} {c : Host.Cell}
    (h : c ∈ m.setBytes addr bytes) : (addr ≤ c.1 ∧ c.1 < addr + bytes.length) ∨ c ∈ m := by
  induction bytes generalizing m addr with
  | nil => exact .inr h
  | cons v vs ih =>
    rcases ih h with h | h
    · left
      simp
      omega
    · rcases memory_mem_set h with rfl | h
      · left
        simp
      · exact .inr h

theorem memory_mem_below {m : Memory} {addr : Nat} {c : Host.Cell} (h : c ∈ m.below addr) : c ∈ m ∧ c.1 < addr := by
  simpa [Memory.below] using h

/-- Two memories in canonical form that read alike at every address are the same data. -/
theorem memory_ext {m n : Memory} (hm : m.wf = true) (hn : n.wf = true) (h : ∀ x, m.get x = n.get x) : m = n := by
  rw [memory_wf_iff] at hm hn
  have head : ∀ {c : Host.Cell} {l : Memory}, (∀ e ∈ l, c.1 < e.1) → ∀ x, x ≤ c.1 → Memory.get l x = none := by
    intro c l hl x hx
    induction l with
    | nil => rfl
    | cons d l ih =>
      obtain ⟨a, b⟩ := d
      have h1 : c.1 < a := hl (a, b) (List.mem_cons_self ..)
      have h2 : a ≠ x := by omega
      simp only [Memory.get, h2, if_false]
      exact ih (fun e he => hl e (List.mem_cons_of_mem _ he))
  induction m generalizing n with
  | nil =>
    cases n with
    | nil => rfl
    | cons d n =>
      obtain ⟨a, b⟩ := d
      simpa [Memory.get] using h a
  | cons c m ih =>
    obtain ⟨a, b⟩ := c
    obtain ⟨hm1, hm2⟩ := List.pairwise_cons.1 hm
    cases n with
    | nil => simpa [Memory.get] using h a
    | cons d n =>
      obtain ⟨a', b'⟩ := d
      obtain ⟨hn1, hn2⟩ := List.pairwise_cons.1 hn
      have hab : a = a' := by
        rcases Nat.lt_trichotomy a a' with hlt | heq | hgt
        · have h1 := h a
          have h2 : a' ≠ a := by omega
          simp [Memory.get, h2, head hn1 a (by omega)] at h1
        · exact heq
        · have h1 := h a'
          have h2 : a ≠ a' := by omega
          simp [Memory.get, h2, head hm1 a' (by omega)] at h1
      subst hab
      have hb : b = b' := by simpa [Memory.get] using h a
      subst hb
      congr 1
      refine ih hm2 hn2 fun x => ?_
      by_cases hx : a = x
      · subst hx
        rw [head hm1 a (Nat.le_refl _), head hn1 a (Nat.le_refl _)]
      · simpa [Memory.get, hx] using h x

/-- The memory of the reset state has the canonical form. -/
theorem memory_wf_reset (c : Config) : (State.resetOf c).mem.wf = true := rfl

end Sys2Proof.Machine
end

