-- ==== Sys2Proof/Laws/Lanes.lean ====
section
/-! SUPPORT. The byte lanes (R36), the registers that hold a byte string (R24, R25), and the command word's own laws: its
bytes decode as the word does. -/

namespace Sys2Proof

/-- Bit `i` of a field in its place. -/
theorem getLsbD_fieldAt (k : Nat) (v : BitVec n) (i : Nat) :
    (fieldAt k v).getLsbD i = (decide (i < 32) && decide (k ≤ i) && v.getLsbD (i - k)) := by
  simp only [fieldAt, BitVec.getLsbD_shiftLeft, BitVec.getLsbD_setWidth]
  by_cases h1 : i < 32 <;> by_cases h2 : k ≤ i
  · have h3 : i - k < 32 := by omega
    have h4 : ¬ i < k := by omega
    simp [h1, h2, h3, h4]
  · have h4 : i < k := by omega
    simp [h1, h2, h4]
  · simp [h1]
  · simp [h1]

theorem wordOfLanes_laneBytes (w : Word) :
    wordOfLanes (w.extractLsb' 0 8) (w.extractLsb' 8 8) (w.extractLsb' 16 8) (w.extractLsb' 24 8) = w := by
  apply BitVec.eq_of_getLsbD_eq
  intro i hi
  simp only [wordOfLanes, BitVec.getLsbD_or, getLsbD_fieldAt, BitVec.getLsbD_extractLsb']
  interval_cases i <;> simp

theorem laneBytes_wordOfLanes (b0 b1 b2 b3 : Byte) : laneBytes (wordOfLanes b0 b1 b2 b3) = [b0, b1, b2, b3] := by
  simp only [laneBytes, List.cons.injEq, and_true]
  refine ⟨?_, ?_, ?_, ?_⟩ <;>
  · apply BitVec.eq_of_getLsbD_eq
    intro i hi
    simp only [wordOfLanes, BitVec.getLsbD_or, getLsbD_fieldAt, BitVec.getLsbD_extractLsb']
    interval_cases i <;> simp

/-- The number that four bytes make on the bus (R36). -/
theorem wordOfLanes_toNat (b0 b1 b2 b3 : Byte) :
    (wordOfLanes b0 b1 b2 b3).toNat = b0.toNat + b1.toNat * 2 ^ 8 + b2.toNat * 2 ^ 16 + b3.toNat * 2 ^ 24 := by
  have h := laneBytes_wordOfLanes b0 b1 b2 b3
  have hw := (wordOfLanes b0 b1 b2 b3).isLt
  generalize wordOfLanes b0 b1 b2 b3 = w at h hw ⊢
  simp only [laneBytes, List.cons.injEq, and_true] at h
  obtain ⟨rfl, rfl, rfl, rfl⟩ := h
  simp only [BitVec.extractLsb'_toNat, Nat.shiftRight_eq_div_pow]
  omega

@[simp] theorem laneBytes_length (w : Word) : (laneBytes w).length = 4 := rfl

/-- The decoder reads from a word's bytes what it reads from the word. -/
theorem decode_laneBytes (w : Word) : decode (laneBytes w) = (decodeWord w).map (fun i => (i, [])) := by
  simp only [laneBytes, decode, wordOfLanes_laneBytes]

namespace Machine

@[simp] theorem quad_bytes_length (q : Quad) : q.bytes.length = 16 := rfl

theorem quad_bytes_zero : Quad.zero.bytes = List.replicate 16 0 := by decide

/-- The registers that a 16-byte string is written to hold that string. -/
theorem quad_bytes_ofBytes {b : List Byte} (h : b.length = 16) : (Quad.ofBytes b).bytes = b := by
  simp only [Quad.bytes, Quad.ofBytes, laneBytes_wordOfLanes]
  apply List.ext_getElem?
  intro k
  rcases Nat.lt_or_ge k 16 with hk | hk
  · interval_cases k <;> simp [List.getD_eq_getElem?_getD, h]
  · rw [List.getElem?_eq_none (by simpa using hk), List.getElem?_eq_none (by omega)]

/-- The string the four registers hold, written back, gives the four registers. -/
theorem quad_ofBytes_bytes (q : Quad) : Quad.ofBytes q.bytes = q := by
  cases q
  simp [Quad.bytes, Quad.ofBytes, laneBytes, wordOfLanes_laneBytes]

theorem quad_get_set (q : Quad) (k j : Fin 4) (v : Word) : (q.set k v).get j = if j = k then v else q.get j := by
  fin_cases k <;> fin_cases j <;> rfl

@[simp] theorem quad_get_zero (k : Fin 4) : Quad.zero.get k = 0 := by fin_cases k <;> rfl

end Machine

end Sys2Proof
end

