-- ==== Sys2Proof/Laws/Ops.lean ====
section
/-! SUPPORT. For each shared operation, what it can do, once: the buffers' bytes after it, the two completions (R86, R87), an
entropy answer (R91), a host access (R34, R102, R103), the engine's move, and a step. -/

namespace Sys2Proof.Machine

/-- A byte of a buffer depends on the memory and on the draw of its buffer alone. -/
theorem byteAt_congr {s t : State} (hm : t.mem = s.mem) (hi : t.ibufDraw = s.ibufDraw) (ho : t.obufDraw = s.obufDraw)
    (addr : Nat) : byteAt t addr = byteAt s addr := by
  simp only [byteAt, unlistedByte, hm, hi, ho]

/-- Reading a byte after a byte string was stored: the stored byte inside it, the byte from before outside it. -/
theorem byteAt_storeBytes (addr : Nat) (bytes : List Byte) (s : State) (x : Nat) :
    byteAt (storeBytes addr bytes s) x =
      if addr ≤ x ∧ x < addr + bytes.length then bytes.getD (x - addr) 0 else byteAt s x := by
  simp only [byteAt, unlistedByte, storeBytes_mem, storeBytes_ibufDraw, storeBytes_obufDraw, memory_get_setBytes]
  split <;> rfl

/-- Losing OBUF leaves every byte below it. -/
theorem byteAt_loseObuf {s : State} {x : Nat} (h : x < obufBase) : byteAt (loseObuf s) x = byteAt s x := by
  simp only [byteAt, unlistedByte, loseObuf_mem, loseObuf_ibufDraw, memory_get_below, h, if_true]

theorem obufByte_successCompletion (i : Instr) (out : List Byte) (nul : Bool) (iv : Option (List Byte)) (s : State)
    (k : Nat) :
    obufByte (successCompletion i out nul iv s) k =
      if k < (resultBytes out nul).length then (resultBytes out nul).getD k 0 else obufByte s k := by
  have h : byteAt (successCompletion i out nul iv s) (obufBase + k) =
      byteAt (storeBytes obufBase (resultBytes out nul) s) (obufBase + k) :=
    byteAt_congr (by simp) (by simp) (by simp) _
  rw [obufByte, h, byteAt_storeBytes]
  simp [obufByte]

theorem byteAt_successCompletion_below (i : Instr) (out : List Byte) (nul : Bool) (iv : Option (List Byte)) (s : State)
    {x : Nat} (hx : x < obufBase) : byteAt (successCompletion i out nul iv s) x = byteAt s x := by
  have h : byteAt (successCompletion i out nul iv s) x = byteAt (storeBytes obufBase (resultBytes out nul) s) x :=
    byteAt_congr (by simp) (by simp) (by simp) _
  rw [h, byteAt_storeBytes, if_neg (by omega)]

theorem byteAt_failCompletion_below (b : Bool) (code : ErrorCode) (iv : Option (List Byte)) (s : State) {x : Nat}
    (hx : x < obufBase) : byteAt (failCompletion b code iv s) x = byteAt s x := by
  have h : byteAt (failCompletion b code iv s) x = byteAt (loseObuf s) x :=
    byteAt_congr (by simp) (by simp) (by simp) _
  rw [h, byteAt_loseObuf hx]

theorem iv_elim_written {iv : Option (List Byte)} {q : Quad} (hiv : ∀ b, iv = some b → b.length = 16) :
    ∀ b, iv = some b → (iv.elim q Quad.ofBytes).bytes = b := by
  rintro b rfl
  exact quad_bytes_ofBytes (hiv b rfl)

/-- Everything a completion with success does (R86). -/
theorem successCompletion_spec (i : Instr) (out : List Byte) (nul : Bool) (iv : Option (List Byte)) (s : State)
    (hlen : out.length < 2 ^ 32) (hiv : ∀ b, iv = some b → b.length = 16) :
    SuccessOf i s (successCompletion i out nul iv s) out nul iv where
  does :=
    { phase := by simp
      quiet := by simp
      done := by simp
      key := fun h => by simp [h, quad_bytes_zero]
      ivKept := fun h => by simp [h]
      ivWritten := fun b h => by rw [successCompletion_iv]; exact iv_elim_written hiv b h }
  keeps :=
    { config := by simp
      inLen := by simp
      irqEn := by simp
      wrIgn := by simp
      lastOp := by simp
      ibuf := fun _ h => byteAt_successCompletion_below i out nul iv s h
      key := fun h => by simp [h]
      nextTag := by simp
      resp := by simp
      events := by simp }
  err := by simp
  errcode := by simp
  outLen := by simpa using Nat.mod_eq_of_lt hlen
  result := fun k hk => by
    have h1 : k < (resultBytes out nul).length := by
      cases nul <;> simp [resultBytes] <;> omega
    rw [obufByte_successCompletion, if_pos h1]
    cases nul
    · rfl
    · exact List.getD_append out [0] 0 k hk
  terminator := fun hn => by
    subst hn
    rw [obufByte_successCompletion, if_pos (by simp [resultBytes])]
    simp [resultBytes]
  past := fun k hk => by
    rw [obufByte_successCompletion, if_neg]
    cases nul <;> simp [resultBytes] at hk ⊢ <;> omega
  diag := by cases i <;> simp [noticesSuccess]

/-- Everything a completion with failure does (R87). -/
theorem failCompletion_spec (b : Bool) (code : ErrorCode) (iv : Option (List Byte)) (s : State)
    (hiv : ∀ v, iv = some v → v.length = 16) : FailureOf b s (failCompletion b code iv s) code iv where
  does :=
    { phase := by simp
      quiet := by simp
      done := by simp
      key := fun h => by simp [h, quad_bytes_zero]
      ivKept := fun h => by simp [h]
      ivWritten := fun v h => by rw [failCompletion_iv]; exact iv_elim_written hiv v h }
  keeps :=
    { config := by simp
      inLen := by simp
      irqEn := by simp
      wrIgn := by simp
      lastOp := by simp
      ibuf := fun _ h => byteAt_failCompletion_below b code iv s h
      key := fun h => by simp [h]
      nextTag := by simp
      resp := by simp
      events := by simp }
  err := by simp
  errcode := by simp
  outLen := by simp
  diag := by simp

/-- Everything an entropy answer does (R91): it ends the wait it belongs to, or is discarded. -/
theorem receiveAnswer_cases {tag : Nat} {a : Answer} {s t : State} (h : receiveAnswer tag a s = .next t) :
    (∃ q, s.request = some q ∧ q.tag = tag ∧ answerFits q.size a = true ∧
      t = { s with request := none, stage := .answered q.purpose a }) ∨
    (t = s ∧ ∀ q, s.request = some q → q.tag ≠ tag) := by
  unfold receiveAnswer at h
  split at h
  · rename_i hn
    exact .inr ⟨by simpa using h.symm, by simp [hn]⟩
  · rename_i q hq
    split at h
    · rename_i ht
      split at h
      · rename_i hf
        exact .inl ⟨q, hq, ht, hf, by simpa using h.symm⟩
      · simp at h
    · rename_i ht
      refine .inr ⟨by simpa using h.symm, ?_⟩
      intro q' hq'
      rw [hq] at hq'
      cases hq'
      exact ht

/-- A read of a location does nothing but answer, and count a draw (R39, R103). -/
theorem readTarget_cases (t : Target) (s : State) :
    (busy s = true ∧ readsFreeWhileBusy t = true ∧
      readTarget t s = respond false (Config.freeWord s.draws) { s with draws := s.draws + 1 }) ∨
    ((busy s = false ∨ readsFreeWhileBusy t = false) ∧ readTarget t s = respond false (locationValue s t) s) := by
  cases hb : busy s <;> cases hr : readsFreeWhileBusy t <;> simp [readTarget, hb, hr]

/-- Everything a host access does (R34). -/
theorem hostAccess_cases (a : Access) (s : State) :
    (accessWellFormed a = false ∧ hostAccess a s = respond true 0 s) ∨
    (accessWellFormed a = true ∧ ∃ off w, a = .read off w ∧ hostAccess a s = readTarget (accessTarget a s) s) ∨
    (accessWellFormed a = true ∧ ∃ off w v, a = .write off w v ∧
      hostAccess a s = respond false 0 (writeTarget (accessTarget a s) v s)) := by
  cases h : accessWellFormed a
  · exact .inl ⟨rfl, by simp [hostAccess, h]⟩
  · cases a with
    | read off w => exact .inr (.inl ⟨rfl, off, w, rfl, by simp [hostAccess, h]⟩)
    | write off w v => exact .inr (.inr ⟨rfl, off, w, v, rfl, by simp [hostAccess, h]⟩)

/-- Everything a write to CTRL does (R21). -/
theorem writeCtrl_cases (v : Word) (s : State) :
    (v.getLsbD 1 = true ∧ writeCtrl v s = enterReset s) ∨ (v.getLsbD 1 = false ∧ writeCtrl v s = setIrqEn v s) := by
  unfold writeCtrl
  cases h : v.getLsbD 1
  · exact .inr ⟨rfl, rfl⟩
  · exact .inl ⟨rfl, rfl⟩

/-- Everything a write to a location does (R18 to R27, R102). -/
theorem writeTarget_cases (t : Target) (v : Word) (s : State) :
    writeTarget t v s = s ∨
    (busy s = true ∧ writeTarget t v s = ignoreWrite s) ∨
    (t = .status ∧ writeTarget t v s = clearByStatusWrite v s) ∨
    (t = .ctrl ∧ v.getLsbD 1 = true ∧ writeTarget t v s = enterReset s) ∨
    (t = .ctrl ∧ v.getLsbD 1 = false ∧ writeTarget t v s = setIrqEn v s) ∨
    (busy s = false ∧
      ((t = .cmd ∧ writeTarget t v s = startCommand v s) ∨
       (t = .inLen ∧ writeTarget t v s = setInLen v s) ∨
       (∃ k, t = .key k ∧ writeTarget t v s = writeKey k v s) ∨
       (∃ k, t = .iv k ∧ writeTarget t v s = setIvWord k v s) ∨
       (∃ i, t = .ibuf i ∧ writeTarget t v s = storeBytes (ibufBase + i) (laneBytes v) s))) := by
  unfold writeTarget
  cases hb : busy s <;> cases t <;> simp only [Bool.false_eq_true, if_false, if_true, writeIdle, writeBusy]
  case false.ctrl | true.ctrl =>
    rcases writeCtrl_cases v s with ⟨h1, h2⟩ | ⟨h1, h2⟩
    · exact .inr (.inr (.inr (.inl ⟨trivial, h1, h2⟩)))
    · exact .inr (.inr (.inr (.inr (.inl ⟨trivial, h1, h2⟩))))
  all_goals simp

/-- Everything a command's next move does: it asks for entropy, it completes with success, or it completes with failure. -/
theorem exec_cases (i : Instr) (s : State) :
    (∃ p n sc, exec i s = .next (requestEntropy p n { s with scratch := sc })) ∨
    (∃ out nul iv, exec i s = .next (successCompletion i out nul iv s)) ∨
    (∃ code iv, exec i s = .next (failCompletion (keyUsing i) code iv s)) := by
  have hf : ∀ code iv, raiseError i code iv s = .next (failCompletion (keyUsing i) code iv s) := fun _ _ => rfl
  have hs : ∀ out nul iv, finishOk i out nul iv s = .next (successCompletion i out nul iv s) := fun _ _ _ => rfl
  have hr : ∀ p n, (Host.Outcome.next (requestEntropy p n s) : Host.Outcome State Fault Refusal) =
      .next (requestEntropy p n { s with scratch := s.scratch }) := fun _ _ => rfl
  cases i
  case frameBuild =>
    simp only [exec, execFrameBuild]
    repeat' split
    all_goals first | exact .inr (.inr ⟨_, _, hf _ _⟩) | exact .inr (.inl ⟨_, _, _, hs _ _ _⟩) | exact .inl ⟨_, _, _, hr _ _⟩
  case frameParse =>
    simp only [exec, execFrameParse]
    repeat' split
    all_goals first | exact .inr (.inr ⟨_, _, hf _ _⟩) | exact .inr (.inl ⟨_, _, _, hs _ _ _⟩)
  case genIv =>
    simp only [exec, execGenIv]
    repeat' split
    all_goals first | exact .inr (.inr ⟨_, _, hf _ _⟩) | exact .inr (.inl ⟨_, _, _, hs _ _ _⟩) | exact .inl ⟨_, _, _, hr _ _⟩
  case cbcEncrypt =>
    simp only [exec, execCbcEncrypt]
    repeat' split
    all_goals first | exact .inr (.inr ⟨_, _, hf _ _⟩) | exact .inr (.inl ⟨_, _, _, hs _ _ _⟩)
  case cbcDecrypt =>
    simp only [exec, execCbcDecrypt]
    repeat' split
    all_goals first | exact .inr (.inr ⟨_, _, hf _ _⟩) | exact .inr (.inl ⟨_, _, _, hs _ _ _⟩)
  case b64Encode =>
    simp only [exec, execB64Encode]
    repeat' split
    all_goals first | exact .inr (.inr ⟨_, _, hf _ _⟩) | exact .inr (.inl ⟨_, _, _, hs _ _ _⟩)
  case b64Decode =>
    simp only [exec, execB64Decode]
    repeat' split
    all_goals first | exact .inr (.inr ⟨_, _, hf _ _⟩) | exact .inr (.inl ⟨_, _, _, hs _ _ _⟩)
  case payloadEncrypt =>
    simp only [exec, execPayloadEncrypt]
    repeat' split
    all_goals first
      | exact .inr (.inr ⟨_, _, hf _ _⟩) | exact .inr (.inl ⟨_, _, _, hs _ _ _⟩) | exact .inl ⟨_, _, _, hr _ _⟩
      | exact .inl ⟨_, _, _, rfl⟩
  case payloadDecrypt =>
    simp only [exec, execPayloadDecrypt, decryptEnvelope]
    repeat' split
    all_goals first | exact .inr (.inr ⟨_, _, hf _ _⟩) | exact .inr (.inl ⟨_, _, _, hs _ _ _⟩)

/-- The running command's word decides its move: the command it decodes to, else the illegal completion (R46). -/
theorem runCommand_eq (cmd : Word) (s : State) :
    runCommand cmd s =
      match decodeWord cmd with
      | .ok i => exec i s
      | .error _ => .next (completeIllegal s) := by
  simp only [runCommand, commandBytes, decode_laneBytes]
  cases decodeWord cmd <;> rfl

/-- Everything the engine's move does (R89, R91). -/
theorem engineMove_cases (s : State) :
    ((s.phase = .idle ∨ entWait s = true) ∧ engineMove s = .next s) ∨
    (∃ cmd, s.phase = .busy cmd ∧ entWait s = false ∧ engineMove s = runCommand cmd s) := by
  unfold engineMove
  split
  · rename_i h
    exact .inl ⟨.inl h, rfl⟩
  · rename_i cmd h
    cases hw : entWait s
    · exact .inr ⟨cmd, h, rfl, by simp⟩
    · exact .inl ⟨.inr rfl, by simp⟩

/-- Everything a step does, by the agent that moves (R15, R41). -/
theorem step_cases {s t : State} (h : step s = .next t) :
    (∃ es, engineMove (s.withEvents es) = .next t) ∨
    (∃ a es, t = hostAccess a (s.withEvents es)) ∨
    (∃ tag a es, s.events = .entropy tag a :: es ∧ receiveAnswer tag a (s.withEvents es) = .next t) ∨
    (∃ es, t = sinkMove (s.withEvents es)) ∨
    (∃ es, t = enterReset (s.withEvents es)) := by
  unfold step at h
  split at h
  · rename_i he
    exact .inl ⟨[], by rw [show s.withEvents [] = s from by rw [State.withEvents, ← he]]; exact h⟩
  · exact .inl ⟨_, h⟩
  · exact .inr (.inl ⟨_, _, by simpa using h.symm⟩)
  · rename_i tag a es he
    exact .inr (.inr (.inl ⟨tag, a, es, he, h⟩))
  · exact .inr (.inr (.inr (.inl ⟨_, by simpa using h.symm⟩)))
  · exact .inr (.inr (.inr (.inr ⟨_, by simpa using h.symm⟩)))

/-- What every step of a core keeps, every run keeps. -/
theorem run_keeps {M : Host.Core} {P : M.State → Prop} (hP : ∀ s t, P s → M.step s = .next t → P t) :
    ∀ (n : Nat) (s t : M.State), P s → M.run n s = .next t → P t
  | 0, s, t, h, e => by
    simp only [Host.Core.run] at e
    cases e
    exact h
  | n + 1, s, t, h, e => by
    simp only [Host.Core.run] at e
    split at e
    · rename_i u hu
      exact run_keeps hP n u t (hP s u h hu) e
    · cases e
    · cases e

end Sys2Proof.Machine
end

