-- ==== Sys2Proof/Laws/PerInstr.lean ====
section
/-! SUPPORT. Statements about each command as syntax, one lemma per constructor of `Instr`. -/

namespace Sys2Proof.Laws.EncodedWordIsLegal

/-- The command's word has its opcode in bits 3:0 and 0 in bits 31:4, so it passes both tests of R46; and the command's
bytes are the four lanes of that word (R44, R36). -/
def Statement (i : Instr) : Prop :=
  instrWellFormed i = true ∧ wordWellFormed (encodeWord i) = true ∧ cmdOp (encodeWord i) = opcodeOf i ∧
    cmdRsv (encodeWord i) = 0 ∧ (encode i).length = 4

theorem frameBuild : Statement .frameBuild := by unfold Statement; decide

theorem frameParse : Statement .frameParse := by unfold Statement; decide

theorem genIv : Statement .genIv := by unfold Statement; decide

theorem cbcEncrypt : Statement .cbcEncrypt := by unfold Statement; decide

theorem cbcDecrypt : Statement .cbcDecrypt := by unfold Statement; decide

theorem b64Encode : Statement .b64Encode := by unfold Statement; decide

theorem b64Decode : Statement .b64Decode := by unfold Statement; decide

theorem payloadEncrypt : Statement .payloadEncrypt := by unfold Statement; decide

theorem payloadDecrypt : Statement .payloadDecrypt := by unfold Statement; decide

end Sys2Proof.Laws.EncodedWordIsLegal
end

