-- ==== Sys2Proof/Tests/Slice0.lean ====
section
/-! SUPPORT. The model's own tests: the well-formedness smoke, each command's word, one or two one-step tests for each
command with results from the spec's vectors (spec/95_test_vectors.md), and for each statement with hypotheses a state
and operands that meet them. -/

namespace Sys2Proof.Tests

set_option Elab.async false

open Sys2Proof Sys2Proof.Machine

-- Helpers: small states over the reset state

/-- `n` bytes counting up from `a`. -/
def count (a n : Nat) : List Byte := (List.range n).map (fun i => BitVec.ofNat 8 (a + i))

/-- The entropy answer N16 of the vectors: bytes 0x00 to 0x0F. -/
def n16 : List Byte := count 0x00 16

/-- The entropy answer RA of the vectors: bytes 0xA0 to 0xAF. -/
def ra : List Byte := count 0xA0 16

/-- The message "hi". -/
def hi : List Byte := [0x68, 0x69]

/-- A byte string in IBUF and its length in IN_LEN. -/
def loaded (b : List Byte) : State :=
  { State.reset with mem := Memory.setBytes [] ibufBase b, inLen := BitVec.ofNat 32 b.length }

/-- A command word running, at a stage of its pseudocode. -/
def running (cmd : Word) (st : Stage) (s : State) : State := { s with phase := .busy cmd, lastOp := cmdOp cmd, stage := st }

/-- All four key words written. -/
def keyed (k : List Byte) (s : State) : State := { s with key := Quad.ofBytes k, keyWr := 0b1111 }

/-- The IV register written. -/
def withIv (v : List Byte) (s : State) : State := { s with iv := Quad.ofBytes v }

/-- A value of IN_LEN alone. -/
def withLen (n : Nat) : State := { State.reset with inLen := BitVec.ofNat 32 n }

/-- A command's next move answers a next state with a property. -/
def moves (i : Instr) (s : State) (p : State → Bool) : Bool :=
  match exec i s with
  | .next t => p t
  | .fault _ => false
  | .refused _ => false

/-- A step answers a next state with a property. -/
def steps (s : State) (p : State → Bool) : Bool :=
  match step s with
  | .next t => p t
  | .fault _ => false
  | .refused _ => false

/-- The first bytes of OBUF. -/
def out (s : State) (n : Nat) : List Byte := (List.range n).map (obufByte s)

/-- The key of SP 800-38A F.2.1, quoted in R60. -/
def nistKey : List Byte :=
  [0x2b, 0x7e, 0x15, 0x16, 0x28, 0xae, 0xd2, 0xa6, 0xab, 0xf7, 0x15, 0x88, 0x09, 0xcf, 0x4f, 0x3c]

/-- The plaintext block of R60's example. -/
def nistPlain : List Byte :=
  [0x6b, 0xc1, 0xbe, 0xe2, 0x2e, 0x40, 0x9f, 0x96, 0xe9, 0x3d, 0x7e, 0x11, 0x73, 0x93, 0x17, 0x2a]

/-- The ciphertext block of R60's example. -/
def nistCipher : List Byte :=
  [0x76, 0x49, 0xab, 0xac, 0x81, 0x19, 0xb2, 0x46, 0xce, 0xe9, 0x8e, 0x9b, 0x12, 0xe9, 0x19, 0x7d]

/-- The key of Scenario A (R36). -/
def keyA : List Byte :=
  [0xcc, 0x30, 0xc6, 0x8d, 0xe9, 0xb1, 0x49, 0x6b, 0xa6, 0xe4, 0xf2, 0x61, 0xfa, 0x61, 0xb5, 0x12]

/-- The frame of vector FB-1. -/
def frameHi : List Byte :=
  [0x02, 0x03, 0x02, 0x03, 0x00, 0x00, 0x00, 0x02, 0x68, 0x69, 0x0a, 0x0b, 0x0c, 0x0d, 0x0e, 0x0f]

/-- The ciphertext of vector PE-1. -/
def cipherHi : List Byte :=
  [0x0f, 0x1e, 0x7d, 0x2a, 0x67, 0x47, 0xcc, 0x90, 0xbf, 0x72, 0xff, 0x73, 0x45, 0x91, 0xa5, 0xa1]

/-- The transport string of vector PE-1: `oKGio6SlpqeoqaqrrK2urw8efSpnR8yQv3L/c0WRpaE=`. -/
def stringHi : List Byte :=
  [0x6f, 0x4b, 0x47, 0x69, 0x6f, 0x36, 0x53, 0x6c, 0x70, 0x71, 0x65, 0x6f, 0x71, 0x61, 0x71, 0x72,
   0x72, 0x4b, 0x32, 0x75, 0x72, 0x77, 0x38, 0x65, 0x66, 0x53, 0x70, 0x6e, 0x52, 0x38, 0x79, 0x51,
   0x76, 0x33, 0x4c, 0x2f, 0x63, 0x30, 0x57, 0x52, 0x70, 0x61, 0x45, 0x3d]

-- WellFormed: each check refuses an ill-formed term

theorem test_rsv_refuses : rsvZero 0x00000011 = false := by decide
theorem test_op_zero_refused : opAssigned 0x00000000 = false := by decide
theorem test_op_reserved_refused : opAssigned 0x0000000A = false ∧ opAssigned 0x0000000F = false := by decide
theorem test_word_refuses : wordWellFormed 0x80000001 = false ∧ wordWellFormed 0x0000000C = false := by decide
theorem test_aligned_refuses : accessAligned (.read 0x00006 .bits32) = false := by decide
theorem test_width_refuses :
    accessFullWidth (.read 0x00004 .bits8) = false ∧ accessFullWidth (.write 0x00004 .bits16 0) = false ∧
      accessFullWidth (.write 0x10000 .burst 0) = false := by decide
theorem test_access_refuses :
    accessWellFormed (.read 0x00001 .bits32) = false ∧ accessWellFormed (.read 0x00004 .bits16) = false := by decide
theorem test_answer_refuses : answerFits 16 (.ok (count 0 15)) = false ∧ answerFits 16 (.ok (count 0 17)) = false := by decide
theorem test_instr_wellformed : instrWellFormed .genIv = true := by decide

-- Decode: each word written out from R45's table, and the words R46 rejects

theorem test_decode_frameBuild : decode [0b00000001, 0, 0, 0] = .ok (.frameBuild, []) := by decide
theorem test_decode_frameParse : decode [0b00000010, 0, 0, 0] = .ok (.frameParse, []) := by decide
theorem test_decode_genIv : decode [0b00000011, 0, 0, 0] = .ok (.genIv, []) := by decide
theorem test_decode_cbcEncrypt : decode [0b00000100, 0, 0, 0] = .ok (.cbcEncrypt, []) := by decide
theorem test_decode_cbcDecrypt : decode [0b00000101, 0, 0, 0] = .ok (.cbcDecrypt, []) := by decide
theorem test_decode_b64Encode : decode [0b00000110, 0, 0, 0] = .ok (.b64Encode, []) := by decide
theorem test_decode_b64Decode : decode [0b00000111, 0, 0, 0] = .ok (.b64Decode, []) := by decide
theorem test_decode_payloadEncrypt : decode [0b00001000, 0, 0, 0] = .ok (.payloadEncrypt, []) := by decide
theorem test_decode_payloadDecrypt : decode [0b00001001, 0, 0, 0, 7] = .ok (.payloadDecrypt, [7]) := by decide
theorem test_decode_short : decode [1, 0, 0] = .error .truncated := by decide
theorem test_decode_lane : decode [0, 0, 0, 1] = .error .reservedBits := by decide
theorem test_table_word : decodeTableWord 32 0x3 = some .genIv ∧ decodeTableWord 32 0xA = none := by decide

-- The primitives, from the spec's worked examples

/-- R63's examples. -/
theorem test_fieldMul : fieldMul 0x57 0x83 = 0xC1 ∧ fieldMul 0x57 0x13 = 0xFE ∧ xtime 0x57 = 0xAE := by decide +kernel
/-- R65's checks. -/
theorem test_sbox : sbox 0x00 = 0x63 ∧ sbox 0x53 = 0xED ∧ sbox 0xFF = 0x16 := by decide +kernel
/-- R67's and R68's examples: FIPS-197 Appendix B, round 1. -/
theorem test_shiftRows_mixColumns :
    let s := gridOfBytes [0xd4, 0x27, 0x11, 0xae, 0xe0, 0xbf, 0x98, 0xf1, 0xb8, 0xb4, 0x5d, 0xe5, 0x1e, 0x41, 0x52, 0x30]
    gridBytes (shiftRows s) =
        [0xd4, 0xbf, 0x5d, 0x30, 0xe0, 0xb4, 0x52, 0xae, 0xb8, 0x41, 0x11, 0xf1, 0x1e, 0x27, 0x98, 0xe5] ∧
      gridBytes (mixColumns (shiftRows s)) =
        [0x04, 0x66, 0x81, 0xe5, 0xe0, 0xcb, 0x19, 0x9a, 0x48, 0xf8, 0xd3, 0x7a, 0x28, 0x06, 0x26, 0x4c] := by
  decide +kernel
/-- R70's example: rows 1 and 10 of FIPS-197 Appendix A.1. -/
theorem test_keyExpansion :
    gridBytes (roundKey nistKey 1) =
        [0xa0, 0xfa, 0xfe, 0x17, 0x88, 0x54, 0x2c, 0xb1, 0x23, 0xa3, 0x39, 0x39, 0x2a, 0x6c, 0x76, 0x05] ∧
      gridBytes (roundKey nistKey 10) =
        [0xd0, 0x14, 0xf9, 0xa8, 0xc9, 0xee, 0x25, 0x89, 0xe1, 0x3f, 0x0c, 0xc8, 0xb6, 0x63, 0x0c, 0xa6] := by
  decide +kernel
/-- R71's example: FIPS-197 Appendix C.1. -/
theorem test_aesEnc :
    aesEnc n16 [0x00, 0x11, 0x22, 0x33, 0x44, 0x55, 0x66, 0x77, 0x88, 0x99, 0xaa, 0xbb, 0xcc, 0xdd, 0xee, 0xff] =
      [0x69, 0xc4, 0xe0, 0xd8, 0x6a, 0x7b, 0x04, 0x30, 0xd8, 0xcd, 0xb7, 0x80, 0x70, 0xb4, 0xc5, 0x5a] := by
  decide +kernel
/-- R36's example: KEY0 holds `cc 30 c6 8d` as 0x8DC630CC. -/
theorem test_lanes : (Quad.ofBytes keyA).w0 = 0x8DC630CC ∧ (Quad.ofBytes keyA).w3 = 0x12B561FA := by decide

-- One move of each command

/-- FB-1. -/
theorem test_frameBuild :
    moves .frameBuild (running 1 (.answered .filler (.ok n16)) (loaded hi))
      (fun t => out t 16 == frameHi && t.outLen == 16 && statusWord t == 0x00010002) = true := by decide +kernel
/-- R54's corner case: the empty message. -/
theorem test_frameBuild_empty :
    moves .frameBuild (running 1 .fresh (loaded [])) (fun t => t.errcode == 1 && t.request.isNone) = true := by decide +kernel
/-- FP-1. -/
theorem test_frameParse :
    moves .frameParse (running 2 .fresh (loaded frameHi))
      (fun t => out t 3 == hi ++ [0] && t.outLen == 2 && statusWord t == 0x00020002) = true := by decide +kernel
/-- FP-2: byte 2 changed to 0x05. -/
theorem test_frameParse_corrupted :
    moves .frameParse (running 2 .fresh (loaded (overwrite frameHi 2 [0x05])))
      (fun t => statusWord t == 0x00020606 && t.outLen == 0) = true := by decide +kernel
/-- GI-1. -/
theorem test_genIv :
    moves .genIv (running 3 (.answered .iv (.ok ra)) State.reset)
      (fun t => t.iv.w0 == 0xA3A2A1A0 && t.iv.w3 == 0xAFAEADAC && statusWord t == 0x00030002) = true := by decide +kernel
/-- GI-3: the key is kept. -/
theorem test_genIv_keeps_key :
    moves .genIv (running 3 (.answered .iv (.ok ra)) (keyed keyA State.reset))
      (fun t => statusWord t == 0x000300FA) = true := by decide +kernel
/-- CE-1, R60's example. -/
theorem test_cbcEncrypt :
    moves .cbcEncrypt (running 4 .fresh (withIv n16 (keyed nistKey (loaded nistPlain))))
      (fun t => out t 16 == nistCipher && t.outLen == 16 && statusWord t == 0x00040002) = true := by decide +kernel
/-- R60: a length that is no multiple of 16. -/
theorem test_cbcEncrypt_misaligned :
    moves .cbcEncrypt (running 4 .fresh (keyed nistKey (loaded hi)))
      (fun t => t.errcode == 3 && t.keyWr == 0 && t.key == Quad.zero) = true := by decide +kernel
/-- CD-1, R61's example. -/
theorem test_cbcDecrypt :
    moves .cbcDecrypt (running 5 .fresh (withIv n16 (keyed nistKey (loaded nistCipher))))
      (fun t => out t 16 == nistPlain && t.outLen == 16 && t.iv.bytes == n16) = true := by decide +kernel
/-- R61: a length that is no multiple of 16, tested before the key. -/
theorem test_cbcDecrypt_misaligned :
    moves .cbcDecrypt (running 5 .fresh (loaded hi)) (fun t => t.errcode == 5) = true := by decide +kernel
/-- BE-8: "Man". -/
theorem test_b64Encode :
    moves .b64Encode (running 6 .fresh (loaded [0x4d, 0x61, 0x6e]))
      (fun t => out t 5 == [0x54, 0x57, 0x46, 0x75, 0x00] && t.outLen == 4) = true := by decide +kernel
/-- BE-14: 3070 bytes do not fit with their terminator. -/
theorem test_b64Encode_too_long :
    moves .b64Encode (running 6 .fresh (withLen 3070)) (fun t => statusWord t == 0x00060706) = true := by decide +kernel
/-- BD-11: bytes after the first 0x00 are not read. -/
theorem test_b64Decode :
    moves .b64Decode (running 7 .fresh (loaded [0x5a, 0x67, 0x3d, 0x3d, 0x00, 0x21, 0x21]))
      (fun t => out t 1 == [0x66] && t.outLen == 1) = true := by decide +kernel
/-- BD-16: `AB=C`. -/
theorem test_b64Decode_inner_pad :
    moves .b64Decode (running 7 .fresh (loaded [0x41, 0x42, 0x3d, 0x43])) (fun t => t.errcode == 4) = true := by
  decide +kernel
/-- PE-1, from the IV's answer on: the frame of FB-1 in FRAME. -/
theorem test_payloadEncrypt :
    moves .payloadEncrypt
      { running 8 (.answered .iv (.ok ra)) (keyed keyA (loaded hi)) with
        scratch := { Scratch.unspecified with frame := .holds frameHi } }
      (fun t => out t 45 == stringHi ++ [0] && t.outLen == 44 && t.iv.bytes == ra && statusWord t == 0x00080002) = true := by
  decide +kernel
/-- R78: the filler's answer puts the frame in FRAME and asks for 16 bytes. -/
theorem test_payloadEncrypt_asks_iv :
    moves .payloadEncrypt (running 8 (.answered .filler (.ok n16)) (loaded hi))
      (fun t => t.scratch.frame == .holds frameHi && t.request == some { tag := 0, size := 16, purpose := .iv }) = true := by
  decide +kernel
/-- PD-1. -/
theorem test_payloadDecrypt :
    moves .payloadDecrypt (running 9 .fresh (keyed keyA (loaded stringHi)))
      (fun t => out t 3 == hi ++ [0] && t.outLen == 2 && t.iv.bytes == ra &&
        t.diag == [{ sev := .notice, code := 0, count := 2 }]) = true := by decide +kernel
/-- PD-2: no key; the IV is written all the same. -/
theorem test_payloadDecrypt_no_key :
    moves .payloadDecrypt (running 9 .fresh (loaded stringHi))
      (fun t => statusWord t == 0x00090306 && t.iv.bytes == ra &&
        t.diag == [{ sev := .error, code := 3, count := 0 }]) = true := by decide +kernel

-- The step

/-- A word put where the step takes its command from is run by the next step. -/
theorem test_withFetchWord :
    steps ((loaded frameHi).withFetchWord 32 0x2) (fun t => out t 2 == hi && t.outLen == 2) = true := by decide +kernel
/-- R46: an illegal word completes with code 8. -/
theorem test_illegal :
    steps (State.reset.withFetchWord 32 0xF) (fun t => statusWord t == 0x000F0806) = true := by decide +kernel
/-- R91: an answer of another length is no event of the port's protocol. -/
theorem test_short_answer :
    receiveAnswer 0 (.ok (count 0 15)) { State.reset with request := some { tag := 0, size := 16, purpose := .iv } } =
      .fault .entropyAnswerLength := by rfl
/-- R90: `irq` is DONE and IRQ_EN. -/
theorem test_irq : irq { State.reset with done := true, irqEn := true } = true ∧ irq { State.reset with done := true } = false := by
  decide

-- For each statement with hypotheses: states and operands that meet them, at the ends of their ranges

/-- From a run of a test to the next state it stands for. -/
theorem next_of_steps {s : State} {p : State → Bool} (h : steps s p = true) : ∃ t, step s = .next t ∧ p t = true := by
  unfold steps at h
  split at h
  · rename_i t ht
    exact ⟨t, ht, h⟩
  · cases h
  · cases h

/-- From a move of a test to the next state it stands for. -/
theorem next_of_moves {i : Instr} {s : State} {p : State → Bool} (h : moves i s p = true) :
    ∃ t, exec i s = .next t ∧ p t = true := by
  unfold moves at h
  split at h
  · rename_i t ht
    exact ⟨t, ht, h⟩
  · cases h
  · cases h

/-- The reset state with events to come. -/
def coming (es : List Event) : State := { State.reset with events := es }

/-- A frame command waiting for its 16 filler bytes. -/
def waiting : State :=
  { running 1 .fresh (loaded hi) with request := some { tag := 0, size := 16, purpose := .filler }, nextTag := 1 }

/-- A frame command with its answer taken and the interrupt enabled. -/
def aboutToFinish : State := { running 1 (.answered .filler (.ok n16)) (loaded hi) with irqEn := true }

theorem witness_IllegalWordsAreRejectedByName :
    (0x10#32).toNat / 16 ≠ 0 ∧ (0xFFFFFFFF#32).toNat / 16 ≠ 0 ∧ (0#32).toNat = 0 ∧
      (10 ≤ (10#32).toNat ∧ (15#32).toNat ≤ 15) ∧ (1 ≤ (1#32).toNat ∧ (9#32).toNat ≤ 9) := by decide

theorem witness_StepRunsTheDecodedCommand_event :
    let s := { running 2 .fresh (loaded frameHi) with events := [.engine] }
    s.phase = .busy 2 ∧ s.request = none ∧ decode (laneBytes 2) = .ok (.frameParse, []) ∧ s.events = .engine :: [] := by
  decide +kernel

theorem witness_StepRunsTheDecodedCommand_none :
    let s := running 9 .fresh (loaded stringHi)
    s.phase = .busy 9 ∧ s.request = none ∧ decode (laneBytes 9) = .ok (.payloadDecrypt, []) ∧ s.events = [] := by
  decide +kernel

theorem witness_StepRunsTheDecodedCommand_fetch : decodeTableWord 32 0x9 = some .payloadDecrypt := by decide

theorem witness_EveryProtocolStepGoesOn : NextEventFits { waiting with events := [.entropy 0 (.ok n16)] } := by
  intro tag a es q he hq _
  cases he
  cases hq
  decide

theorem witness_EveryProtocolStepGoesOn_stop : ∃ f, step { waiting with events := [.entropy 0 (.ok hi)] } = .fault f :=
  ⟨.entropyAnswerLength, rfl⟩

theorem witness_EngineRestsWhileIdleOrUnanswered :
    (coming [.engine]).events = .engine :: [] ∧ (coming [.engine]).phase = .idle ∧
      { waiting with events := [.engine] }.events = .engine :: [] ∧ entWait { waiting with events := [.engine] } = true := by
  decide +kernel

theorem witness_IllegalCommandCompletesWithCodeEight :
    (coming [.host (busWrite 0x00 0xA), .engine]).phase = .idle ∧
      (coming [.host (busWrite 0x00 0xA), .engine]).request = none ∧ 10 ≤ (0xA#32).toNat % 16 ∧ (0x10#32).toNat / 16 ≠ 0 ∧
      (0#32).toNat % 16 = 0 := by decide

theorem witness_CmdWriteStartsACommand : State.reset.phase = .idle ∧ busy waiting = true := by decide +kernel

theorem witness_BadAccessChangesNothing :
    (Access.read 0x00003 .bits32).offset.toNat % 4 ≠ 0 ∧ (Access.write 0x3FFFD .bits32 7).offset.toNat % 4 ≠ 0 ∧
      (Access.read 0x00000 .burst).width ≠ .bits32 := by decide

theorem witness_IdleReadsReturnTheLocation :
    State.reset.phase = .idle ∧ bufBytes State.reset = 4096 ∧
      (∀ k : Fin 4, ∃ off : Offset, off.toNat % 4 = 0 ∧ off.toNat = 0x20 + 4 * k.val) ∧
      (∀ k : Fin 4, ∃ off : Offset, off.toNat % 4 = 0 ∧ off.toNat = 0x30 + 4 * k.val) := by
  refine ⟨rfl, rfl, ?_, ?_⟩
  · intro k
    exact ⟨BitVec.ofNat 18 (0x20 + 4 * k.val), by revert k; decide⟩
  · intro k
    exact ⟨BitVec.ofNat 18 (0x30 + 4 * k.val), by revert k; decide⟩

theorem witness_windows :
    IbufOffset 4096 (0x10000#18).toNat ∧ IbufOffset 4096 (0x10FFC#18).toNat ∧ ObufOffset 4096 (0x20000#18).toNat ∧
      ObufOffset 4096 (0x20FFC#18).toNat ∧ ReservedOffset 4096 (0x14#18).toNat ∧ ReservedOffset 4096 (0x1C#18).toNat ∧
      ReservedOffset 4096 (0x40#18).toNat ∧ ReservedOffset 4096 (0xFFFC#18).toNat ∧ ReservedOffset 4096 (0x11000#18).toNat ∧
      ReservedOffset 4096 (0x1FFFC#18).toNat ∧ ReservedOffset 4096 (0x21000#18).toNat ∧
      ReservedOffset 4096 (0x3FFFC#18).toNat := by
  unfold IbufOffset ObufOffset ReservedOffset
  decide

theorem witness_IdleWritesStoreTheLocation :
    State.reset.phase = .idle ∧ (0x08#18).toNat % 4 = 0 ∧ (0xFFFFFFFD#32).getLsbD 1 = false ∧
      (0x3C#18).toNat = 0x30 + 4 * (3 : Fin 4).val ∧ (0x20#18).toNat = 0x20 + 4 * (0 : Fin 4).val := by decide

theorem witness_BusyWritesAreIgnoredOrTaken :
    busy waiting = true ∧ bufBytes waiting = 4096 ∧ (0x20 ≤ (0x20#18).toNat ∧ (0x3C#18).toNat ≤ 0x3C) ∧
      (0x10FFC#18).toNat % 4 = 0 ∧ (Access.write 0x00001 .bits32 0).offset.toNat % 4 ≠ 0 := by decide +kernel

theorem witness_BusyReadsReturnCurrentOrFreeValues :
    busy waiting = true ∧ (0x10#18).toNat % 4 = 0 ∧ (0x30 ≤ (0x30#18).toNat ∧ (0x3C#18).toNat ≤ 0x3C) ∧
      (0x20 ≤ (0x2C#18).toNat ∧ (0x2C#18).toNat ≤ 0x2C) := by decide +kernel

theorem witness_KeyBytesStayInsideKeyUsingCommands :
    (∀ cmd i, (running 1 (.answered .filler (.ok n16)) (keyed keyA (loaded hi))).phase = .busy cmd → decodeWord cmd = .ok i →
      keyUsing i = false) ∧
      ∃ t, step (running 1 (.answered .filler (.ok n16)) (keyed keyA (loaded hi))) = .next t := by
  refine ⟨?_, ?_⟩
  · intro cmd i hp hd
    cases hp
    cases (show decodeWord 1 = .ok .frameBuild by decide).symm.trans hd
    rfl
  · obtain ⟨t, ht, _⟩ := next_of_steps
      (show steps (running 1 (.answered .filler (.ok n16)) (keyed keyA (loaded hi))) (fun _ => true) = true by decide +kernel)
    exact ⟨t, ht⟩

theorem witness_IrqRisesOnlyAtCompletionOrEnable_completion :
    irq aboutToFinish = false ∧ ∃ t, step aboutToFinish = .next t ∧ irq t = true :=
  ⟨by decide +kernel, next_of_steps (by decide +kernel)⟩

theorem witness_IrqRisesOnlyAtCompletionOrEnable_enable :
    irq { coming [.host (busWrite 0x08 1)] with done := true } = false ∧
      ∃ t, step { coming [.host (busWrite 0x08 1)] with done := true } = .next t ∧ irq t = true :=
  ⟨by decide +kernel, next_of_steps (by decide +kernel)⟩

theorem witness_IrqRisesOnlyAtCompletionOrEnable_writes :
    (0x00000002#32).getLsbD 1 = true ∧ (0xFFFFFFFE#32).getLsbD 0 = false ∧ State.reset.phase = .idle := by decide

theorem witness_EntropyAnswerEndsItsOwnWait :
    { waiting with events := [.entropy 0 .fail] }.events = .entropy 0 .fail :: [] ∧
      waiting.request = some { tag := 0, size := 16, purpose := .filler } ∧ answerFits 16 .fail = true ∧
      answerFits 16 (.ok n16) = true := by decide +kernel

theorem witness_EntropyAnswerEndsItsOwnWait_late :
    ∀ q, { waiting with nextTag := 8, request := some { tag := 7, size := 16, purpose := .filler } }.request = some q →
      q.tag ≠ 0 := by
  intro q hq
  cases hq
  decide

theorem witness_EntropyRequestsAreThoseListed_first :
    (loaded hi).stage = .fresh ∧ 1 ≤ inLength (loaded hi) ∧ paddedSize (inLength (loaded hi)) ≤ bufBytes (loaded hi) ∧
      base64Length (16 + paddedSize (inLength (loaded hi))) + 1 ≤ bufBytes (loaded hi) ∧
      paddedSize (inLength (withLen 4088)) ≤ bufBytes (withLen 4088) ∧
      base64Length (16 + paddedSize (inLength (withLen 3032))) + 1 ≤ bufBytes (withLen 3032) := by decide +kernel

theorem witness_EntropyRequestsAreThoseListed_second :
    (running 8 (.answered .filler (.ok n16)) (loaded hi)).stage = .answered .filler (.ok n16) ∧
      n16.length = paddedSize (inLength (running 8 (.answered .filler (.ok n16)) (loaded hi))) := by decide +kernel

theorem witness_SoftResetEntersTheResetState : (0x00000003#32).getLsbD 1 = true := by decide

theorem witness_AnswerAfterResetIsDiscarded :
    (0x00000002#32).getLsbD 1 = true ∧
      { waiting with events := [.host (busWrite 0x08 2), .entropy 0 (.ok n16)] }.events =
        .host (busWrite 0x08 2) :: .entropy 0 (.ok n16) :: [] := by decide +kernel

/-- The abandoned request has the tag 0, and the request of the command that follows the tag 1. -/
theorem witness_AnswerAfterResetIsDiscarded_later :
    waiting.request = some { tag := 0, size := 16, purpose := .filler } ∧ 0 < waiting.nextTag ∧
      ∃ t, step { waiting with events := [.host (busWrite 0x08 2), .host (busWrite 0x00 3), .engine, .entropy 0 (.ok n16)] } =
          .next t ∧
        ∃ u, Sys2Proof.core.run 2 t = .next u ∧ u.events = .entropy 0 (.ok n16) :: [] ∧
          u.request = some { tag := 1, size := 16, purpose := .iv } :=
  ⟨rfl, by decide, _, rfl, _, rfl, rfl, rfl⟩

theorem witness_AnswerAfterResetIsDiscarded_powerOn :
    ∃ t, step { waiting with events := [.powerOn, .entropy 0 .fail] } = .next t ∧ Sys2Proof.core.run 0 t = .next t ∧
      t.events = .entropy 0 .fail :: [] :=
  ⟨_, rfl, rfl, rfl⟩

theorem witness_ResetStateValues : { waiting with events := [.powerOn] }.events = .powerOn :: [] := by decide +kernel

theorem witness_SinkChangesNoEngineState : (coming [.sink true]).events = .sink true :: [] := by decide

theorem witness_FrameBuildWritesTheFrame :
    let s := running 1 (.answered .filler (.ok n16)) (loaded hi)
    1 ≤ inLength s ∧ paddedSize (inLength s) ≤ bufBytes s ∧ s.stage = .answered .filler (.ok n16) ∧
      n16.length = paddedSize (inLength s) := by decide +kernel

theorem witness_FrameBuildFailsInItsOrder :
    bufBytes (withLen 4097) < inLength (withLen 4097) ∧ inLength (withLen 0) = 0 ∧
      (1 ≤ inLength (withLen 4089) ∧ inLength (withLen 4096) ≤ bufBytes (withLen 4096) ∧
        bufBytes (withLen 4089) < paddedSize (inLength (withLen 4089))) ∧
      (1 ≤ inLength (withLen 1) ∧ paddedSize (inLength (withLen 4088)) ≤ bufBytes (withLen 4088)) ∧
      (running 1 (.answered .filler .fail) (loaded hi)).stage = .answered .filler .fail := by decide +kernel

theorem witness_FrameParseWritesTheMessage :
    let s := running 2 .fresh (loaded frameHi)
    inLength s ≤ bufBytes s ∧ 8 ≤ inLength s ∧ inLength s % 16 = 0 ∧ ibufByte s 0 = ibufByte s 2 ∧
      ibufByte s 1 = ibufByte s 3 ∧
      2 = (ibufByte s 4).toNat * 2 ^ 24 + (ibufByte s 5).toNat * 2 ^ 16 + (ibufByte s 6).toNat * 2 ^ 8 +
        (ibufByte s 7).toNat ∧ 8 + 2 ≤ inLength s := by decide +kernel

theorem witness_FrameParseFailsInItsOrder_size :
    bufBytes (withLen 4097) < inLength (withLen 4097) ∧ inLength (withLen 0) < 8 ∧ inLength (withLen 7) < 8 ∧
      inLength (withLen 8) % 16 ≠ 0 ∧ inLength (withLen 7) ≤ bufBytes (withLen 7) := by decide +kernel

theorem witness_FrameParseFailsInItsOrder_pattern :
    let s := loaded (overwrite frameHi 3 [0x04])
    inLength s ≤ bufBytes s ∧ 8 ≤ inLength s ∧ inLength s % 16 = 0 ∧ ibufByte s 1 ≠ ibufByte s 3 := by decide +kernel

theorem witness_FrameParseFailsInItsOrder_length :
    let s := loaded (overwrite frameHi 7 [0x09])
    inLength s ≤ bufBytes s ∧ 8 ≤ inLength s ∧ inLength s % 16 = 0 ∧ ibufByte s 0 = ibufByte s 2 ∧
      ibufByte s 1 = ibufByte s 3 ∧
      inLength s < 8 + ((ibufByte s 4).toNat * 2 ^ 24 + (ibufByte s 5).toNat * 2 ^ 16 + (ibufByte s 6).toNat * 2 ^ 8 +
        (ibufByte s 7).toNat) := by decide +kernel

theorem witness_GenIvLoadsTheAnswer :
    (running 3 (.answered .iv (.ok ra)) State.reset).stage = .answered .iv (.ok ra) ∧ ra.length = 16 ∧
      (running 3 (.answered .iv .fail) State.reset).stage = .answered .iv .fail := by decide +kernel

theorem witness_CbcEncryptWritesTheCiphertext :
    let s := withIv n16 (keyed nistKey (loaded nistPlain))
    inLength s ≤ bufBytes s ∧ inLength s % 16 = 0 ∧ s.keyWr = 0b1111 := by decide +kernel

theorem witness_CbcDecryptWritesThePlaintext :
    let s := withIv n16 (keyed nistKey (loaded nistCipher))
    inLength s ≤ bufBytes s ∧ inLength s % 16 = 0 ∧ s.keyWr = 0b1111 := by decide +kernel

theorem witness_CbcCommandsFailInTheirOrder :
    bufBytes (withLen 4097) < inLength (withLen 4097) ∧
      (inLength (withLen 4095) ≤ bufBytes (withLen 4095) ∧ inLength (withLen 4095) % 16 ≠ 0) ∧
      (inLength (loaded nistPlain) ≤ bufBytes (loaded nistPlain) ∧ inLength (loaded nistPlain) % 16 = 0 ∧
        (loaded nistPlain).keyWr ≠ 0b1111) := by decide +kernel

theorem witness_B64EncodeWritesTheString :
    base64Length (inLength (withLen 3069)) + 1 ≤ bufBytes (withLen 3069) ∧
      base64Length (inLength (loaded hi)) + 1 ≤ bufBytes (loaded hi) ∧
      bufBytes (withLen 3070) < base64Length (inLength (withLen 3070)) + 1 := by decide +kernel

theorem witness_B64DecodeWritesTheBytes :
    let s := loaded [0x5a, 0x67, 0x3d, 0x3d, 0x00]
    inLength s ≤ bufBytes s ∧ base64Decode (stringOf s) = .ok [0x66] ∧ bufBytes (withLen 4097) < inLength (withLen 4097) := by
  decide +kernel

theorem witness_B64DecodeWritesTheBytes_error :
    inLength (loaded hi) ≤ bufBytes (loaded hi) ∧ ∀ d, base64Decode (stringOf (loaded hi)) ≠ .ok d := by
  refine ⟨by decide +kernel, ?_⟩
  intro d h
  cases (show base64Decode (stringOf (loaded hi)) = .error .decodeError by decide +kernel).symm.trans h

theorem witness_PayloadEncryptWritesTheTransportString :
    let s := { running 8 (.answered .iv (.ok ra)) (keyed keyA (loaded hi)) with
      scratch := { Scratch.unspecified with frame := .holds frameHi } }
    1 ≤ inLength s ∧ base64Length (16 + paddedSize (inLength s)) + 1 ≤ bufBytes s ∧ s.stage = .answered .iv (.ok ra) ∧
      ra.length = 16 ∧ s.scratch.frame = .holds frameHi ∧ frameHi.length = paddedSize (inLength s) ∧ s.keyWr = 0b1111 := by
  decide +kernel

theorem witness_PayloadEncryptFailsInItsOrder :
    bufBytes (withLen 4097) < inLength (withLen 4097) ∧ inLength (withLen 0) = 0 ∧
      (1 ≤ inLength (withLen 3033) ∧ inLength (withLen 4096) ≤ bufBytes (withLen 4096) ∧
        bufBytes (withLen 3033) < base64Length (16 + paddedSize (inLength (withLen 3033))) + 1) ∧
      base64Length (16 + paddedSize (inLength (withLen 3032))) + 1 ≤ bufBytes (withLen 3032) := by decide +kernel

theorem witness_PayloadEncryptFailsInItsOrder_answers :
    (running 8 (.answered .filler .fail) (loaded hi)).stage = .answered .filler .fail ∧
      (running 8 (.answered .iv (.ok ra)) (loaded hi)).stage = .answered .iv (.ok ra) ∧ ra.length = 16 ∧
      (running 8 (.answered .iv (.ok ra)) (loaded hi)).keyWr ≠ 0b1111 := by decide +kernel

theorem witness_PayloadDecryptWritesTheMessage :
    let s := keyed keyA (loaded stringHi)
    let env := ra ++ cipherHi
    inLength s ≤ bufBytes s ∧ base64Decode (stringOf s) = .ok env ∧ 16 < env.length ∧ env.length % 16 = 0 ∧
      s.keyWr = 0b1111 ∧ parseFrame (cbcDec s.key.bytes (env.take 16) (env.drop 16)) = .ok hi := by decide +kernel

theorem witness_PayloadDecryptFailsInItsOrder_decode :
    bufBytes (withLen 4097) < inLength (withLen 4097) ∧
      (inLength (loaded hi) ≤ bufBytes (loaded hi) ∧ ∀ d, base64Decode (stringOf (loaded hi)) ≠ .ok d) :=
  ⟨by decide +kernel, witness_B64DecodeWritesTheBytes_error⟩

theorem witness_PayloadDecryptFailsInItsOrder_envelope :
    base64Decode (stringOf (loaded (base64Encode ra))) = .ok ra ∧ ra.length ≤ 16 ∧
      base64Decode (stringOf (loaded (base64Encode (count 1 17)))) = .ok (count 1 17) ∧ (count 1 17).length % 16 ≠ 0 := by
  decide +kernel

theorem witness_PayloadDecryptFailsInItsOrder_key :
    let s := loaded stringHi
    let env := ra ++ cipherHi
    base64Decode (stringOf s) = .ok env ∧ 16 < env.length ∧ env.length % 16 = 0 ∧ s.keyWr ≠ 0b1111 := by decide +kernel

theorem witness_PayloadDecryptFailsInItsOrder_frame :
    let s := keyed nistKey (loaded stringHi)
    let env := ra ++ cipherHi
    s.keyWr = 0b1111 ∧ parseFrame (cbcDec s.key.bytes (env.take 16) (env.drop 16)) = .error .corrupted := by decide +kernel

theorem witness_KeyUsingCompletionClearsTheKey :
    ∃ t, exec .cbcEncrypt (running 4 .fresh (keyed nistKey (loaded nistPlain))) = .next t ∧ (t.phase == .idle) = true :=
  next_of_moves (by decide +kernel)

theorem witness_KeyUsingCompletionClearsTheKey_kept :
    (∃ t, exec .payloadEncrypt (running 8 .fresh (keyed keyA (loaded hi))) = .next t ∧ (t.phase != .idle) = true) ∧
      keyUsing .frameParse = false ∧ 10 ≤ (0xA#32).toNat % 16 ∧ (∃ t, runCommand 0xA (keyed keyA (loaded hi)) = .next t) ∧
      (0b0111#4).getLsbD 3 = false :=
  ⟨next_of_moves (by decide +kernel), rfl, by decide, ⟨_, rfl⟩, by decide⟩

theorem witness_CommandMoveFrame :
    (running 1 .fresh (loaded hi)).phase = .busy 1 ∧
      (∃ t, exec .frameBuild (running 1 .fresh (loaded hi)) = .next t ∧ (t.phase != .idle) = true) ∧
      ∃ t, exec .frameParse (running 2 .fresh (loaded frameHi)) = .next t ∧ (t.phase == .idle) = true :=
  ⟨rfl, next_of_moves (by decide +kernel), next_of_moves (by decide +kernel)⟩

theorem witness_BigEndianLengthReadsBack : 0 < 2 ^ 32 ∧ 0xFFFFFFFF < 2 ^ 32 := by decide

theorem witness_ParseFrameInvertsBuildFrame :
    1 ≤ hi.length ∧ 8 + hi.length < 2 ^ 32 ∧ n16.length = paddedSize hi.length := by decide

theorem witness_InvMixColumnsUndoesMixColumns : 0 < 7 ∧ 6 < 7 ∧ 0 < 4 ∧ 3 < 4 := by decide

theorem witness_AesRunsItsRounds :
    nistKey.length = 16 ∧ (0 < 4 ∧ 3 < 4) ∧ (4 ≤ 4 ∧ 4 % 4 = 0 ∧ 43 < 44 ∧ 43 % 4 ≠ 0 ∧ 40 % 4 = 0) := by decide

theorem witness_AesDecryptInvertsEncrypt : nistPlain.length = 16 := by decide

theorem witness_CbcEncryptChains :
    (nistPlain ++ nistPlain).length % 16 = 0 ∧ 16 ≤ nistPlain.length ∧ 16 * (0 + 2) ≤ (nistPlain ++ nistPlain).length := by
  decide

theorem witness_CbcDecryptInvertsEncrypt : n16.length = 16 ∧ nistPlain.length % 16 = 0 := by decide

theorem witness_CbcDecryptSpreadsAFlip :
    n16.length = 16 ∧ ra.length = 16 ∧ (nistCipher ++ nistCipher).length % 16 = 0 ∧ 16 ≤ nistCipher.length ∧
      16 * (0 + 1) ≤ (nistCipher ++ nistCipher).length ∧ 16 * (1 + 1) ≤ (nistCipher ++ nistCipher).length ∧ 1 ≠ 0 := by
  decide

theorem witness_Base64DecodeAcceptsExactly :
    base64Decode stringHi = .ok (ra ++ cipherHi) ∧ base64Decode hi = .error .decodeError ∧
      3 * 0 + 0 < (ra ++ cipherHi).length ∧ 3 * 10 + 1 < (ra ++ cipherHi).length := by decide +kernel

/-- BD-6: `QR==` decodes as `QQ==`; the leftover bits of a last group do not count. -/
theorem test_b64Decode_leftover :
    base64Decode [0x51, 0x52, 0x3d, 0x3d] = .ok [0x41] ∧ base64Decode [0x51, 0x51, 0x3d, 0x3d] = .ok [0x41] ∧
      groupNumber [0x51, 0x52, 0x3d, 0x3d] 0 ≠ groupNumber [0x51, 0x51, 0x3d, 0x3d] 0 := by decide +kernel

theorem witness_Base64DecodeInvertsEncode : hi.length % 3 ≠ 0 ∧ ([] : List Byte).length % 3 = 0 ∧ (count 0 6).length % 3 = 0 := by
  decide

theorem witness_Base64AlphabetIsTheTable : b64Value 0x2F = some 63 ∧ b64Value 0x41 = some 0 := by decide

theorem witness_PayloadRoundTrip :
    let s := running 8 .fresh (keyed keyA (loaded hi))
    let u := keyed keyA (loaded stringHi)
    s.stage = .fresh ∧ 1 ≤ inLength s ∧ base64Length (16 + paddedSize (inLength s)) + 1 ≤ bufBytes s ∧ s.keyWr = 0b1111 ∧
      n16.length = paddedSize (inLength s) ∧ ra.length = 16 ∧ u.config = s.config ∧ u.key = s.key ∧ u.keyWr = 0b1111 ∧
      messageOf u = stringHi := by decide +kernel

theorem witness_LengthLimits : (withLen 4088).stage = .fresh ∧ (withLen 4088).request = none := by decide +kernel

theorem witness_StepKeepsStatusInv : StatusInv aboutToFinish ∧ ∃ t, step aboutToFinish = .next t ∧ t.done = true := by
  refine ⟨⟨?_, by decide +kernel, ?_⟩, next_of_steps (by decide +kernel)⟩
  · intro cmd h
    cases h
    decide +kernel
  · intro h
    cases h

theorem witness_StepKeepsKeyInv :
    KeyInv { coming [.host (busWrite 0x2C 7)] with keyWr := 0b0111, key := { w0 := 1, w1 := 2, w2 := 3, w3 := 0 } } ∧
      ∃ t, step { coming [.host (busWrite 0x2C 7)] with keyWr := 0b0111, key := { w0 := 1, w1 := 2, w2 := 3, w3 := 0 } } =
        .next t ∧ (t.keyWr == 0b1111) = true := by
  refine ⟨?_, next_of_steps (by decide +kernel)⟩
  unfold KeyInv
  decide +kernel

theorem witness_StepKeepsProgressInv :
    ProgressInv { waiting with events := [.entropy 0 (.ok n16)] } ∧
      ∃ t, step { waiting with events := [.entropy 0 (.ok n16)] } = .next t ∧
        (t.stage == .answered .filler (.ok n16)) = true := by
  refine ⟨⟨?_, ?_, ?_, ?_⟩, next_of_steps (by decide +kernel)⟩
  · intro h
    cases h
  · intro q h
    cases h
    exact ⟨⟨1, .frameBuild, rfl, by decide, by decide +kernel⟩, by decide, by decide +kernel, by decide⟩
  · intro p r h
    cases h
  · intro cmd h hd
    cases h
    cases (show decodeWord 1 = .ok .frameBuild by decide).symm.trans hd

theorem witness_StepKeepsBufferInv :
    ProgressInv (coming [.host (busWrite 0x10FFC 7)]) ∧ BufferInv (coming [.host (busWrite 0x10FFC 7)]) ∧
      ∃ t, step (coming [.host (busWrite 0x10FFC 7)]) = .next t ∧ (t.mem.length == 4) = true := by
  refine ⟨⟨fun _ => ⟨rfl, rfl, rfl⟩, ?_, ?_, ?_⟩, ⟨rfl, ?_, by decide⟩, next_of_steps (by decide +kernel)⟩
  · intro q h
    cases h
  · intro p r h
    cases h
  · intro cmd h
    cases h
  · intro c h
    cases h

theorem witness_StepKeepsDiagInvAndConfig :
    DiagInv (running 1 .fresh (loaded [])) ∧
      ∃ t, step (running 1 .fresh (loaded [])) = .next t ∧ (t.diag == [{ sev := .error, code := 1, count := 0 }]) = true := by
  refine ⟨?_, next_of_steps (by decide +kernel)⟩
  intro e h
  cases h

end Sys2Proof.Tests
end

section
/-! Proofs of the family 00_scope: the engine's step (R41, R44), big-endian lengths (R10), the length limits (R7), and what
every step keeps of the diagnostic port (R92) and of the configuration (R6). -/

namespace Sys2Proof.Machine

-- The engine's step (R13, R41, R44)

/-- A step whose next event is the engine's own is the engine's move, that event taken off. -/
theorem step_of_engine_event {s : State} {es : List Event} (h : s.events = .engine :: es) :
    step s = engineMove (s.withEvents es) := by
  simp only [step, h]

/-- With no event left the engine moves. -/
theorem step_of_no_event {s : State} (h : s.events = []) : step s = engineMove s := by
  simp only [step, h]

/-- While a command runs and no request is unanswered, the engine's move is that command's. -/
theorem engineMove_of_busy {s : State} {cmd : Word} (hp : s.phase = .busy cmd) (hr : s.request = none) :
    engineMove s = runCommand cmd s := by
  simp [engineMove, hp, entWait, hr]

/-- A word whose bytes decode to a command runs that command. -/
theorem runCommand_of_decode {cmd : Word} {i : Instr} {rest : List Byte} (h : decode (laneBytes cmd) = .ok (i, rest))
    (s : State) : runCommand cmd s = exec i s := by
  simp only [runCommand, commandBytes, h]

/-- The engine's move on the command that the running word decodes to. -/
theorem engineMove_of_decode {s : State} {cmd : Word} {i : Instr} {rest : List Byte} (hp : s.phase = .busy cmd)
    (hr : s.request = none) (hd : decode (laneBytes cmd) = .ok (i, rest)) : engineMove s = exec i s :=
  (engineMove_of_busy hp hr).trans (runCommand_of_decode hd s)

/-- The table decoder answers what the byte decoder reads from the bus's bytes of the word. -/
theorem decode_of_decodeTableWord {nbits w : Nat} {i : Instr} (h : decodeTableWord nbits w = some i) :
    ∃ rest, decode (laneBytes (BitVec.ofNat 32 (w % 2 ^ nbits))) = .ok (i, rest) := by
  unfold decodeTableWord at h
  split at h
  next j rest hd =>
    cases h
    exact ⟨rest, hd⟩
  next => cases h

/-- Settles O4: the step is the engine's move, and the engine's move is that of the command its word decodes to. -/
theorem stepRunsTheDecodedCommand : Obligations.StepRunsTheDecodedCommand := by
  refine ⟨fun s cmd i hp hr hd => ⟨fun es he => ?_, fun he => ?_⟩, fun s nbits w i hw => ?_⟩
  · rw [step_of_engine_event he]
    exact engineMove_of_decode hp hr hd
  · rw [step_of_no_event he]
    exact engineMove_of_decode hp hr hd
  · obtain ⟨rest, hd⟩ := decode_of_decodeTableWord hw
    have he : (s.withFetchWord nbits w).events = .engine :: s.events := rfl
    rw [step_of_engine_event he]
    exact engineMove_of_decode rfl rfl hd

-- Big-endian lengths (R10)

/-- Eight bits of the word of a number, from bit `k` on, are its quotient by `2 ^ k`, cut to a byte. -/
theorem extractLsb'_ofNat_byte {n : Nat} (hn : n < 2 ^ 32) (k : Nat) :
    (BitVec.ofNat 32 n).extractLsb' k 8 = BitVec.ofNat 8 (n / 2 ^ k) := by
  apply BitVec.eq_of_toNat_eq
  rw [BitVec.extractLsb'_toNat, BitVec.toNat_ofNat, BitVec.toNat_ofNat, Nat.mod_eq_of_lt hn, Nat.shiftRight_eq_div_pow]

/-- `be32` is the four quotients, most significant first. -/
theorem be32_eq {n : Nat} (hn : n < 2 ^ 32) :
    be32 n = [BitVec.ofNat 8 (n / 2 ^ 24), BitVec.ofNat 8 (n / 2 ^ 16), BitVec.ofNat 8 (n / 2 ^ 8), BitVec.ofNat 8 n] := by
  simp only [be32, extractLsb'_ofNat_byte hn, Nat.pow_zero, Nat.div_one]

/-- `rd_be32` of four bytes is the number they make, the first byte the most significant. -/
theorem readBe32_four (b0 b1 b2 b3 : Byte) :
    readBe32 [b0, b1, b2, b3] 0 = b0.toNat * 2 ^ 24 + b1.toNat * 2 ^ 16 + b2.toNat * 2 ^ 8 + b3.toNat := by
  have h : readBe32 [b0, b1, b2, b3] 0 = (wordOfLanes b3 b2 b1 b0).toNat := rfl
  rw [h, wordOfLanes_toNat]
  omega

/-- `rd_be32` undoes `be32` on every 32-bit number. -/
theorem readBe32_be32 {n : Nat} (hn : n < 2 ^ 32) : readBe32 (be32 n) 0 = n := by
  simp only [be32_eq hn, readBe32_four, BitVec.toNat_ofNat]
  omega

/-- Settles O41: the bytes of `be32`, what `rd_be32` makes of four bytes, and the two together. -/
theorem bigEndianLengthReadsBack : Obligations.BigEndianLengthReadsBack :=
  fun _ hn => ⟨be32_eq hn, readBe32_be32 hn, readBe32_four⟩

-- The length limits (R7)

/-- A frame holds its 8 bytes of header and its message (R48). -/
theorem add_eight_le_paddedSize (n : Nat) : n + 8 ≤ paddedSize n := by
  unfold paddedSize roundUp
  omega

/-- Base64 never shortens a string (R74). -/
theorem le_base64Length (n : Nat) : n ≤ base64Length n := by
  unfold base64Length
  omega

theorem reference_bufBytes : Config.reference.bufBytes = 4096 := rfl

theorem paddedSize_le_reference (n : Nat) : paddedSize n ≤ Config.reference.bufBytes ↔ n ≤ 4088 := by
  rw [reference_bufBytes]
  unfold paddedSize roundUp
  omega

theorem base64Length_lt_reference (n : Nat) : base64Length n + 1 ≤ Config.reference.bufBytes ↔ n ≤ 3069 := by
  rw [reference_bufBytes]
  unfold base64Length
  omega

/-- The transport string of a payload fits the reference buffer up to a message of 3032 bytes: its envelope has at most 3069
bytes, so at most 3056 by whole blocks. -/
theorem payloadLength_lt_reference (n : Nat) :
    base64Length (16 + paddedSize n) + 1 ≤ Config.reference.bufBytes ↔ n ≤ 3032 := by
  rw [base64Length_lt_reference]
  unfold paddedSize roundUp
  omega

/-- The move answers a state with an entropy request outstanding. -/
def AsksEntropy (o : Host.Outcome State Fault Refusal) : Prop := ∃ t, o = .next t ∧ t.request ≠ none

/-- The move answers a state with ERR = 0. -/
def EndsWithoutErr (o : Host.Outcome State Fault Refusal) : Prop := ∃ t, o = .next t ∧ t.err = false

theorem asksEntropy_requestEntropy (p : Purpose) (n : Nat) (s : State) : AsksEntropy (.next (requestEntropy p n s)) :=
  ⟨_, rfl, by simp⟩

theorem not_asksEntropy_raiseError (i : Instr) (code : ErrorCode) (iv : Option (List Byte)) (s : State) :
    ¬ AsksEntropy (raiseError i code iv s) := by
  rintro ⟨t, h, hr⟩
  cases h
  exact hr (failCompletion_request _ _ _ _)

theorem endsWithoutErr_finishOk (i : Instr) (out : List Byte) (nul : Bool) (iv : Option (List Byte)) (s : State) :
    EndsWithoutErr (finishOk i out nul iv s) :=
  ⟨_, rfl, successCompletion_err _ _ _ _ _⟩

theorem not_endsWithoutErr_raiseError (i : Instr) (code : ErrorCode) (iv : Option (List Byte)) (s : State) :
    ¬ EndsWithoutErr (raiseError i code iv s) := by
  rintro ⟨t, h, he⟩
  cases h
  simp at he

/-- FRAME_BUILD accepts a length when the frame fits OBUF (R7, R54): its first length test is implied by its third. -/
theorem asksEntropy_frameBuild_iff {s : State} (hf : s.stage = .fresh) :
    AsksEntropy (exec .frameBuild s) ↔ 1 ≤ inLength s ∧ paddedSize (inLength s) ≤ bufBytes s := by
  have hpad := add_eight_le_paddedSize (inLength s)
  simp only [exec, execFrameBuild, hf]
  split
  next h => exact iff_of_false (not_asksEntropy_raiseError _ _ _ _) (by omega)
  split
  next h => exact iff_of_false (not_asksEntropy_raiseError _ _ _ _) (by omega)
  split
  next h => exact iff_of_false (not_asksEntropy_raiseError _ _ _ _) (by omega)
  next => exact iff_of_true (asksEntropy_requestEntropy _ _ _) (by omega)

/-- B64_ENCODE accepts a length when the string and its terminator fit OBUF (R7, R76). -/
theorem endsWithoutErr_b64Encode_iff (s : State) :
    EndsWithoutErr (exec .b64Encode s) ↔ base64Length (inLength s) + 1 ≤ bufBytes s := by
  have hlen := le_base64Length (inLength s)
  simp only [exec, execB64Encode]
  split
  next h => exact iff_of_false (not_endsWithoutErr_raiseError _ _ _ _) (by omega)
  split
  next h => exact iff_of_false (not_endsWithoutErr_raiseError _ _ _ _) (by omega)
  next => exact iff_of_true (endsWithoutErr_finishOk _ _ _ _ _) (by omega)

/-- PAYLOAD_ENCRYPT accepts a length when the transport string of the whole envelope and its terminator fit OBUF (R7,
R78). -/
theorem asksEntropy_payloadEncrypt_iff {s : State} (hf : s.stage = .fresh) :
    AsksEntropy (exec .payloadEncrypt s) ↔
      1 ≤ inLength s ∧ base64Length (16 + paddedSize (inLength s)) + 1 ≤ bufBytes s := by
  have hpad := add_eight_le_paddedSize (inLength s)
  have hlen := le_base64Length (16 + paddedSize (inLength s))
  simp only [exec, execPayloadEncrypt, hf]
  split
  next h => exact iff_of_false (not_asksEntropy_raiseError _ _ _ _) (by omega)
  split
  next h => exact iff_of_false (not_asksEntropy_raiseError _ _ _ _) (by omega)
  split
  next h => exact iff_of_false (not_asksEntropy_raiseError _ _ _ _) (by omega)
  next => exact iff_of_true (asksEntropy_requestEntropy _ _ _) (by omega)

/-- Settles O53: what each of the three commands accepts, then the arithmetic for `BUF_BYTES` = 4096. -/
theorem lengthLimits : Obligations.LengthLimits :=
  ⟨fun s hf _ => ⟨asksEntropy_frameBuild_iff hf, endsWithoutErr_b64Encode_iff s, asksEntropy_payloadEncrypt_iff hf⟩,
    fun n => ⟨paddedSize_le_reference n, base64Length_lt_reference n, payloadLength_lt_reference n⟩⟩

-- The diagnostic port and the configuration (R6, R92)

/-- An event that R92 lists: `(ERROR, code, 0)` with a code of R82, or `(NOTICE, 0, L)`. -/
def ListedDiag (e : DiagEvent) : Prop :=
  (e.sev = .error ∧ 1 ≤ e.code.toNat ∧ e.code.toNat ≤ 8 ∧ e.count = 0) ∨ (e.sev = .notice ∧ e.code = 0)

theorem diagInv_iff (s : State) : DiagInv s ↔ ∀ e ∈ s.diag, ListedDiag e := Iff.rfl

/-- What any move does to the port and the configuration: it keeps the configuration, and an event on the port after it was
there before or is one of R92. -/
structure PortMove (s t : State) : Prop where
  config : t.config = s.config
  diag : ∀ e ∈ t.diag, e ∈ s.diag ∨ ListedDiag e

theorem PortMove.diagInv {s t : State} (h : PortMove s t) (hs : DiagInv s) : DiagInv t :=
  (diagInv_iff t).2 fun e he => (h.diag e he).elim ((diagInv_iff s).1 hs e) id

/-- A move that leaves the port alone. -/
theorem PortMove.of_diag_eq {s t : State} (hc : t.config = s.config) (hd : t.diag = s.diag) : PortMove s t :=
  ⟨hc, fun _ he => .inl (hd ▸ he)⟩

/-- A move that puts listed events behind those on the port. -/
theorem PortMove.of_diag_append {s t : State} {new : List DiagEvent} (hc : t.config = s.config)
    (hd : t.diag = s.diag ++ new) (hn : ∀ e ∈ new, ListedDiag e) : PortMove s t :=
  ⟨hc, fun e he => (List.mem_append.mp (hd ▸ he)).imp id (hn e)⟩

/-- Taking an event off the list of those to come is no part of what a move does to the port. -/
theorem PortMove.of_withEvents {s t : State} {es : List Event} (h : PortMove (s.withEvents es) t) : PortMove s t :=
  ⟨h.config, h.diag⟩

/-- Every error code is one of the codes 1 to 8 of R82. -/
theorem listedDiag_error (code : ErrorCode) : ListedDiag { sev := .error, code := errorNumber code, count := 0 } := by
  refine .inl ⟨rfl, ?_, ?_, rfl⟩ <;> cases code <;> decide

theorem failCompletion_portMove (b : Bool) (code : ErrorCode) (iv : Option (List Byte)) (s : State) :
    PortMove s (failCompletion b code iv s) :=
  .of_diag_append (failCompletion_config _ _ _ _) (failCompletion_diag _ _ _ _) fun e he => by
    obtain rfl := List.mem_singleton.mp he
    exact listedDiag_error code

theorem successCompletion_portMove (i : Instr) (out : List Byte) (nul : Bool) (iv : Option (List Byte)) (s : State) :
    PortMove s (successCompletion i out nul iv s) :=
  .of_diag_append (successCompletion_config _ _ _ _ _) (successCompletion_diag _ _ _ _ _) fun e he => by
    split at he
    · obtain rfl := List.mem_singleton.mp he
      exact .inr ⟨rfl, rfl⟩
    · cases he

theorem exec_portMove {i : Instr} {s t : State} (h : exec i s = .next t) : PortMove s t := by
  rcases exec_cases i s with ⟨p, n, sc, hx⟩ | ⟨out, nul, iv, hx⟩ | ⟨code, iv, hx⟩ <;> cases hx.symm.trans h
  · exact .of_diag_eq rfl rfl
  · exact successCompletion_portMove i out nul iv s
  · exact failCompletion_portMove (keyUsing i) code iv s

theorem runCommand_portMove {cmd : Word} {s t : State} (h : runCommand cmd s = .next t) : PortMove s t := by
  rw [runCommand_eq] at h
  split at h
  · exact exec_portMove h
  · cases h
    exact failCompletion_portMove false .illegalCommand none s

theorem engineMove_portMove {s t : State} (h : engineMove s = .next t) : PortMove s t := by
  rcases engineMove_cases s with ⟨-, hx⟩ | ⟨cmd, -, -, hx⟩ <;> rw [hx] at h
  · cases h
    exact .of_diag_eq rfl rfl
  · exact runCommand_portMove h

theorem receiveAnswer_portMove {tag : Nat} {a : Answer} {s t : State} (h : receiveAnswer tag a s = .next t) :
    PortMove s t := by
  rcases receiveAnswer_cases h with ⟨q, -, -, -, rfl⟩ | ⟨rfl, -⟩ <;> exact .of_diag_eq rfl rfl

/-- No write of the host touches the port or the configuration. -/
theorem writeTarget_config_diag (x : Target) (v : Word) (s : State) :
    (writeTarget x v s).config = s.config ∧ (writeTarget x v s).diag = s.diag := by
  rcases writeTarget_cases x v s with h | ⟨-, h⟩ | ⟨-, h⟩ | ⟨-, -, h⟩ | ⟨-, -, h⟩ |
    ⟨-, ⟨-, h⟩ | ⟨-, h⟩ | ⟨k, -, h⟩ | ⟨k, -, h⟩ | ⟨i, -, h⟩⟩ <;> rw [h] <;> exact ⟨rfl, rfl⟩

theorem hostAccess_portMove (a : Access) (s : State) : PortMove s (hostAccess a s) := by
  rcases hostAccess_cases a s with ⟨-, h⟩ | ⟨-, off, w, -, h⟩ | ⟨-, off, w, v, -, h⟩ <;> rw [h]
  · exact .of_diag_eq rfl rfl
  · rcases readTarget_cases (accessTarget a s) s with ⟨-, -, hr⟩ | ⟨-, hr⟩ <;> rw [hr] <;> exact .of_diag_eq rfl rfl
  · obtain ⟨hc, hd⟩ := writeTarget_config_diag (accessTarget a s) v s
    exact .of_diag_eq hc hd

/-- The sink only takes events off the port. -/
theorem sinkMove_portMove (s : State) : PortMove s (sinkMove s) := ⟨rfl, fun _ he => .inl (List.mem_of_mem_drop he)⟩

theorem step_portMove {s t : State} (h : step s = .next t) : PortMove s t := by
  rcases step_cases h with ⟨es, hm⟩ | ⟨a, es, rfl⟩ | ⟨tag, a, es, -, hm⟩ | ⟨es, rfl⟩ | ⟨es, rfl⟩
  · exact (engineMove_portMove hm).of_withEvents
  · exact (hostAccess_portMove a _).of_withEvents
  · exact (receiveAnswer_portMove hm).of_withEvents
  · exact (sinkMove_portMove _).of_withEvents
  · exact .of_diag_eq rfl rfl

/-- Settles O58: every step is a `PortMove`. -/
theorem stepKeepsDiagInvAndConfig : Obligations.StepKeepsDiagInvAndConfig :=
  fun _ _ hs h => ⟨(step_portMove h).diagInv hs, (step_portMove h).config⟩

end Sys2Proof.Machine
end

section
/-! Proofs of the family 10_state, first part: what one event does to the engine (R13, R41), and the invariants every step
keeps: STATUS (R20, R82, R84), the key (R24, R88), the entropy port (R47, R91) and the buffers (R23, R26, R27, R35). -/

namespace Sys2Proof.Machine

-- What one event does

/-- Everything one event does to the engine, the event list and the bus's answer left aside: the engine rests, the running
command or an illegal value takes its move, an answer ends its wait, the sink takes an event, a reset, a free value is
drawn for a read, or a write of the host is ignored or taken. -/
inductive Move (s : State) : State → Prop
  | rest : Move s s
  | command {cmd : Word} {i : Instr} {t : State} (hp : s.phase = .busy cmd) (hr : s.request = none)
      (hd : decodeWord cmd = .ok i) (hx : exec i s = .next t) : Move s t
  | illegal : Move s (completeIllegal s)
  | answer {q : Request} {a : Answer} (hq : s.request = some q) (hf : answerFits q.size a = true) :
      Move s { s with request := none, stage := .answered q.purpose a }
  | sink : Move s (sinkMove s)
  | reset : Move s (enterReset s)
  | draw : Move s { s with draws := s.draws + 1 }
  | ignore : Move s (ignoreWrite s)
  | clear (v : Word) : Move s (clearByStatusWrite v s)
  | irqEn (v : Word) : Move s (setIrqEn v s)
  | start (v : Word) (hp : s.phase = .idle) : Move s (startCommand v s)
  | inLen (v : Word) (hp : s.phase = .idle) : Move s (setInLen v s)
  | key (k : Fin 4) (v : Word) : Move s (writeKey k v s)
  | iv (k : Fin 4) (v : Word) : Move s (setIvWord k v s)
  | ibuf (k : Nat) (v : Word) (hk : k + 4 ≤ bufBytes s) : Move s (storeBytes (ibufBase + k) (laneBytes v) s)

theorem busy_eq_false_iff (s : State) : busy s = false ↔ s.phase = .idle := by
  unfold busy
  split <;> simp_all

theorem entWait_eq_false_iff (s : State) : entWait s = false ↔ s.request = none := by simp [entWait]

theorem bufBytes_eq (s : State) : bufBytes s = 16 * (s.config.bufBlocks.val + 4) := rfl

theorem bufBytes_bounds (s : State) : 64 ≤ bufBytes s ∧ bufBytes s ≤ 65536 := by
  have h := s.config.bufBlocks.isLt
  rw [bufBytes_eq]
  omega

/-- An aligned access to IBUF names four bytes of IBUF: BUF_BYTES is a multiple of 16 (R6). -/
theorem add_four_le_of_accessTarget_ibuf {a : Access} {s : State} {k : Nat} (hw : accessWellFormed a = true)
    (h : accessTarget a s = .ibuf k) : k + 4 ≤ bufBytes s := by
  have halign : a.offset.toNat % 4 = 0 := by
    simp only [accessWellFormed, accessAligned, Bool.and_eq_true, beq_iff_eq] at hw
    exact hw.1
  unfold accessTarget targetAt at h
  split at h
  · unfold registerAt at h
    split at h <;> cases h
  split at h
  next hk =>
    have hindex : a.offset.toNat - ibufBase = k := Target.ibuf.inj h
    have hbuf := bufBytes_eq s
    unfold ibufBase at *
    omega
  split at h <;> cases h

theorem engineMove_move {s t : State} (h : engineMove s = .next t) : Move s t := by
  rcases engineMove_cases s with ⟨-, hx⟩ | ⟨cmd, hp, hw, hx⟩ <;> rw [hx] at h
  · cases h
    exact .rest
  · rw [runCommand_eq] at h
    split at h
    next i hd => exact .command hp ((entWait_eq_false_iff s).1 hw) hd h
    next =>
      cases h
      exact .illegal

theorem receiveAnswer_move {tag : Nat} {a : Answer} {s t : State} (h : receiveAnswer tag a s = .next t) : Move s t := by
  rcases receiveAnswer_cases h with ⟨q, hq, -, hf, rfl⟩ | ⟨rfl, -⟩
  · exact .answer hq hf
  · exact .rest

theorem writeTarget_move {a : Access} {s : State} (hw : accessWellFormed a = true) (v : Word) :
    Move s (writeTarget (accessTarget a s) v s) := by
  rcases writeTarget_cases (accessTarget a s) v s with h | ⟨-, h⟩ | ⟨-, h⟩ | ⟨-, -, h⟩ | ⟨-, -, h⟩ | ⟨hb, hidle⟩
  · rw [h]; exact .rest
  · rw [h]; exact .ignore
  · rw [h]; exact .clear v
  · rw [h]; exact .reset
  · rw [h]; exact .irqEn v
  · have hp := (busy_eq_false_iff s).1 hb
    rcases hidle with ⟨-, h⟩ | ⟨-, h⟩ | ⟨k, -, h⟩ | ⟨k, -, h⟩ | ⟨k, hk, h⟩ <;> rw [h]
    · exact .start v hp
    · exact .inLen v hp
    · exact .key k v
    · exact .iv k v
    · exact .ibuf k v (add_four_le_of_accessTarget_ibuf hw hk)

/-- A host access is a move, and the bus's answer to it. -/
theorem hostAccess_move (a : Access) (s : State) : ∃ u e d, Move s u ∧ hostAccess a s = respond e d u := by
  rcases hostAccess_cases a s with ⟨-, h⟩ | ⟨-, off, w, -, h⟩ | ⟨hw, off, w, v, -, h⟩ <;> rw [h]
  · exact ⟨_, _, _, .rest, rfl⟩
  · rcases readTarget_cases (accessTarget a s) s with ⟨-, -, hr⟩ | ⟨-, hr⟩ <;> rw [hr]
    · exact ⟨_, _, _, .draw, rfl⟩
    · exact ⟨_, _, _, .rest, rfl⟩
  · exact ⟨_, _, _, writeTarget_move hw v, rfl⟩

/-- Every step takes an event off the list, makes one move, and answers the host if the event was the host's. -/
theorem step_move {s t : State} (h : step s = .next t) :
    ∃ es u, Move (s.withEvents es) u ∧ (t = u ∨ ∃ e d, t = respond e d u) := by
  rcases step_cases h with ⟨es, hm⟩ | ⟨a, es, rfl⟩ | ⟨tag, a, es, -, hm⟩ | ⟨es, rfl⟩ | ⟨es, rfl⟩
  · exact ⟨es, t, engineMove_move hm, .inl rfl⟩
  · obtain ⟨u, e, d, hm, hu⟩ := hostAccess_move a (s.withEvents es)
    exact ⟨es, u, hm, .inr ⟨e, d, hu⟩⟩
  · exact ⟨es, t, receiveAnswer_move hm, .inl rfl⟩
  · exact ⟨es, _, .sink, .inl rfl⟩
  · exact ⟨es, _, .reset, .inl rfl⟩

/-- A property that neither the event list nor the bus's answer takes part in, and that every move keeps, every step
keeps. -/
theorem step_keeps {P : State → Prop} (hevents : ∀ s es, P s → P (s.withEvents es))
    (hrespond : ∀ s e d, P s → P (respond e d s)) (hmove : ∀ s t, P s → Move s t → P t) :
    ∀ s t, P s → step s = .next t → P t := by
  intro s t hs h
  obtain ⟨es, u, hm, rfl | ⟨e, d, rfl⟩⟩ := step_move h
  · exact hmove _ _ (hevents s es hs) hm
  · exact hrespond _ e d (hmove _ _ (hevents s es hs) hm)

-- STATUS (R20, R28, R82, R84)

theorem errorNumber_bounds (code : ErrorCode) : (errorNumber code).toNat ≤ 8 ∧ errorNumber code ≠ 0 := by
  cases code <;> decide

/-- While the engine is idle STATUS is as it should be when ERRCODE is no reserved code and ERR comes with a code. -/
theorem statusInv_of_idle {t : State} (hp : t.phase = .idle) (hcode : t.errcode.toNat ≤ 8)
    (herr : t.err = true → t.errcode ≠ 0) : StatusInv t where
  busyFlags cmd h := by simp [hp] at h
  codeLegal := hcode
  errHasCode := herr

theorem failCompletion_statusInv (b : Bool) (code : ErrorCode) (iv : Option (List Byte)) (s : State) :
    StatusInv (failCompletion b code iv s) :=
  statusInv_of_idle (by simp) (by simpa using (errorNumber_bounds code).1) fun _ => by
    simpa using (errorNumber_bounds code).2

theorem successCompletion_statusInv (i : Instr) (out : List Byte) (nul : Bool) (iv : Option (List Byte)) (s : State) :
    StatusInv (successCompletion i out nul iv s) :=
  statusInv_of_idle (by simp) (by simp) (by simp)

theorem exec_statusInv {i : Instr} {s t : State} (hs : StatusInv s) (h : exec i s = .next t) : StatusInv t := by
  rcases exec_cases i s with ⟨p, n, sc, hx⟩ | ⟨out, nul, iv, hx⟩ | ⟨code, iv, hx⟩ <;> cases hx.symm.trans h
  · exact ⟨hs.busyFlags, hs.codeLegal, hs.errHasCode⟩
  · exact successCompletion_statusInv i out nul iv s
  · exact failCompletion_statusInv (keyUsing i) code iv s

/-- A STATUS write clears flags and sets none. -/
theorem clearByStatusWrite_statusInv {s : State} (hs : StatusInv s) (v : Word) : StatusInv (clearByStatusWrite v s) where
  busyFlags cmd hp := by
    obtain ⟨hdone, herr, hcode, hop⟩ := hs.busyFlags cmd hp
    exact ⟨by simp [hdone], by simp [herr], hcode, hop⟩
  codeLegal := hs.codeLegal
  errHasCode h := hs.errHasCode (by
    simp only [clearByStatusWrite_err, Bool.and_eq_true] at h
    exact h.1)

theorem startCommand_statusInv (v : Word) (s : State) : StatusInv (startCommand v s) where
  busyFlags cmd hp := by
    cases hp
    exact ⟨rfl, rfl, rfl, rfl⟩
  codeLegal := by simp
  errHasCode h := by simp at h

theorem Move.statusInv {s t : State} (hs : StatusInv s) (h : Move s t) : StatusInv t := by
  cases h with
  | command _ _ _ hx => exact exec_statusInv hs hx
  | illegal => exact failCompletion_statusInv false .illegalCommand none s
  | reset => exact statusInv_of_idle rfl (by simp) (by simp)
  | clear v => exact clearByStatusWrite_statusInv hs v
  | start v => exact startCommand_statusInv v s
  | rest | answer | sink | draw | ignore | irqEn | inLen | key | iv | ibuf =>
    exact ⟨hs.busyFlags, hs.codeLegal, hs.errHasCode⟩

/-- Settles O54: every move keeps the STATUS invariant. -/
theorem stepKeepsStatusInv : Obligations.StepKeepsStatusInv :=
  step_keeps (fun _ _ h => ⟨h.busyFlags, h.codeLegal, h.errHasCode⟩)
    (fun _ _ _ h => ⟨h.busyFlags, h.codeLegal, h.errHasCode⟩) fun _ _ hs h => h.statusInv hs

-- The key (R20, R24, R88)

theorem keyInv_of_zero {t : State} (h : t.key = Quad.zero) : KeyInv t := fun k _ => by rw [h, quad_get_zero]

/-- A key clear, or none, keeps the key invariant. -/
theorem keyInv_of_clearIf {s t : State} (b : Bool) (hs : KeyInv s) (hk : t.key = if b then Quad.zero else s.key)
    (hw : t.keyWr = if b then 0 else s.keyWr) : KeyInv t := by
  cases b
  · intro k h
    rw [hk]
    exact hs k (by simpa [hw] using h)
  · exact keyInv_of_zero hk

theorem exec_keyInv {i : Instr} {s t : State} (hs : KeyInv s) (h : exec i s = .next t) : KeyInv t := by
  rcases exec_cases i s with ⟨p, n, sc, hx⟩ | ⟨out, nul, iv, hx⟩ | ⟨code, iv, hx⟩ <;> cases hx.symm.trans h
  · exact hs
  · exact keyInv_of_clearIf (keyUsing i) hs (by simp) (by simp)
  · exact keyInv_of_clearIf (keyUsing i) hs (by simp) (by simp)

/-- The bits of KEY_WR after a write of key word `k`. -/
theorem getLsbD_or_shift_one (w : BitVec 4) (k j : Fin 4) :
    (w ||| (1#4 <<< k.val)).getLsbD j.val = if j = k then true else w.getLsbD j.val := by
  fin_cases k <;> fin_cases j <;> simp

theorem writeKey_keyInv {s : State} (hs : KeyInv s) (k : Fin 4) (v : Word) : KeyInv (writeKey k v s) := by
  intro j h
  rw [writeKey_keyWr, getLsbD_or_shift_one] at h
  rw [writeKey_key, quad_get_set]
  split at h
  · cases h
  · next hjk => rw [if_neg hjk]; exact hs j h

theorem Move.keyInv {s t : State} (hs : KeyInv s) (h : Move s t) : KeyInv t := by
  cases h with
  | command _ _ _ hx => exact exec_keyInv hs hx
  | illegal => exact keyInv_of_clearIf false hs (failCompletion_key _ _ _ _) (failCompletion_keyWr _ _ _ _)
  | reset => exact keyInv_of_zero rfl
  | key k v => exact writeKey_keyInv hs k v
  | rest | answer | sink | draw | ignore | clear | irqEn | start | inLen | iv | ibuf => exact hs

/-- Settles O55: every move keeps the key invariant. -/
theorem stepKeepsKeyInv : Obligations.StepKeepsKeyInv :=
  step_keeps (fun _ _ h => h) (fun _ _ _ h => h) fun _ _ hs h => h.keyInv hs

end Sys2Proof.Machine
end

section
/-! Proofs of the family 10_state, second part: how many bytes the commands' functions give (R48, R53, R56, R57, R74, R75),
what a command's move asks for and writes (R47, R54 to R61, R76 to R79), and the invariants that follow. -/

namespace Sys2Proof.Machine

-- The lengths of the functions' results

@[simp] theorem inputBytes_length (s : State) (n : Nat) : (inputBytes s n).length = n := by simp [inputBytes]

theorem inputString_length_le (s : State) (n : Nat) : (inputString s n).length ≤ n := by
  simpa [inputString] using (List.takeWhile_sublist (fun b : Byte => b != 0) (l := inputBytes s n)).length_le

@[simp] theorem resultBytes_length (out : List Byte) (nul : Bool) :
    (resultBytes out nul).length = out.length + if nul then 1 else 0 := by
  cases nul <;> simp [resultBytes]

theorem overwrite_length (f : List Byte) (i : Nat) (b : List Byte) :
    (overwrite f i b).length = min i f.length + b.length + (f.length - (i + b.length)) := by
  simp [overwrite, Nat.add_assoc]

@[simp] theorem be32_length (n : Nat) : (be32 n).length = 4 := rfl

/-- A frame is as long as its entropy, when that has room for the header and the message (R48, R52). -/
theorem buildFrame_length {m r : List Byte} (h : 8 + m.length ≤ r.length) : (buildFrame m r).length = r.length := by
  simp only [buildFrame, overwrite_length, be32_length, List.length_cons, List.length_nil]
  omega

/-- A parsed message is a part of the frame, past its header (R53). -/
theorem parseFrame_length_le {b m : List Byte} (h : parseFrame b = .ok m) : m.length + 8 ≤ b.length := by
  unfold parseFrame at h
  split at h
  next => cases h
  next hsize =>
    split at h
    next => cases h
    next =>
      split at h
      next => cases h
      next =>
        cases h
        simp only [List.length_take, List.length_drop]
        omega

@[simp] theorem aesEnc_length (k blk : List Byte) : (aesEnc k blk).length = 16 := rfl

@[simp] theorem aesDec_length (k blk : List Byte) : (aesDec k blk).length = 16 := rfl

theorem cbcEncBlocks_length (k : List Byte) (n : Nat) (cv p : List Byte) : (cbcEncBlocks k n cv p).length = 16 * n := by
  induction n generalizing cv p with
  | zero => rfl
  | succ n ih =>
    simp only [cbcEncBlocks, List.length_append, aesEnc_length, ih]
    omega

/-- CBC encryption gives the whole blocks of its input (R56). -/
theorem cbcEnc_length (k iv p : List Byte) : (cbcEnc k iv p).length = 16 * (p.length / 16) := cbcEncBlocks_length k _ iv p

theorem cbcDecBlocks_length_le (k : List Byte) (n : Nat) (cv c : List Byte) : (cbcDecBlocks k n cv c).length ≤ 16 * n := by
  induction n generalizing cv c with
  | zero => simp [cbcDecBlocks]
  | succ n ih =>
    have hrest := ih (c.take 16) (c.drop 16)
    simp only [cbcDecBlocks, xorBytes, List.length_append, List.length_zipWith, aesDec_length]
    omega

/-- CBC decryption gives no more than its input (R57). -/
theorem cbcDec_length_le (k iv c : List Byte) : (cbcDec k iv c).length ≤ c.length :=
  (cbcDecBlocks_length_le k _ iv c).trans (Nat.mul_div_le c.length 16)

/-- Base64 gives four characters for every three bytes begun (R74). -/
theorem base64Encode_length (b : List Byte) : (base64Encode b).length = base64Length b.length := by
  induction b using base64Encode.induct with
  | case1 => rfl
  | case2 a => simp [base64Encode, b64Quad, base64Length]
  | case3 a b => simp [base64Encode, b64Quad, base64Length]
  | case4 a b c rest ih =>
    simp only [base64Encode, b64Quad, List.length_append, List.length_cons, List.length_nil, ih, base64Length]
    omega

theorem base64Length_mono {m n : Nat} (h : m ≤ n) : base64Length m ≤ base64Length n := by
  unfold base64Length
  omega

/-- A decoded string is no longer than its characters (R75). -/
theorem base64Decode_length_le {b d : List Byte} (h : base64Decode b = .ok d) : d.length ≤ b.length := by
  simp only [base64Decode] at h
  split at h
  next => cases h
  next =>
    split at h
    next => cases h
    next =>
      split at h
      next => cases h
      next =>
        cases h
        simp only [List.length_take]
        omega

-- What a command's move asks for and writes

/-- The answer the running command goes on with has the size it asked for, and PAYLOAD_ENCRYPT holds its frame once it has
its IV: what the invariant of the entropy port says at a command's move. -/
structure AnswersFit (i : Instr) (s : State) : Prop where
  size : ∀ p r, s.stage = .answered p (.ok r) → requestSize i p (inLength s) = some r.length
  frame : i = .payloadEncrypt → ∀ r, s.stage = .answered .iv (.ok r) →
    ∃ f, s.scratch.frame = .holds f ∧ f.length = paddedSize (inLength s)

/-- What a command's move does: it asks for what R47 lists, or its result with the terminator fits OBUF, or it fails. -/
inductive CommandMove (i : Instr) (s : State) : State → Prop
  | asks {p : Purpose} {n : Nat} {sc : Scratch} (hsize : requestSize i p (inLength s) = some n) (hpos : 1 ≤ n)
      (hmax : n ≤ bufBytes s)
      (hframe : i = .payloadEncrypt → (p = .iv ∨ ∃ r, s.stage = .answered .iv (.ok r)) →
        ∃ f, sc.frame = .holds f ∧ f.length = paddedSize (inLength s)) :
      CommandMove i s (requestEntropy p n { s with scratch := sc })
  | succeeds {out : List Byte} {nul : Bool} {iv : Option (List Byte)} (hfit : (resultBytes out nul).length ≤ bufBytes s) :
      CommandMove i s (successCompletion i out nul iv s)
  | fails {code : ErrorCode} {iv : Option (List Byte)} : CommandMove i s (failCompletion (keyUsing i) code iv s)

/-- The outcome `o` is a move of command `i` from `s`. -/
def CommandMovesTo (i : Instr) (s : State) (o : Host.Outcome State Fault Refusal) : Prop :=
  ∃ t, o = .next t ∧ CommandMove i s t

theorem raiseError_moves (i : Instr) (code : ErrorCode) (iv : Option (List Byte)) (s : State) :
    CommandMovesTo i s (raiseError i code iv s) := ⟨_, rfl, .fails⟩

theorem finishOk_moves {i : Instr} {out : List Byte} {nul : Bool} {iv : Option (List Byte)} {s : State}
    (hfit : (resultBytes out nul).length ≤ bufBytes s) : CommandMovesTo i s (finishOk i out nul iv s) :=
  ⟨_, rfl, .succeeds hfit⟩

/-- A command's first request. -/
theorem requestEntropy_moves {i : Instr} {p : Purpose} {n : Nat} {s : State}
    (hsize : requestSize i p (inLength s) = some n) (hpos : 1 ≤ n) (hmax : n ≤ bufBytes s)
    (hfirst : i = .payloadEncrypt → p = .filler ∧ s.stage = .fresh) : CommandMovesTo i s (.next (requestEntropy p n s)) := by
  refine ⟨_, rfl, .asks (sc := s.scratch) hsize hpos hmax fun hi hiv => ?_⟩
  obtain ⟨rfl, hs⟩ := hfirst hi
  simp [hs] at hiv

theorem execFrameBuild_moves {s : State} (h : AnswersFit .frameBuild s) :
    CommandMovesTo .frameBuild s (execFrameBuild s) := by
  have hpad := add_eight_le_paddedSize (inLength s)
  simp only [execFrameBuild]
  split
  next => exact raiseError_moves _ _ _ _
  split
  next => exact raiseError_moves _ _ _ _
  split
  next => exact raiseError_moves _ _ _ _
  split
  next => exact requestEntropy_moves rfl (by omega) (by omega) nofun
  next => exact raiseError_moves _ _ _ _
  next p r hr =>
    have hsize : r.length = paddedSize (inLength s) := by
      have hlisted := h.size p r hr
      cases p <;> simp [requestSize] at hlisted
      exact hlisted.symm
    have hframe : (buildFrame (inputBytes s (inLength s)) r).length = r.length :=
      buildFrame_length (by rw [inputBytes_length]; omega)
    exact finishOk_moves (by simp [hframe]; omega)

theorem execFrameParse_moves (s : State) : CommandMovesTo .frameParse s (execFrameParse s) := by
  simp only [execFrameParse]
  split
  next => exact raiseError_moves _ _ _ _
  split
  next => exact raiseError_moves _ _ _ _
  next m hm =>
    have hlen := parseFrame_length_le hm
    rw [inputBytes_length] at hlen
    exact finishOk_moves (by simp; omega)

theorem execGenIv_moves (s : State) : CommandMovesTo .genIv s (execGenIv s) := by
  have hbuf := (bufBytes_bounds s).1
  simp only [execGenIv]
  split
  next => exact requestEntropy_moves rfl (by omega) (by omega) nofun
  next => exact raiseError_moves _ _ _ _
  next => exact finishOk_moves (by simp)

theorem execCbcEncrypt_moves (s : State) : CommandMovesTo .cbcEncrypt s (execCbcEncrypt s) := by
  simp only [execCbcEncrypt]
  split
  next => exact raiseError_moves _ _ _ _
  split
  next => exact raiseError_moves _ _ _ _
  split
  next => exact finishOk_moves (by simp [cbcEnc_length]; omega)
  next => exact raiseError_moves _ _ _ _

theorem execCbcDecrypt_moves (s : State) : CommandMovesTo .cbcDecrypt s (execCbcDecrypt s) := by
  have hlen := cbcDec_length_le s.key.bytes s.iv.bytes (inputBytes s (inLength s))
  rw [inputBytes_length] at hlen
  simp only [execCbcDecrypt]
  split
  next => exact raiseError_moves _ _ _ _
  split
  next => exact raiseError_moves _ _ _ _
  split
  next => exact finishOk_moves (by simp; omega)
  next => exact raiseError_moves _ _ _ _

theorem execB64Encode_moves (s : State) : CommandMovesTo .b64Encode s (execB64Encode s) := by
  simp only [execB64Encode]
  split
  next => exact raiseError_moves _ _ _ _
  split
  next => exact raiseError_moves _ _ _ _
  next => exact finishOk_moves (by simp [base64Encode_length]; omega)

theorem execB64Decode_moves (s : State) : CommandMovesTo .b64Decode s (execB64Decode s) := by
  have hstring := inputString_length_le s (inLength s)
  simp only [execB64Decode]
  split
  next => exact raiseError_moves _ _ _ _
  split
  next => exact raiseError_moves _ _ _ _
  next d hd =>
    have hlen := base64Decode_length_le hd
    exact finishOk_moves (by simp; omega)

/-- The transport string of an envelope: the IV's 16 bytes and the whole blocks of the frame (R78). -/
theorem payloadString_length_le {k iv frame : List Byte} {n : Nat} (hiv : iv.length = 16) (hframe : frame.length = n) :
    (base64Encode (iv ++ cbcEnc k iv frame)).length ≤ base64Length (16 + n) := by
  rw [base64Encode_length, List.length_append, cbcEnc_length]
  exact base64Length_mono (by omega)

theorem execPayloadEncrypt_moves {s : State} (h : AnswersFit .payloadEncrypt s) :
    CommandMovesTo .payloadEncrypt s (execPayloadEncrypt s) := by
  have hpad := add_eight_le_paddedSize (inLength s)
  have hlen := le_base64Length (16 + paddedSize (inLength s))
  simp only [execPayloadEncrypt]
  split
  next => exact raiseError_moves _ _ _ _
  split
  next => exact raiseError_moves _ _ _ _
  split
  next => exact raiseError_moves _ _ _ _
  split
  next hfresh => exact requestEntropy_moves rfl (by omega) (by omega) fun _ => ⟨rfl, hfresh⟩
  next => exact raiseError_moves _ _ _ _
  next r hr =>
    have hsize : paddedSize (inLength s) = r.length := Option.some.inj (h.size .filler r hr)
    have hframe : (buildFrame (inputBytes s (inLength s)) r).length = r.length :=
      buildFrame_length (by rw [inputBytes_length]; omega)
    exact ⟨_, rfl, .asks rfl (by omega) (by omega) fun _ _ => ⟨_, rfl, hframe.trans hsize.symm⟩⟩
  next r hr =>
    split
    next =>
      have hsize : 16 = r.length := Option.some.inj (h.size .iv r hr)
      obtain ⟨f, hf, hframe⟩ := h.frame rfl r hr
      have hout := payloadString_length_le (k := s.key.bytes) hsize.symm hframe
      exact finishOk_moves (by simp [hf, scratchBytes]; omega)
    next => exact raiseError_moves _ _ _ _

theorem decryptEnvelope_moves {envelope : List Byte} {s : State} (hbuf : envelope.length ≤ bufBytes s) :
    CommandMovesTo .payloadDecrypt s (decryptEnvelope envelope s) := by
  simp only [decryptEnvelope]
  split
  next =>
    split
    next => exact raiseError_moves _ _ _ _
    next m hm =>
      have hmsg := parseFrame_length_le hm
      have hplain := cbcDec_length_le s.key.bytes (envelope.take 16) (envelope.drop 16)
      rw [List.length_drop] at hplain
      exact finishOk_moves (by simp; omega)
  next => exact raiseError_moves _ _ _ _

theorem execPayloadDecrypt_moves (s : State) : CommandMovesTo .payloadDecrypt s (execPayloadDecrypt s) := by
  have hstring := inputString_length_le s (inLength s)
  simp only [execPayloadDecrypt]
  split
  next => exact raiseError_moves _ _ _ _
  split
  next => exact raiseError_moves _ _ _ _
  next envelope he =>
    have hlen := base64Decode_length_le he
    split
    next => exact raiseError_moves _ _ _ _
    next => exact decryptEnvelope_moves (by omega)

theorem exec_moves {i : Instr} {s : State} (h : AnswersFit i s) : CommandMovesTo i s (exec i s) := by
  cases i with
  | frameBuild => exact execFrameBuild_moves h
  | frameParse => exact execFrameParse_moves s
  | genIv => exact execGenIv_moves s
  | cbcEncrypt => exact execCbcEncrypt_moves s
  | cbcDecrypt => exact execCbcDecrypt_moves s
  | b64Encode => exact execB64Encode_moves s
  | b64Decode => exact execB64Decode_moves s
  | payloadEncrypt => exact execPayloadEncrypt_moves h
  | payloadDecrypt => exact execPayloadDecrypt_moves s

/-- The running command is the one its word decodes to. -/
theorem decoded_unique {s : State} {cmd cmd' : Word} {i i' : Instr} (hp : s.phase = .busy cmd) (hd : decodeWord cmd = .ok i)
    (hp' : s.phase = .busy cmd') (hd' : decodeWord cmd' = .ok i') : i' = i := by
  cases hp.symm.trans hp'
  cases hd.symm.trans hd'
  rfl

theorem ProgressInv.answersFit {s : State} {cmd : Word} {i : Instr} (hs : ProgressInv s) (hp : s.phase = .busy cmd)
    (hd : decodeWord cmd = .ok i) : AnswersFit i s where
  size p r hr := by
    obtain ⟨cmd', i', hp', hd', hsize⟩ := hs.answerListed p r hr
    rwa [decoded_unique hp hd hp' hd'] at hsize
  frame hi r hr := hs.frameHeld cmd hp (hi ▸ hd) (.inr ⟨r, hr⟩)

/-- A command's move, when the entropy port is as its invariant says. -/
theorem commandMove_of_exec {s t : State} {cmd : Word} {i : Instr} (hs : ProgressInv s) (hp : s.phase = .busy cmd)
    (hd : decodeWord cmd = .ok i) (hx : exec i s = .next t) : CommandMove i s t := by
  obtain ⟨u, hu, hm⟩ := exec_moves (hs.answersFit hp hd)
  cases hu.symm.trans hx
  exact hm

-- The entropy port (R28, R29, R47, R91)

/-- With no request and no answer, only the scratch of an idle engine is left to say. -/
theorem progressInv_of_quiet {t : State} (hr : t.request = none) (hf : t.stage = .fresh)
    (hidle : t.phase = .idle → t.scratch = Scratch.unspecified) : ProgressInv t where
  idleQuiet hp := ⟨hr, hf, hidle hp⟩
  requestListed q hq := by simp [hr] at hq
  answerListed p r h := by simp [hf] at h
  frameHeld cmd _ _ h := by simp [hr, hf] at h

theorem failCompletion_progressInv (b : Bool) (code : ErrorCode) (iv : Option (List Byte)) (s : State) :
    ProgressInv (failCompletion b code iv s) := progressInv_of_quiet (by simp) (by simp) (by simp)

theorem CommandMove.progressInv {s t : State} {cmd : Word} {i : Instr} (hs : ProgressInv s) (hp : s.phase = .busy cmd)
    (hd : decodeWord cmd = .ok i) (h : CommandMove i s t) : ProgressInv t := by
  cases h with
  | asks hsize hpos hmax hframe =>
    refine ⟨fun hidle => ?_, fun q hq => ?_, hs.answerListed, fun cmd' hp' hd' hiv => ?_⟩
    · cases hp.symm.trans hidle
    · cases hq
      exact ⟨⟨cmd, i, hp, hd, hsize⟩, hpos, hmax, Nat.lt_succ_self _⟩
    · refine hframe (decoded_unique hp' hd' hp hd) (hiv.imp ?_ id)
      rintro ⟨q, hq, hpq⟩
      cases hq
      exact hpq
  | succeeds => exact progressInv_of_quiet (by simp) (by simp) (by simp)
  | fails => exact failCompletion_progressInv _ _ _ _

/-- An answer with the bytes asked for takes the place of its request. -/
theorem progressInv_of_answer {s : State} {q : Request} {a : Answer} (hs : ProgressInv s) (hq : s.request = some q)
    (hf : answerFits q.size a = true) : ProgressInv { s with request := none, stage := .answered q.purpose a } where
  idleQuiet hp := by cases hq.symm.trans (hs.idleQuiet hp).1
  requestListed q' hq' := by cases hq'
  answerListed p r h := by
    cases h
    have hsize : r.length = q.size := by simpa [answerFits] using hf
    rw [hsize]
    exact (hs.requestListed q hq).1
  frameHeld cmd hp hd h := by
    refine hs.frameHeld cmd hp hd (.inl ⟨q, hq, ?_⟩)
    rcases h with ⟨q', hq', -⟩ | ⟨r, hr⟩
    · cases hq'
    · exact (Stage.answered.inj hr).1

/-- A host write while idle finds neither a request nor an answer. -/
theorem ProgressInv.of_idle {s t : State} (hs : ProgressInv s) (hp : s.phase = .idle) (hr : t.request = s.request)
    (hf : t.stage = s.stage) (hsc : t.scratch = s.scratch) : ProgressInv t := by
  obtain ⟨hreq, hstage, hscratch⟩ := hs.idleQuiet hp
  exact progressInv_of_quiet (hr.trans hreq) (hf.trans hstage) fun _ => hsc.trans hscratch

theorem Move.progressInv {s t : State} (hs : ProgressInv s) (h : Move s t) : ProgressInv t := by
  cases h with
  | command hp _ hd hx => exact (commandMove_of_exec hs hp hd hx).progressInv hs hp hd
  | illegal => exact failCompletion_progressInv false .illegalCommand none s
  | answer hq hf => exact progressInv_of_answer hs hq hf
  | reset => exact progressInv_of_quiet rfl rfl fun _ => rfl
  | start v hp => exact hs.of_idle hp rfl (hs.idleQuiet hp).2.1.symm rfl
  | inLen v hp => exact hs.of_idle hp rfl rfl rfl
  | rest | sink | draw | ignore | clear | irqEn | key | iv | ibuf =>
    exact ⟨hs.idleQuiet, hs.requestListed, hs.answerListed, hs.frameHeld⟩

/-- Settles O56: every move keeps the invariant of the entropy port. -/
theorem stepKeepsProgressInv : Obligations.StepKeepsProgressInv :=
  step_keeps (fun _ _ h => ⟨h.idleQuiet, h.requestListed, h.answerListed, h.frameHeld⟩)
    (fun _ _ _ h => ⟨h.idleQuiet, h.requestListed, h.answerListed, h.frameHeld⟩) fun _ _ hs h => h.progressInv hs

-- The buffers (R23, R26, R27, R33, R35)

theorem inWindow_of_config_eq {s t : State} (hc : t.config = s.config) {addr : Nat} (h : InWindow s addr) :
    InWindow t addr := by
  simpa only [InWindow, bufBytes, hc] using h

/-- A byte string stored in a window keeps the buffers in form. -/
theorem bufferInv_of_setBytes {s t : State} {addr : Nat} {bytes : List Byte} (hs : BufferInv s) (hc : t.config = s.config)
    (hm : t.mem = s.mem.setBytes addr bytes) (hw : ∀ x, addr ≤ x → x < addr + bytes.length → InWindow s x)
    (hlen : t.outLen.toNat ≤ bufBytes s) : BufferInv t where
  canonical := hm ▸ memory_wf_setBytes hs.canonical addr bytes
  inWindows c h := by
    rw [hm] at h
    refine inWindow_of_config_eq hc ?_
    rcases memory_mem_setBytes h with ⟨hlo, hhi⟩ | h
    · exact hw c.1 hlo hhi
    · exact hs.inWindows c h
  outLenFits := by simpa only [bufBytes, hc] using hlen

theorem failCompletion_bufferInv (b : Bool) (code : ErrorCode) (iv : Option (List Byte)) {s : State} (hs : BufferInv s) :
    BufferInv (failCompletion b code iv s) where
  canonical := by
    rw [failCompletion_mem]
    exact memory_wf_below hs.canonical obufBase
  inWindows c h := by
    rw [failCompletion_mem] at h
    exact inWindow_of_config_eq (failCompletion_config _ _ _ _) (hs.inWindows c (memory_mem_below h).1)
  outLenFits := by simp

theorem CommandMove.bufferInv {s t : State} {i : Instr} (hs : BufferInv s) (h : CommandMove i s t) : BufferInv t := by
  cases h with
  | asks => exact ⟨hs.canonical, hs.inWindows, hs.outLenFits⟩
  | @succeeds out nul iv hfit =>
    refine bufferInv_of_setBytes hs (successCompletion_config _ _ _ _ _) (successCompletion_mem _ _ _ _ _)
      (fun x hlo hhi => .inr ⟨hlo, by omega⟩) ?_
    have hmod := Nat.mod_le out.length (2 ^ 32)
    rw [resultBytes_length] at hfit
    rw [successCompletion_outLen, BitVec.toNat_ofNat]
    omega
  | fails => exact failCompletion_bufferInv _ _ _ hs

theorem Move.bufferInv {s t : State} (hp : ProgressInv s) (hs : BufferInv s) (h : Move s t) : BufferInv t := by
  cases h with
  | command hphase _ hd hx => exact (commandMove_of_exec hp hphase hd hx).bufferInv hs
  | illegal => exact failCompletion_bufferInv false .illegalCommand none hs
  | reset => exact ⟨rfl, nofun, Nat.zero_le _⟩
  | ibuf k v hk =>
    refine bufferInv_of_setBytes hs rfl rfl (fun x hlo hhi => .inl ?_) hs.outLenFits
    rw [laneBytes_length] at hhi
    omega
  | rest | answer | sink | draw | ignore | clear | irqEn | start | inLen | key | iv =>
    exact ⟨hs.canonical, hs.inWindows, hs.outLenFits⟩

/-- What every step keeps of the entropy port and of the buffers, together: a result fits OBUF because its entropy answer has
the size asked for. -/
def PortAndBuffers (s : State) : Prop := ProgressInv s ∧ BufferInv s

theorem step_portAndBuffers : ∀ s t, PortAndBuffers s → step s = .next t → PortAndBuffers t := by
  refine step_keeps ?_ ?_ ?_
  · rintro s es ⟨hp, hb⟩
    exact ⟨⟨hp.idleQuiet, hp.requestListed, hp.answerListed, hp.frameHeld⟩, hb.canonical, hb.inWindows, hb.outLenFits⟩
  · rintro s e d ⟨hp, hb⟩
    exact ⟨⟨hp.idleQuiet, hp.requestListed, hp.answerListed, hp.frameHeld⟩, hb.canonical, hb.inWindows, hb.outLenFits⟩
  · rintro s t ⟨hp, hb⟩ h
    exact ⟨h.progressInv hp, h.bufferInv hp hb⟩

/-- Settles O57: every step keeps the two invariants together. -/
theorem stepKeepsBufferInv : Obligations.StepKeepsBufferInv :=
  fun s t hp hb h => (step_portAndBuffers s t ⟨hp, hb⟩ h).2

end Sys2Proof.Machine
end

section
/-! Proofs of the family 10_state, third part: the host port's reads and writes (R18 to R27, R33, R36, R39, R40), the reset
(R31, R99, R100), which steps go on (R34, R91), what no command's move changes (R29, R85), and where key bytes go (R93). -/

namespace Sys2Proof.Machine

-- The lanes of a word and of a register (R24, R25, R36)

/-- Byte `j` of a word's lanes is bits [8j+7:8j]. -/
theorem laneBytes_getD (w : Word) {j : Nat} (hj : j < 4) : (laneBytes w).getD j 0 = w.extractLsb' (8 * j) 8 := by
  interval_cases j <;> rfl

theorem extractLsb'_bufferWord (s : State) (addr : Nat) {j : Nat} (hj : j < 4) :
    (bufferWord s addr).extractLsb' (8 * j) 8 = byteAt s (addr + j) := by
  rw [← laneBytes_getD _ hj, bufferWord, laneBytes_wordOfLanes]
  interval_cases j <;> rfl

/-- Settles O14: the string of four registers is their lanes, one register after the other. -/
theorem registerWordHoldsItsFourBytes : Obligations.RegisterWordHoldsItsFourBytes := by
  intro q k j hj
  rw [← laneBytes_getD _ hj]
  fin_cases k <;> interval_cases j <;> rfl

-- The address map (R18, R33)

theorem registerAt_key (k : Fin 4) : registerAt (0x20 + 4 * k.val) = .key k := by fin_cases k <;> rfl

theorem registerAt_iv (k : Fin 4) : registerAt (0x30 + 4 * k.val) = .iv k := by fin_cases k <;> rfl

theorem registerAt_reserved {off : Nat} (h : (0x14 ≤ off ∧ off ≤ 0x1C) ∨ 0x40 ≤ off) : registerAt off = .reserved := by
  unfold registerAt
  split <;> simp at h ⊢

/-- The address map with its bases written out. -/
theorem targetAt_eq (b off : Nat) :
    targetAt b off =
      if off < 0x10000 then registerAt off
      else if off < 0x10000 + b then .ibuf (off - 0x10000)
      else if 0x20000 ≤ off ∧ off < 0x20000 + b then .obuf (off - 0x20000)
      else .reserved := by
  simp only [targetAt, Bool.and_eq_true, decide_eq_true_eq]
  rfl

theorem targetAt_register {b off : Nat} (h : off < 0x10000) : targetAt b off = registerAt off := if_pos h

theorem targetAt_key {b off : Nat} (k : Fin 4) (h : off = 0x20 + 4 * k.val) : targetAt b off = .key k := by
  rw [targetAt_register (by omega), h, registerAt_key]

theorem targetAt_iv {b off : Nat} (k : Fin 4) (h : off = 0x30 + 4 * k.val) : targetAt b off = .iv k := by
  rw [targetAt_register (by omega), h, registerAt_iv]

theorem targetAt_ibuf {b off : Nat} (h : IbufOffset b off) : targetAt b off = .ibuf (off - 0x10000) := by
  unfold IbufOffset at h
  rw [targetAt_eq, if_neg (by omega), if_pos (by omega)]

theorem targetAt_obuf {b off : Nat} (hb : b ≤ 65536) (h : ObufOffset b off) : targetAt b off = .obuf (off - 0x20000) := by
  unfold ObufOffset at h
  rw [targetAt_eq, if_neg (by omega), if_neg (by omega), if_pos h]

theorem targetAt_reserved {b off : Nat} (hb : b ≤ 65536) (h : ReservedOffset b off) : targetAt b off = .reserved := by
  unfold ReservedOffset at h
  rw [targetAt_eq]
  split
  next => exact registerAt_reserved (by omega)
  next => rw [if_neg (by omega), if_neg (by omega)]

-- What an access at an aligned offset is

theorem accessWellFormed_of_aligned {a : Access} (h : a.offset.toNat % 4 = 0) (hw : a.width = .bits32) :
    accessWellFormed a = true := by
  simp [accessWellFormed, accessAligned, accessFullWidth, h, hw]

theorem hostAccess_busRead {off : Offset} (h : off.toNat % 4 = 0) (s : State) :
    hostAccess (busRead off) s = readTarget (targetAt (bufBytes s) off.toNat) s :=
  if_pos (accessWellFormed_of_aligned (a := busRead off) h rfl)

theorem hostAccess_busWrite {off : Offset} (h : off.toNat % 4 = 0) (v : Word) (s : State) :
    hostAccess (busWrite off v) s = respond false 0 (writeTarget (targetAt (bufBytes s) off.toNat) v s) :=
  if_pos (accessWellFormed_of_aligned (a := busWrite off v) h rfl)

/-- A read whose value is specified answers with the location's value and does nothing else (R39, R103). -/
theorem readTarget_specified {s : State} {x : Target} (h : s.phase = .idle ∨ readsFreeWhileBusy x = false) :
    readTarget x s = { s with resp := served (locationValue s x) } := by
  rcases readTarget_cases x s with ⟨hb, hfree, -⟩ | ⟨-, hx⟩
  · rcases h with hp | hx
    · simp [(busy_eq_false_iff s).2 hp] at hb
    · simp [hx] at hfree
  · exact hx

theorem writeTarget_idle {s : State} (hp : s.phase = .idle) (x : Target) (v : Word) :
    writeTarget x v s = writeIdle x v s := by
  simp [writeTarget, (busy_eq_false_iff s).2 hp]

theorem writeTarget_busy {s : State} (hb : busy s = true) (x : Target) (v : Word) :
    writeTarget x v s = writeBusy x v s := if_pos hb

/-- STATUS and CTRL take a write alike while idle and while busy (R20, R21, R102). -/
theorem writeTarget_status (v : Word) (s : State) : writeTarget .status v s = clearByStatusWrite v s := ite_self _

theorem writeTarget_ctrl (v : Word) (s : State) : writeTarget .ctrl v s = writeCtrl v s := ite_self _

-- The registers' words (R20, R21)

/-- Bit `n` of STATUS, as R20 lays out its fields: BUSY 0, DONE 1, ERR 2, KEY_VALID 3, KEY_WR 7:4, ERRCODE 11:8, WR_IGN 12,
ENT_WAIT 13, LAST_OP 19:16, every other bit 0. -/
def statusBit (s : State) (n : Nat) : Bool :=
  (n = 0 && busy s) || (n = 1 && s.done) || (n = 2 && s.err) || (n = 3 && keyValid s) ||
    (4 ≤ n && s.keyWr.getLsbD (n - 4)) || (8 ≤ n && s.errcode.getLsbD (n - 8)) || (n = 12 && s.wrIgn) ||
    (n = 13 && entWait s) || (16 ≤ n && s.lastOp.getLsbD (n - 16))

theorem getLsbD_statusWord (s : State) {n : Nat} (hn : n < 32) : (statusWord s).getLsbD n = statusBit s n := by
  simp only [statusWord, statusBit, BitVec.getLsbD_or, getLsbD_fieldAt, BitVec.getLsbD_ofBool]
  interval_cases n <;> simp

/-- A field of STATUS is what its bits say. -/
theorem extractLsb'_statusWord {s : State} {k m : Nat} {x : BitVec m} (hk : k + m ≤ 32)
    (h : ∀ j, j < m → statusBit s (k + j) = x.getLsbD j) : (statusWord s).extractLsb' k m = x := by
  apply BitVec.eq_of_getLsbD_eq
  intro j hj
  rw [BitVec.getLsbD_extractLsb', getLsbD_statusWord s (by omega), h j hj]
  simp [hj]

theorem ctrlWord_eq (s : State) : ctrlWord s = if s.irqEn then 1 else 0 := by
  unfold ctrlWord
  cases s.irqEn <;> rfl

/-- Settles O9: a STATUS read answers with `statusWord`, whose bits are the fields. -/
theorem statusReadShowsEachField : Obligations.StatusReadShowsEachField := by
  intro s
  have hread : hostAccess (busRead 0x04) s = { s with resp := served (statusWord s) } :=
    (hostAccess_busRead rfl s).trans (readTarget_specified (.inr rfl))
  have hbit : ∀ n, n < 32 → (statusWord s).getLsbD n = statusBit s n := fun _ hn => getLsbD_statusWord s hn
  refine ⟨statusWord s, hread, (hbit 0 (by decide)).trans ?busy, (hbit 1 (by decide)).trans ?done,
    (hbit 2 (by decide)).trans ?err, (hbit 3 (by decide)).trans ?keyValid, extractLsb'_statusWord (by decide) ?keyWr,
    extractLsb'_statusWord (by decide) ?errcode, (hbit 12 (by decide)).trans ?wrIgn, (hbit 13 (by decide)).trans ?entWait,
    extractLsb'_statusWord (by decide) ?reservedLow, extractLsb'_statusWord (by decide) ?lastOp,
    extractLsb'_statusWord (by decide) ?reservedHigh⟩
  case busy | done | err | wrIgn => simp [statusBit]
  case keyValid => simp [statusBit, keyValid, beq_eq_decide]
  case entWait => simp [statusBit, entWait]
  case keyWr | errcode | reservedLow | lastOp | reservedHigh =>
    intro j hj
    interval_cases j <;> simp [statusBit]

-- Reads and writes while idle (R18 to R27, R33, R36, R39, R40)

/-- Settles O12: the location each offset names, and its value. -/
theorem idleReadsReturnTheLocation : Obligations.IdleReadsReturnTheLocation := by
  intro s off hp halign
  have hbuf := (bufBytes_bounds s).2
  refine ⟨_, (hostAccess_busRead halign s).trans (readTarget_specified (.inl hp)), ?_, ?_, ?_, ?_, ?_, ?_, ?_, ?_, ?_, ?_⟩
  · rintro rfl; rfl
  · rintro rfl; rfl
  · rintro rfl; exact ctrlWord_eq s
  · rintro rfl; rfl
  · rintro rfl; rfl
  · intro k hk
    rw [targetAt_key k hk, locationValue]
  · intro k hk
    rw [targetAt_iv k hk, locationValue]
  · intro h j hj
    rw [targetAt_ibuf h, locationValue, extractLsb'_bufferWord _ _ hj, Nat.add_assoc]
    rfl
  · intro h j hj
    rw [targetAt_obuf hbuf h, locationValue, extractLsb'_bufferWord _ _ hj, Nat.add_assoc]
    rfl
  · intro h
    rw [targetAt_reserved hbuf h, locationValue]

/-- A word stored in a buffer: its four lanes in their places, every other byte as before (R36). -/
theorem byteAt_storeWord (s : State) (off : Nat) (v : Word) (addr : Nat) :
    byteAt (storeBytes off (laneBytes v) s) addr =
      if off ≤ addr ∧ addr < off + 4 then v.extractLsb' (8 * (addr - off)) 8 else byteAt s addr := by
  rw [byteAt_storeBytes, laneBytes_length]
  split
  next h => exact laneBytes_getD v (by omega)
  next => rfl

/-- The locations that ignore a write while idle (R18, R23, R27). -/
theorem writeIdle_ignored {b off : Nat} (hb : b ≤ 65536) (h : off = 0x10 ∨ ObufOffset b off ∨ ReservedOffset b off)
    (v : Word) (s : State) : writeIdle (targetAt b off) v s = s := by
  rcases h with rfl | h | h
  · rfl
  · rw [targetAt_obuf hb h, writeIdle]
  · rw [targetAt_reserved hb h, writeIdle]

/-- Settles O13: the location each offset names, and what a write does to it. -/
theorem idleWritesStoreTheLocation : Obligations.IdleWritesStoreTheLocation := by
  intro s off v hp halign
  have hbuf := (bufBytes_bounds s).2
  rw [hostAccess_busWrite halign, writeTarget_idle hp]
  refine ⟨?_, ?_, fun k hk => ?_, fun k hk => ?_, fun h => ?_, fun h => ?_⟩
  · rintro rfl hsrst
    have hctrl : writeCtrl v s = setIrqEn v s := if_neg (by rw [hsrst]; decide)
    exact congrArg (respond false 0) hctrl
  · rintro rfl; rfl
  · rw [targetAt_key k hk, writeIdle]
    exact ⟨_, _, rfl, fun j => quad_get_set s.key k j v, getLsbD_or_shift_one s.keyWr k⟩
  · rw [targetAt_iv k hk, writeIdle]
    exact ⟨_, rfl, fun j => quad_get_set s.iv k j v⟩
  · have hoff : ibufBase + (off.toNat - 0x10000) = off.toNat := Nat.add_sub_cancel' h.1
    rw [targetAt_ibuf h, writeIdle, hoff]
    exact ⟨_, rfl, byteAt_storeWord s off.toNat v⟩
  · have hoff : off.toNat = 0x10 ∨ ObufOffset (bufBytes s) off.toNat ∨ ReservedOffset (bufBytes s) off.toNat :=
      h.imp_left (congrArg BitVec.toNat)
    rw [writeIdle_ignored hbuf hoff]
    rfl

-- Writes of CMD, STATUS and CTRL (R19 to R21, R84, R100, R102)

/-- Settles O8: a CMD write while idle is the command start, and while busy is ignored. -/
theorem cmdWriteStartsACommand : Obligations.CmdWriteStartsACommand := by
  intro s v
  have hwrite : hostAccess (busWrite 0x00 v) s = respond false 0 (writeTarget .cmd v s) := hostAccess_busWrite rfl v s
  refine ⟨fun hp => ?_, fun hb => ?_⟩
  · rw [hwrite, writeTarget_idle hp]
    exact ⟨rfl, rfl, rfl⟩
  · rw [hwrite, writeTarget_busy hb]
    rfl

/-- Settles O10: STATUS takes a write alike while idle and while busy. -/
theorem statusWriteClearsOnlyItsThreeBits : Obligations.StatusWriteClearsOnlyItsThreeBits := by
  intro s v
  have hwrite : hostAccess (busWrite 0x04 v) s = respond false 0 (writeTarget .status v s) := hostAccess_busWrite rfl v s
  rw [hwrite, writeTarget_status]
  rfl

-- Reset (R31, R99, R100)

/-- The values R31 gives the registers, the flags, the phase and `irq`. -/
structure ResetValues (t : State) : Prop where
  phase : t.phase = .idle
  status : statusWord t = 0
  ctrl : ctrlWord t = 0
  inLen : t.inLen = 0
  outLen : t.outLen = 0
  key : t.key.bytes = List.replicate 16 0
  iv : t.iv.bytes = List.replicate 16 0
  request : t.request = none
  irq : irq t = false

/-- STATUS reads 0 when every field of it is 0 (R20). -/
theorem statusWord_eq_zero {t : State} (hp : t.phase = .idle) (hdone : t.done = false) (herr : t.err = false)
    (hkey : t.keyWr = 0) (hcode : t.errcode = 0) (hign : t.wrIgn = false) (hr : t.request = none) (hop : t.lastOp = 0) :
    statusWord t = 0 := by
  simp [statusWord, fieldAt, (busy_eq_false_iff t).2 hp, keyValid, entWait, hdone, herr, hkey, hcode, hign, hr, hop]

theorem resetOf_resetValues (c : Config) : ResetValues (State.resetOf c) :=
  ⟨rfl, statusWord_eq_zero rfl rfl rfl rfl rfl rfl rfl rfl, rfl, rfl, rfl, quad_bytes_zero, quad_bytes_zero, rfl, rfl⟩

theorem enterReset_resetValues (s : State) : ResetValues (enterReset s) :=
  ⟨rfl, statusWord_eq_zero rfl rfl rfl rfl rfl rfl rfl rfl, rfl, rfl, rfl, quad_bytes_zero, quad_bytes_zero, rfl, rfl⟩

/-- A CTRL write with SRST = 1 is a reset, whatever the engine does. -/
theorem hostAccess_softReset {v : Word} (hv : v.getLsbD 1 = true) (s : State) :
    hostAccess (busWrite 0x08 v) s = respond false 0 (enterReset s) := by
  have hwrite : hostAccess (busWrite 0x08 v) s = respond false 0 (writeTarget .ctrl v s) := hostAccess_busWrite rfl v s
  rw [hwrite, writeTarget_ctrl, writeCtrl, if_pos hv]

/-- Settles O21: the soft reset enters the reset state, and keeps what the model's own fields keep. -/
theorem softResetEntersTheResetState : Obligations.SoftResetEntersTheResetState := by
  intro s v hv
  have h := enterReset_resetValues s
  exact ⟨_, hostAccess_softReset hv s, h.phase, rfl, h.request, rfl, h.status, h.ctrl, h.irq, h.inLen, h.outLen, h.key, h.iv,
    rfl, rfl, rfl, rfl, rfl⟩

theorem step_of_powerOn_event {s : State} {es : List Event} (h : s.events = .powerOn :: es) :
    step s = .next (enterReset (s.withEvents es)) := by
  simp only [step, h]

/-- Settles O23: the reset state, and the state a power-on event enters, have the values of R31. -/
theorem resetStateValues : Obligations.ResetStateValues := by
  refine ⟨fun c => ?_, fun s es he => ?_⟩
  · have h := resetOf_resetValues c
    exact ⟨h.phase, h.status, h.ctrl, h.inLen, h.outLen, h.key, h.iv, h.request, h.irq⟩
  · have h := enterReset_resetValues (s.withEvents es)
    exact ⟨_, step_of_powerOn_event he, h.phase, h.status, h.ctrl, h.inLen, h.outLen, h.key, h.iv, h.request, h.irq⟩

/-- Settles O59: the reset state is idle and quiet, its key is zero, and its memory and its port are empty. -/
theorem resetMeetsTheInvariants : Obligations.ResetMeetsTheInvariants := fun _ =>
  ⟨statusInv_of_idle rfl (Nat.zero_le _) nofun, keyInv_of_zero rfl, progressInv_of_quiet rfl rfl fun _ => rfl,
    ⟨rfl, nofun, Nat.zero_le _⟩, nofun⟩

-- Which steps go on (R19, R34, R91)

theorem step_of_host_event {s : State} {a : Access} {es : List Event} (h : s.events = .host a :: es) :
    step s = .next (hostAccess a (s.withEvents es)) := by
  simp only [step, h]

theorem step_of_entropy_event {s : State} {tag : Nat} {a : Answer} {es : List Event} (h : s.events = .entropy tag a :: es) :
    step s = receiveAnswer tag a (s.withEvents es) := by
  simp only [step, h]

theorem step_of_sink_event {s : State} {lost : Bool} {es : List Event} (h : s.events = .sink lost :: es) :
    step s = .next (sinkMove (s.withEvents es)) := by
  simp only [step, h]

/-- No command stops the machine. -/
theorem engineMove_goesOn (s : State) : ∃ t, engineMove s = .next t := by
  rcases engineMove_cases s with ⟨-, hx⟩ | ⟨cmd, -, -, hx⟩ <;> rw [hx]
  · exact ⟨s, rfl⟩
  · rw [runCommand_eq]
    split
    next i _ => rcases exec_cases i s with ⟨_, _, _, hx⟩ | ⟨_, _, _, hx⟩ | ⟨_, _, hx⟩ <;> exact ⟨_, hx⟩
    next => exact ⟨_, rfl⟩

/-- An entropy answer stops the machine only when it answers the outstanding request with another length. -/
theorem receiveAnswer_goesOn_or_misfits (tag : Nat) (a : Answer) (s : State) :
    (∃ t, receiveAnswer tag a s = .next t) ∨
    (receiveAnswer tag a s = .fault .entropyAnswerLength ∧
      ∃ q, s.request = some q ∧ q.tag = tag ∧ answerFits q.size a = false) := by
  unfold receiveAnswer
  split
  next => exact .inl ⟨_, rfl⟩
  next q hq =>
    split
    next htag =>
      split
      next => exact .inl ⟨_, rfl⟩
      next hfit => exact .inr ⟨rfl, q, hq, htag, by simpa using hfit⟩
    next => exact .inl ⟨_, rfl⟩

/-- A step goes on, or is a fault at an answer that breaks the port's protocol. -/
theorem stepsOn_or_protocol_broken (s : State) : StepsOn s ∨ ((∃ f, step s = .fault f) ∧ ¬ NextEventFits s) := by
  match he : s.events with
  | [] => exact .inl (by rw [StepsOn, step_of_no_event he]; exact engineMove_goesOn s)
  | .engine :: es => exact .inl (by rw [StepsOn, step_of_engine_event he]; exact engineMove_goesOn _)
  | .host a :: es => exact .inl ⟨_, step_of_host_event he⟩
  | .sink lost :: es => exact .inl ⟨_, step_of_sink_event he⟩
  | .powerOn :: es => exact .inl ⟨_, step_of_powerOn_event he⟩
  | .entropy tag a :: es =>
    have hstep := step_of_entropy_event he
    rcases receiveAnswer_goesOn_or_misfits tag a (s.withEvents es) with ⟨t, ht⟩ | ⟨hf, q, hq, htag, hfit⟩
    · exact .inl ⟨t, hstep.trans ht⟩
    · refine .inr ⟨⟨_, hstep.trans hf⟩, fun hprotocol => ?_⟩
      cases hfit.symm.trans (hprotocol tag a es q he hq htag)

/-- Settles O5: a step goes on, unless its event breaks the port's protocol, and then it is a fault and no refusal. -/
theorem everyProtocolStepGoesOn : Obligations.EveryProtocolStepGoesOn := by
  intro s
  rcases stepsOn_or_protocol_broken s with ⟨t, ht⟩ | ⟨⟨f, hf⟩, hbroken⟩
  · refine ⟨fun _ => ⟨t, ht⟩, fun r hr => ?_, fun ⟨f, hf⟩ => ?_⟩
    · cases ht.symm.trans hr
    · cases ht.symm.trans hf
  · refine ⟨fun hfits => absurd hfits hbroken, fun r hr => ?_, fun _ => hbroken⟩
    cases hf.symm.trans hr

-- What no command's move changes (R29, R47, R85)

/-- Settles O40: a move is a request or one of the two completions. -/
theorem commandMoveFrame : Obligations.CommandMoveFrame := by
  intro i s t cmd hp h
  rcases exec_cases i s with ⟨p, n, sc, hx⟩ | ⟨out, nul, iv, hx⟩ | ⟨code, iv, hx⟩ <;> cases hx.symm.trans h
  · refine ⟨rfl, rfl, rfl, rfl, rfl, rfl, rfl, fun _ _ => rfl, fun _ => rfl, fun hidle => ?_⟩
    cases hp.symm.trans hidle
  · simp +contextual [byteAt_successCompletion_below]
  · simp +contextual [byteAt_failCompletion_below]

-- Where key bytes go (R24, R93)

/-- The state with another key. -/
def State.withKey (s : State) (q : Quad) : State := { s with key := q }

/-- What a move from a state with another key answers, when the move does not look at the key. -/
def outcomeWithKey (q : Quad) : Host.Outcome State Fault Refusal → Host.Outcome State Fault Refusal
  | .next t => .next (t.withKey q)
  | .fault f => .fault f
  | .refused r => .refused r

section
variable (s : State) (q : Quad)

@[simp] theorem withKey_stage : (s.withKey q).stage = s.stage := rfl
@[simp] theorem withKey_request : (s.withKey q).request = s.request := rfl
@[simp] theorem busy_withKey : busy (s.withKey q) = busy s := rfl
@[simp] theorem bufBytes_withKey : bufBytes (s.withKey q) = bufBytes s := rfl
@[simp] theorem inLength_withKey : inLength (s.withKey q) = inLength s := rfl
@[simp] theorem inputBytes_withKey (n : Nat) : inputBytes (s.withKey q) n = inputBytes s n := rfl
@[simp] theorem inputString_withKey (n : Nat) : inputString (s.withKey q) n = inputString s n := rfl

/-- No location's value shows the key: KEYk reads 0, and STATUS shows only which words were written (R20, R24). -/
@[simp] theorem locationValue_withKey (x : Target) : locationValue (s.withKey q) x = locationValue s x := by
  cases x <;> rfl

theorem requestEntropy_withKey (p : Purpose) (n : Nat) :
    requestEntropy p n (s.withKey q) = (requestEntropy p n s).withKey q := rfl

variable {i : Instr} (hi : keyUsing i = false)
include hi

theorem raiseError_withKey (code : ErrorCode) :
    raiseError i code none (s.withKey q) = outcomeWithKey q (raiseError i code none s) := by
  rw [raiseError, raiseError, hi]
  rfl

theorem finishOk_withKey (out : List Byte) (nul : Bool) (iv : Option (List Byte)) :
    finishOk i out nul iv (s.withKey q) = outcomeWithKey q (finishOk i out nul iv s) := by
  rw [finishOk, finishOk, successCompletion, successCompletion, hi]
  cases iv <;> cases noticesSuccess i <;> rfl

end

theorem exec_withKey (s : State) (q : Quad) {i : Instr} (hi : keyUsing i = false) :
    exec i (s.withKey q) = outcomeWithKey q (exec i s) := by
  cases i with
  | cbcEncrypt | cbcDecrypt | payloadEncrypt | payloadDecrypt => cases hi
  | frameBuild | frameParse | genIv | b64Encode | b64Decode =>
    simp only [exec, execFrameBuild, execFrameParse, execGenIv, execB64Encode, execB64Decode, bufBytes_withKey,
      inLength_withKey, inputBytes_withKey, inputString_withKey, withKey_stage, raiseError_withKey s q hi,
      finishOk_withKey s q hi, requestEntropy_withKey]
    repeat' split
    all_goals rfl

/-- The engine's move does not look at the key while no key-using command runs. -/
theorem engineMove_withKey {s : State} (q : Quad)
    (hk : ∀ cmd i, s.phase = .busy cmd → decodeWord cmd = .ok i → keyUsing i = false) :
    engineMove (s.withKey q) = outcomeWithKey q (engineMove s) := by
  rcases engineMove_cases s with ⟨hrest, hx⟩ | ⟨cmd, hp, hw, hx⟩
  · rcases engineMove_cases (s.withKey q) with ⟨-, hy⟩ | ⟨cmd, hp, hw, -⟩
    · rw [hx, hy, outcomeWithKey]
    · rcases hrest with hidle | hwait
      · cases hidle.symm.trans hp
      · cases hwait.symm.trans hw
  · have hy := engineMove_of_busy (s := s.withKey q) hp ((entWait_eq_false_iff s).1 hw)
    rw [hx, hy, runCommand_eq, runCommand_eq]
    split
    next i hd => exact exec_withKey s q (hk cmd i hp hd)
    next => rfl

theorem receiveAnswer_withKey (tag : Nat) (a : Answer) (s : State) (q : Quad) :
    receiveAnswer tag a (s.withKey q) = outcomeWithKey q (receiveAnswer tag a s) := by
  simp only [receiveAnswer, withKey_request]
  repeat' split
  all_goals rfl

theorem readTarget_withKey (x : Target) (s : State) (q : Quad) :
    readTarget x (s.withKey q) = (readTarget x s).withKey q := by
  simp only [readTarget, busy_withKey, locationValue_withKey]
  split <;> rfl

theorem writeCtrl_withKey (v : Word) (s : State) (q : Quad) :
    ∃ q', writeCtrl v (s.withKey q) = (writeCtrl v s).withKey q' := by
  unfold writeCtrl
  split
  next => exact ⟨Quad.zero, rfl⟩
  next => exact ⟨q, rfl⟩

theorem writeIdle_withKey (x : Target) (v : Word) (s : State) (q : Quad) :
    ∃ q', writeIdle x v (s.withKey q) = (writeIdle x v s).withKey q' := by
  cases x with
  | ctrl => exact writeCtrl_withKey v s q
  | key k => exact ⟨q.set k v, rfl⟩
  | cmd | status | inLen | outLen | iv | ibuf | obuf | reserved => exact ⟨q, rfl⟩

theorem writeBusy_withKey (x : Target) (v : Word) (s : State) (q : Quad) :
    ∃ q', writeBusy x v (s.withKey q) = (writeBusy x v s).withKey q' := by
  cases x with
  | ctrl => exact writeCtrl_withKey v s q
  | cmd | status | inLen | outLen | key | iv | ibuf | obuf | reserved => exact ⟨q, rfl⟩

/-- A write leaves another key in its place, unless it writes a key word or resets the engine. -/
theorem writeTarget_withKey (x : Target) (v : Word) (s : State) (q : Quad) :
    ∃ q', writeTarget x v (s.withKey q) = (writeTarget x v s).withKey q' := by
  cases hb : busy s
  · have hp := (busy_eq_false_iff s).1 hb
    rw [writeTarget_idle hp, writeTarget_idle (s := s.withKey q) hp]
    exact writeIdle_withKey x v s q
  · rw [writeTarget_busy hb, writeTarget_busy (s := s.withKey q) hb]
    exact writeBusy_withKey x v s q

theorem hostAccess_withKey (a : Access) (s : State) (q : Quad) :
    ∃ q', hostAccess a (s.withKey q) = (hostAccess a s).withKey q' := by
  unfold hostAccess
  split
  next =>
    cases a with
    | read off w => exact ⟨q, readTarget_withKey _ s q⟩
    | write off w v =>
      obtain ⟨q', hq⟩ := writeTarget_withKey (accessTarget (.write off w v) s) v s q
      exact ⟨q', congrArg (respond false 0) hq⟩
  next => exact ⟨q, rfl⟩

/-- Settles O17: each agent's move from a state with another key is its move from the state, but for the key. -/
theorem keyBytesStayInsideKeyUsingCommands : Obligations.KeyBytesStayInsideKeyUsingCommands := by
  intro s t q hk h
  change ∃ q', step (s.withKey q) = .next (t.withKey q')
  match he : s.events with
  | [] =>
    rw [step_of_no_event he] at h
    rw [step_of_no_event (s := s.withKey q) he]
    exact ⟨q, (engineMove_withKey q hk).trans (congrArg _ h)⟩
  | .engine :: es =>
    rw [step_of_engine_event he] at h
    rw [step_of_engine_event (s := s.withKey q) he]
    exact ⟨q, (engineMove_withKey (s := s.withEvents es) q hk).trans (congrArg _ h)⟩
  | .host a :: es =>
    cases (step_of_host_event he).symm.trans h
    obtain ⟨q', hq⟩ := hostAccess_withKey a (s.withEvents es) q
    exact ⟨q', (step_of_host_event (s := s.withKey q) he).trans (congrArg _ hq)⟩
  | .entropy tag a :: es =>
    rw [step_of_entropy_event he] at h
    rw [step_of_entropy_event (s := s.withKey q) he]
    exact ⟨q, (receiveAnswer_withKey tag a (s.withEvents es) q).trans (congrArg _ h)⟩
  | .sink lost :: es =>
    cases (step_of_sink_event he).symm.trans h
    exact ⟨q, step_of_sink_event (s := s.withKey q) he⟩
  | .powerOn :: es =>
    cases (step_of_powerOn_event he).symm.trans h
    exact ⟨Quad.zero, step_of_powerOn_event (s := s.withKey q) he⟩

end Sys2Proof.Machine
end

section
/-! Proofs of the family 20_memory: the accesses the bus does not serve (R34), and the host's reads and writes while a command
runs (R39, R102, R103). -/

namespace Sys2Proof.Machine

-- Accesses of a bad width or alignment (R34)

theorem accessWellFormed_eq_false {a : Access} (h : a.offset.toNat % 4 ≠ 0 ∨ a.width ≠ .bits32) :
    accessWellFormed a = false := by
  rcases h with hoff | hwidth
  · simp [accessWellFormed, accessAligned, hoff]
  · simp [accessWellFormed, accessFullWidth, hwidth]

/-- Settles O11: an ill-formed access is answered with an error and no location is looked at. -/
theorem badAccessChangesNothing : Obligations.BadAccessChangesNothing := by
  intro s a h
  have hbad := accessWellFormed_eq_false h
  rcases hostAccess_cases a s with ⟨-, hx⟩ | ⟨hgood, -⟩ | ⟨hgood, -⟩
  · exact hx
  · cases hbad.symm.trans hgood
  · cases hbad.symm.trans hgood

-- The register banks KEY0 to KEY3 and IV0 to IV3 (R18)

/-- An aligned offset within a bank of four registers is the offset of one of them. -/
theorem exists_register_of_bank {base off : Nat} (hbase : base % 4 = 0) (halign : off % 4 = 0) (hlo : base ≤ off)
    (hhi : off ≤ base + 0xC) : ∃ k : Fin 4, off = base + 4 * k.val :=
  ⟨⟨(off - base) / 4, by omega⟩, by simp only; omega⟩

theorem exists_targetAt_key {b off : Nat} (halign : off % 4 = 0) (hlo : 0x20 ≤ off) (hhi : off ≤ 0x2C) :
    ∃ k, targetAt b off = .key k := by
  obtain ⟨k, hk⟩ := exists_register_of_bank (base := 0x20) rfl halign hlo hhi
  exact ⟨k, targetAt_key k hk⟩

theorem exists_targetAt_iv {b off : Nat} (halign : off % 4 = 0) (hlo : 0x30 ≤ off) (hhi : off ≤ 0x3C) :
    ∃ k, targetAt b off = .iv k := by
  obtain ⟨k, hk⟩ := exists_register_of_bank (base := 0x30) rfl halign hlo hhi
  exact ⟨k, targetAt_iv k hk⟩

-- Writes while busy (R102)

theorem hostAccess_busWrite_busy {s : State} {off : Offset} (hb : busy s = true) (halign : off.toNat % 4 = 0) (v : Word) :
    hostAccess (busWrite off v) s = respond false 0 (writeBusy (targetAt (bufBytes s) off.toNat) v s) := by
  rw [hostAccess_busWrite halign, writeTarget_busy hb]

/-- The locations whose writes are ignored while busy and set WR_IGN: CMD, IN_LEN, KEYk, IVk and IBUF words. -/
theorem writeBusy_setsWrIgn {b off : Nat} (halign : off % 4 = 0)
    (h : off = 0x00 ∨ off = 0x0C ∨ (0x20 ≤ off ∧ off ≤ 0x3C) ∨ IbufOffset b off) (v : Word) (s : State) :
    writeBusy (targetAt b off) v s = ignoreWrite s := by
  rcases h with rfl | rfl | ⟨hlo, hhi⟩ | h
  · rfl
  · rfl
  · rcases (by omega : off ≤ 0x2C ∨ 0x30 ≤ off) with hkey | hiv
    · obtain ⟨k, hk⟩ := exists_targetAt_key (b := b) halign hlo hkey
      rw [hk, writeBusy]
    · obtain ⟨k, hk⟩ := exists_targetAt_iv (b := b) halign hiv hhi
      rw [hk, writeBusy]
  · rw [targetAt_ibuf h, writeBusy]

/-- The locations whose writes have no effect while busy: OUT_LEN, OBUF words and reserved locations. -/
theorem writeBusy_noEffect {b off : Nat} (hb : b ≤ 65536) (h : off = 0x10 ∨ ObufOffset b off ∨ ReservedOffset b off)
    (v : Word) (s : State) : writeBusy (targetAt b off) v s = s := by
  rcases h with rfl | h | h
  · rfl
  · rw [targetAt_obuf hb h, writeBusy]
  · rw [targetAt_reserved hb h, writeBusy]

/-- A CTRL write, answered: a reset with SRST, else IRQ_EN (R21, R102). -/
theorem respond_writeCtrl (v : Word) (s : State) :
    respond false 0 (writeCtrl v s) =
      if v.getLsbD 1 then { enterReset s with resp := served 0 } else { s with irqEn := v.getLsbD 0, resp := served 0 } := by
  rcases writeCtrl_cases v s with ⟨hv, hx⟩ | ⟨hv, hx⟩ <;> rw [hx, hv] <;> rfl

/-- Settles O15: the location each offset names, and what a write while busy does to it. -/
theorem busyWritesAreIgnoredOrTaken : Obligations.BusyWritesAreIgnoredOrTaken := by
  intro s off v hb halign
  have hwrite := hostAccess_busWrite_busy hb halign v
  refine ⟨fun h => ⟨0, ?ignored⟩, fun hoff => ⟨0, ?status⟩, fun hoff => ⟨0, ?ctrl⟩, fun h => ⟨0, ?noEffect⟩,
    fun a ha => badAccessChangesNothing s a ha⟩
  case ignored =>
    have hoff := h.imp (congrArg BitVec.toNat) (Or.imp_left (congrArg BitVec.toNat))
    rw [hwrite, writeBusy_setsWrIgn halign hoff]
    rfl
  case status =>
    rw [hoff, statusWriteClearsOnlyItsThreeBits]
  case ctrl =>
    rw [hwrite, hoff]
    exact respond_writeCtrl v s
  case noEffect =>
    have hoff := h.imp_left (congrArg BitVec.toNat)
    rw [hwrite, writeBusy_noEffect (bufBytes_bounds s).2 hoff]
    rfl

-- Reads while busy (R39, R103)

/-- A read whose value is unspecified answers with some word, and counts one more draw. -/
theorem readTarget_free {s : State} {x : Target} (hb : busy s = true) (hx : readsFreeWhileBusy x = true) :
    readTarget x s = { s with resp := served (Config.freeWord s.draws), draws := s.draws + 1 } :=
  if_pos (by rw [hb, hx]; rfl)

/-- The locations whose reads are unspecified while busy: OUT_LEN, IVk and OBUF words. -/
theorem readsFreeWhileBusy_targetAt {b off : Nat} (hb : b ≤ 65536) (halign : off % 4 = 0)
    (h : off = 0x10 ∨ (0x30 ≤ off ∧ off ≤ 0x3C) ∨ ObufOffset b off) : readsFreeWhileBusy (targetAt b off) = true := by
  rcases h with rfl | ⟨hlo, hhi⟩ | h
  · rfl
  · obtain ⟨k, hk⟩ := exists_targetAt_iv (b := b) halign hlo hhi
    rw [hk, readsFreeWhileBusy]
  · rw [targetAt_obuf hb h, readsFreeWhileBusy]

/-- The locations that read 0, busy or not: CMD, KEYk and reserved locations (R18, R19, R24, R103). -/
theorem readTarget_zero {b off : Nat} (hb : b ≤ 65536) (halign : off % 4 = 0)
    (h : off = 0x00 ∨ (0x20 ≤ off ∧ off ≤ 0x2C) ∨ ReservedOffset b off) (s : State) :
    readTarget (targetAt b off) s = { s with resp := served 0 } := by
  rcases h with rfl | ⟨hlo, hhi⟩ | h
  · exact readTarget_specified (x := .cmd) (.inr rfl)
  · obtain ⟨k, hk⟩ := exists_targetAt_key (b := b) halign hlo hhi
    rw [hk]
    exact readTarget_specified (.inr rfl)
  · rw [targetAt_reserved hb h]
    exact readTarget_specified (.inr rfl)

/-- Settles O16: the location each offset names, and what a read of it while busy answers. -/
theorem busyReadsReturnCurrentOrFreeValues : Obligations.BusyReadsReturnCurrentOrFreeValues := by
  intro s off hb halign
  have hbuf := (bufBytes_bounds s).2
  have hread := hostAccess_busRead halign s
  refine ⟨fun h => ⟨Config.freeWord s.draws, ?free⟩, fun hoff => ?status, fun hoff => ?ctrl, fun hoff => ?inLen,
    fun h => ⟨bufferWord s (ibufBase + (off.toNat - 0x10000)), ?ibuf, fun j hj => ?ibufBytes⟩, fun h => ?zero⟩
  case free =>
    rw [hread]
    exact readTarget_free hb (readsFreeWhileBusy_targetAt hbuf halign (h.imp_left (congrArg BitVec.toNat)))
  case status =>
    rw [hread, hoff]
    exact readTarget_specified (x := .status) (.inr rfl)
  case ctrl =>
    rw [hread, hoff, ← ctrlWord_eq]
    exact readTarget_specified (x := .ctrl) (.inr rfl)
  case inLen =>
    rw [hread, hoff]
    exact readTarget_specified (x := .inLen) (.inr rfl)
  case ibuf =>
    rw [hread, targetAt_ibuf h]
    exact readTarget_specified (.inr rfl)
  case ibufBytes =>
    rw [extractLsb'_bufferWord _ _ hj, Nat.add_assoc]
    rfl
  case zero =>
    rw [hread]
    exact readTarget_zero hbuf halign (h.imp_left (congrArg BitVec.toNat)) s

end Sys2Proof.Machine
end

section
/-! Proofs of the family 30_encoding, first part: the CMD words and their bytes (R44 to R46), and what an illegal CMD value does
(R46, R84, R87). -/

namespace Sys2Proof

-- The two fields of a CMD word (R44)

theorem cmdOp_toNat (w : Word) : (cmdOp w).toNat = w.toNat % 16 := by
  simp [cmdOp, BitVec.extractLsb'_toNat]

theorem rsvZero_iff (w : Word) : rsvZero w = true ↔ w.toNat / 16 = 0 := by
  have hrsv : (cmdRsv w).toNat = w.toNat / 16 := by
    have hw := w.isLt
    simp only [cmdRsv, BitVec.extractLsb'_toNat, Nat.shiftRight_eq_div_pow]
    omega
  rw [rsvZero, beq_iff_eq, ← BitVec.toNat_inj, hrsv]
  rfl

-- The opcode map (R45)

theorem commandOfOp_eq_some_iff (n : Nat) (i : Instr) : commandOfOp n = some i ↔ (opcodeOf i).toNat = n := by
  constructor
  · intro h
    unfold commandOfOp at h
    split at h <;> cases h <;> rfl
  · rintro rfl
    cases i <;> rfl

/-- The reserved opcodes are 0x0 and 0xA to 0xF (R46). -/
theorem commandOfOp_eq_none {n : Nat} (h : n = 0 ∨ 10 ≤ n) : commandOfOp n = none := by
  unfold commandOfOp
  split
  case h_10 => rfl
  all_goals omega

theorem exists_commandOfOp {n : Nat} (hlo : 1 ≤ n) (hhi : n ≤ 9) : ∃ i, commandOfOp n = some i := by
  interval_cases n <;> exact ⟨_, rfl⟩

theorem encodeWord_toNat (i : Instr) : (encodeWord i).toNat = (opcodeOf i).toNat := by
  have hop := (opcodeOf i).isLt
  rw [encodeWord, BitVec.toNat_setWidth]
  omega

-- What a word decodes to (R44, R46)

theorem decodeWord_reservedBits {w : Word} (h : w.toNat / 16 ≠ 0) : decodeWord w = .error .reservedBits :=
  if_neg fun hz => h ((rsvZero_iff w).1 hz)

theorem decodeWord_reservedOpcode {w : Word} (hrsv : w.toNat / 16 = 0) (hop : w.toNat % 16 = 0 ∨ 10 ≤ w.toNat % 16) :
    decodeWord w = .error (.reservedOpcode (cmdOp w)) := by
  simp only [decodeWord, (rsvZero_iff w).2 hrsv, if_true, cmdOp_toNat, commandOfOp_eq_none hop]

/-- Either test of R46 rejects the word. -/
theorem decodeWord_illegal {w : Word} (h : w.toNat / 16 ≠ 0 ∨ w.toNat % 16 = 0 ∨ 10 ≤ w.toNat % 16) :
    ∃ e, decodeWord w = .error e := by
  by_cases hrsv : w.toNat / 16 = 0
  · exact ⟨_, decodeWord_reservedOpcode hrsv (h.resolve_left (not_not_intro hrsv))⟩
  · exact ⟨_, decodeWord_reservedBits hrsv⟩

/-- A word is a command's exactly when it is the word that encodes it: RSV is 0 and OP is the command's opcode. -/
theorem decodeWord_eq_ok_iff (w : Word) (i : Instr) : decodeWord w = .ok i ↔ w = encodeWord i := by
  have hfields : w = encodeWord i ↔ w.toNat / 16 = 0 ∧ (opcodeOf i).toNat = (cmdOp w).toNat := by
    have hop := (opcodeOf i).isLt
    rw [← BitVec.toNat_inj, encodeWord_toNat, cmdOp_toNat]
    omega
  rw [hfields, ← rsvZero_iff, ← commandOfOp_eq_some_iff, decodeWord]
  split
  next hrsv => cases commandOfOp (cmdOp w).toNat <;> simp [hrsv]
  next hrsv => simp [hrsv]

theorem decodeWord_encodeWord (i : Instr) : decodeWord (encodeWord i) = .ok i := (decodeWord_eq_ok_iff _ i).2 rfl

-- What a byte string decodes to (R36, R44)

/-- The decoder takes one word's bytes and leaves those after them. -/
theorem decode_laneBytes_append (w : Word) (rest : List Byte) :
    decode (laneBytes w ++ rest) = (decodeWord w).map (fun i => (i, rest)) := by
  simp only [laneBytes, List.cons_append, List.nil_append, decode, wordOfLanes_laneBytes]

theorem decode_encode_append (i : Instr) (rest : List Byte) : decode (encode i ++ rest) = .ok (i, rest) := by
  rw [encode, decode_laneBytes_append, decodeWord_encodeWord]
  rfl

/-- A byte string that decodes holds at least one word's bytes. -/
theorem exists_word_of_decode_eq_ok {b : List Byte} {x : Instr × List Byte} (h : decode b = .ok x) :
    ∃ w rest, b = laneBytes w ++ rest := by
  match b with
  | b0 :: b1 :: b2 :: b3 :: rest =>
    exact ⟨wordOfLanes b0 b1 b2 b3, rest, by rw [laneBytes_wordOfLanes]; rfl⟩
  | [] | [_] | [_, _] | [_, _, _] => cases h

/-- Settles O1: a string that decodes is a word's bytes and a rest, and the only word that decodes to a command is the one
that encodes it. -/
theorem decodeAcceptsExactlyTheEncodings : Obligations.DecodeAcceptsExactlyTheEncodings := by
  intro b rest i
  constructor
  · intro h
    obtain ⟨w, rest', rfl⟩ := exists_word_of_decode_eq_ok h
    rw [decode_laneBytes_append] at h
    cases hd : decodeWord w with
    | error e => rw [hd] at h; cases h
    | ok j =>
      rw [hd] at h
      cases h
      rw [encode, (decodeWord_eq_ok_iff w i).1 hd]
  · rintro rfl
    exact decode_encode_append i rest

/-- Settles O2: the three ranges of a word's value, by its two fields. -/
theorem illegalWordsAreRejectedByName : Obligations.IllegalWordsAreRejectedByName := by
  intro w
  refine ⟨decodeWord_reservedBits, fun h => ?_, fun ⟨hlo, hhi⟩ => ?_⟩
  · have hop : cmdOp w = BitVec.ofNat 4 w.toNat := BitVec.eq_of_toNat_eq (by rw [cmdOp_toNat, BitVec.toNat_ofNat])
    rw [← hop]
    exact decodeWord_reservedOpcode (by omega) (by omega)
  · obtain ⟨i, hi⟩ := exists_commandOfOp hlo hhi
    have hopcode := (commandOfOp_eq_some_iff _ i).1 hi
    have hword : w = encodeWord i := BitVec.eq_of_toNat_eq (by rw [encodeWord_toNat, hopcode])
    exact ⟨i, (decodeWord_eq_ok_iff w i).2 hword, hopcode⟩

/-- Settles O3: each sample is the word that encodes its command, and the last is that word's bytes. -/
theorem sampleWordsDecode : Obligations.SampleWordsDecode :=
  ⟨decodeWord_encodeWord .frameBuild, decodeWord_encodeWord .frameParse, decodeWord_encodeWord .genIv,
    decodeWord_encodeWord .cbcEncrypt, decodeWord_encodeWord .cbcDecrypt, decodeWord_encodeWord .b64Encode,
    decodeWord_encodeWord .b64Decode, decodeWord_encodeWord .payloadEncrypt, decode_encode_append .payloadDecrypt []⟩

namespace Machine

-- An illegal CMD value (R46, R84, R87)

theorem runCommand_of_illegal {cmd : Word} (h : cmd.toNat / 16 ≠ 0 ∨ cmd.toNat % 16 = 0 ∨ 10 ≤ cmd.toNat % 16)
    (s : State) : runCommand cmd s = .next (completeIllegal s) := by
  obtain ⟨e, he⟩ := decodeWord_illegal h
  rw [runCommand_eq, he]

/-- The engine's move on an illegal command that has just started is its completion: no request is made first. -/
theorem step_of_illegal_command {s : State} {cmd : Word} {es : List Event} (hp : s.phase = .busy cmd) (hr : s.request = none)
    (h : cmd.toNat / 16 ≠ 0 ∨ cmd.toNat % 16 = 0 ∨ 10 ≤ cmd.toNat % 16) (he : s.events = .engine :: es) :
    step s = .next (completeIllegal (s.withEvents es)) := by
  rw [step_of_engine_event he, engineMove_of_busy (s := s.withEvents es) hp hr, runCommand_of_illegal h]

/-- A step that serves a CMD write while the engine is idle is the command start of R84. -/
theorem step_of_cmdWrite_idle {s : State} {v : Word} {es : List Event} (hp : s.phase = .idle)
    (he : s.events = .host (busWrite 0x00 v) :: es) :
    step s = .next (respond false 0 (startCommand v (s.withEvents es))) := by
  have hwrite : hostAccess (busWrite 0x00 v) (s.withEvents es) = respond false 0 (writeTarget .cmd v (s.withEvents es)) :=
    hostAccess_busWrite rfl v _
  rw [step_of_host_event he, hwrite, writeTarget_idle (s := s.withEvents es) hp]
  rfl

/-- Settles O7: the write starts the command, and the started command completes with IllegalCommand. -/
theorem illegalCommandCompletesWithCodeEight : Obligations.IllegalCommandCompletesWithCodeEight := by
  intro s v es hp hr hill he
  refine ⟨_, _, step_of_cmdWrite_idle hp he, rfl, rfl, hr, step_of_illegal_command (es := es) rfl hr hill rfl,
    failCompletion_spec false .illegalCommand none _ nofun, failCompletion_errcode _ _ _ _, ?_⟩
  exact failCompletion_nextTag _ _ _ _

end Machine

end Sys2Proof
end

section
/-! Proofs of the family 30_encoding, second part: the frame (R48, R52, R53), what the commands ask the entropy port for (R47,
R91), and the results of FRAME_BUILD and PAYLOAD_ENCRYPT (R54, R78). -/

namespace Sys2Proof.Machine

-- The frame (R48, R52, R53)

/-- A padded size is a whole number of blocks. -/
theorem paddedSize_mod (n : Nat) : paddedSize n % 16 = 0 := Nat.mul_mod_right 16 _

/-- Entropy that fills a frame has room for its header and its message. -/
theorem frame_fits {m r : List Byte} (h : r.length = paddedSize m.length) : 8 + m.length ≤ r.length := by
  have hpad := add_eight_le_paddedSize m.length
  omega

/-- BuildFrame's four writes leave the layout of R48: the first two make the pattern bytes, the next two the length and the
message, and the rest of the entropy is the filler. -/
theorem buildFrame_eq_frameLayout {m r : List Byte} (h : 8 + m.length ≤ r.length) : buildFrame m r = frameLayout m r := by
  match r, h with
  | r0 :: r1 :: r2 :: r3 :: r4 :: r5 :: r6 :: r7 :: rest, _ =>
    simp [buildFrame, frameLayout, overwrite, be32, Nat.add_comm 8]
  | [], h | [_], h | [_, _], h | [_, _, _], h | [_, _, _, _], h | [_, _, _, _, _], h | [_, _, _, _, _, _], h
  | [_, _, _, _, _, _, _], h =>
    simp only [List.length_cons, List.length_nil] at h
    omega

theorem frameLayout_length {m r : List Byte} (h : 8 + m.length ≤ r.length) : (frameLayout m r).length = r.length := by
  rw [← buildFrame_eq_frameLayout h, buildFrame_length h]

/-- The length field of a frame is the length of its message. -/
theorem readBe32_frameLayout {m : List Byte} (hm : m.length < 2 ^ 32) (r : List Byte) :
    readBe32 (frameLayout m r) 4 = m.length := by
  have hfield : readBe32 (frameLayout m r) 4 = readBe32 (be32 m.length) 0 := rfl
  rw [hfield, readBe32_be32 hm]

/-- Past its header of 8 bytes a frame begins with its message. -/
theorem frameLayout_message (m r : List Byte) : ((frameLayout m r).drop 8).take m.length = m := by
  have hdrop : (frameLayout m r).drop 8 = m ++ r.drop (8 + m.length) := rfl
  rw [hdrop, List.take_left]

/-- ParseFrame finds the message of a frame of whole blocks: its pattern bytes agree, and its length field fits. -/
theorem parseFrame_frameLayout {m r : List Byte} (hm : m.length < 2 ^ 32) (hr : r.length = paddedSize m.length) :
    parseFrame (frameLayout m r) = .ok m := by
  have hfits := frame_fits hr
  have hblocks := paddedSize_mod m.length
  have hpattern : ¬ ((frameLayout m r).getD 0 0 ≠ (frameLayout m r).getD 2 0 ∨
      (frameLayout m r).getD 1 0 ≠ (frameLayout m r).getD 3 0) := not_or.2 ⟨not_not_intro rfl, not_not_intro rfl⟩
  rw [parseFrame, if_neg (by rw [frameLayout_length hfits]; omega), if_neg hpattern, readBe32_frameLayout hm,
    if_neg (by rw [frameLayout_length hfits]; omega), frameLayout_message]

/-- Settles O42: BuildFrame makes the layout, and ParseFrame reads the message out of it. -/
theorem parseFrameInvertsBuildFrame : Obligations.ParseFrameInvertsBuildFrame := by
  intro m r _ hm hr
  have hlayout := buildFrame_eq_frameLayout (frame_fits hr)
  exact ⟨hlayout, hlayout ▸ parseFrame_frameLayout (by omega) hr⟩

-- The moves of the commands that ask for entropy (R47, R54, R59, R78)

/-- IN_LEN passes the tests of FRAME_BUILD (R54). -/
def FrameBuildFits (s : State) : Prop := 1 ≤ inLength s ∧ paddedSize (inLength s) ≤ bufBytes s

/-- IN_LEN passes the tests of PAYLOAD_ENCRYPT (R78). -/
def PayloadEncryptFits (s : State) : Prop :=
  1 ≤ inLength s ∧ base64Length (16 + paddedSize (inLength s)) + 1 ≤ bufBytes s

theorem FrameBuildFits.passes {s : State} (h : FrameBuildFits s) :
    ¬ bufBytes s < inLength s ∧ ¬ inLength s = 0 ∧ ¬ bufBytes s < paddedSize (inLength s) := by
  obtain ⟨hpos, hfit⟩ := h
  have hpad := add_eight_le_paddedSize (inLength s)
  omega

theorem PayloadEncryptFits.passes {s : State} (h : PayloadEncryptFits s) :
    ¬ bufBytes s < inLength s ∧ ¬ inLength s = 0 ∧
      ¬ bufBytes s < base64Length (16 + paddedSize (inLength s)) + 1 := by
  obtain ⟨hpos, hfit⟩ := h
  have hpad := add_eight_le_paddedSize (inLength s)
  have hlen := le_base64Length (16 + paddedSize (inLength s))
  omega

theorem exec_frameBuild_fresh {s : State} (h : FrameBuildFits s) (hs : s.stage = .fresh) :
    exec .frameBuild s = .next (requestEntropy .filler (paddedSize (inLength s)) s) := by
  obtain ⟨hin, hpos, hout⟩ := h.passes
  simp only [exec, execFrameBuild, hin, hpos, hout, hs, if_false]

theorem exec_frameBuild_answered {s : State} {p : Purpose} {r : List Byte} (h : FrameBuildFits s)
    (hs : s.stage = .answered p (.ok r)) :
    exec .frameBuild s = finishOk .frameBuild (buildFrame (messageOf s) r) false none s := by
  obtain ⟨hin, hpos, hout⟩ := h.passes
  simp only [exec, execFrameBuild, hin, hpos, hout, hs, if_false, messageOf]

theorem exec_genIv_fresh {s : State} (hs : s.stage = .fresh) : exec .genIv s = .next (requestEntropy .iv 16 s) := by
  simp only [exec, execGenIv, hs]

theorem exec_payloadEncrypt_fresh {s : State} (h : PayloadEncryptFits s) (hs : s.stage = .fresh) :
    exec .payloadEncrypt s = .next (requestEntropy .filler (paddedSize (inLength s)) s) := by
  obtain ⟨hin, hpos, hout⟩ := h.passes
  simp only [exec, execPayloadEncrypt, hin, hpos, hout, hs, if_false]

/-- The filler's answer makes the frame, which stands in FRAME while the IV is asked for. -/
theorem exec_payloadEncrypt_filler {s : State} {r : List Byte} (h : PayloadEncryptFits s)
    (hs : s.stage = .answered .filler (.ok r)) :
    exec .payloadEncrypt s = .next (requestEntropy .iv 16
      { s with scratch := { s.scratch with frame := .holds (buildFrame (messageOf s) r) } }) := by
  obtain ⟨hin, hpos, hout⟩ := h.passes
  simp only [exec, execPayloadEncrypt, hin, hpos, hout, hs, if_false, messageOf]

/-- With the key valid, the IV's answer completes the command on the frame in FRAME. -/
theorem exec_payloadEncrypt_iv {s : State} {r f : List Byte} (h : PayloadEncryptFits s)
    (hs : s.stage = .answered .iv (.ok r)) (hf : s.scratch.frame = .holds f) (hk : keyValid s = true) :
    exec .payloadEncrypt s =
      finishOk .payloadEncrypt (base64Encode (r ++ cbcEnc s.key.bytes r f)) true (some r) s := by
  obtain ⟨hin, hpos, hout⟩ := h.passes
  simp only [exec, execPayloadEncrypt, hin, hpos, hout, hs, hf, hk, scratchBytes, if_false, if_true]

-- What the commands ask for (R47, R91)

theorem asksFor_of_exec {i : Instr} {s : State} {p : Purpose} {n : Nat} {sc : Scratch}
    (h : exec i s = .next (requestEntropy p n { s with scratch := sc })) :
    ∃ t, exec i s = .next t ∧ AsksFor s t p n sc ∧ entWait t = true := ⟨_, h, rfl, rfl⟩

/-- Settles O20: the first move of each of the three commands, and PAYLOAD_ENCRYPT's second, is a request. -/
theorem entropyRequestsAreThoseListed : Obligations.EntropyRequestsAreThoseListed := by
  refine ⟨fun s hs hpos hfit => asksFor_of_exec (exec_frameBuild_fresh ⟨hpos, hfit⟩ hs),
    fun s hs => asksFor_of_exec (exec_genIv_fresh hs),
    fun s hs hpos hfit => asksFor_of_exec (exec_payloadEncrypt_fresh ⟨hpos, hfit⟩ hs), fun s r hs hr hpos hfit => ?_⟩
  have hmessage : (messageOf s).length = inLength s := inputBytes_length s _
  rw [← buildFrame_eq_frameLayout (frame_fits (hmessage ▸ hr))]
  exact asksFor_of_exec (exec_payloadEncrypt_filler ⟨hpos, hfit⟩ hs)

-- What the commands write (R54, R78, R86)

/-- A command that finishes with a result that fits OBUF succeeds with that result. -/
theorem succeedsWith_of_finishOk {i : Instr} {s : State} {out : List Byte} {nul : Bool} {iv : Option (List Byte)}
    (h : exec i s = finishOk i out nul iv s) (hout : out.length ≤ bufBytes s) (hiv : ∀ b, iv = some b → b.length = 16) :
    SucceedsWith i s out nul iv := by
  have hbuf := (bufBytes_bounds s).2
  exact ⟨_, h, successCompletion_spec i out nul iv s (by omega) hiv⟩

/-- Settles O25: the answered FRAME_BUILD finishes with the frame, which is as long as its entropy. -/
theorem frameBuildWritesTheFrame : Obligations.FrameBuildWritesTheFrame := by
  intro s p r hpos hfit hs hr
  have hmessage : (messageOf s).length = inLength s := inputBytes_length s _
  have hfits : 8 + (messageOf s).length ≤ r.length := frame_fits (hmessage ▸ hr)
  have hlen : (frameLayout (messageOf s) r).length = paddedSize (inLength s) := (frameLayout_length hfits).trans hr
  have hexec := exec_frameBuild_answered ⟨hpos, hfit⟩ hs
  rw [buildFrame_eq_frameLayout hfits] at hexec
  exact ⟨succeedsWith_of_finishOk hexec (hlen ▸ hfit) nofun, hlen⟩

/-- The transport string of an IV and a frame of whole blocks has the length that PAYLOAD_ENCRYPT tests for (R78). -/
theorem payloadString_length {k iv frame : List Byte} {n : Nat} (hiv : iv.length = 16) (hframe : frame.length = paddedSize n) :
    (base64Encode (iv ++ cbcEnc k iv frame)).length = base64Length (16 + paddedSize n) := by
  have hblocks := paddedSize_mod n
  rw [base64Encode_length, List.length_append, cbcEnc_length, hiv, hframe,
    Nat.mul_div_cancel' (Nat.dvd_of_mod_eq_zero hblocks)]

/-- Settles O35: PAYLOAD_ENCRYPT with its IV finishes with the transport string, whose length was tested at the start. -/
theorem payloadEncryptWritesTheTransportString : Obligations.PayloadEncryptWritesTheTransportString := by
  intro s r f hpos hfit hs hr hf hlen hkey
  have hstring := payloadString_length (k := s.key.bytes) hr hlen
  have hexec := exec_payloadEncrypt_iv ⟨hpos, hfit⟩ hs hf (by rw [keyValid, hkey]; rfl)
  refine ⟨succeedsWith_of_finishOk hexec (by omega) fun b hb => ?_, hstring⟩
  cases hb
  exact hr

end Sys2Proof.Machine
end

section
/-! Proofs of the family 41_padding_framer: what fails FRAME_BUILD (R54), and what FRAME_PARSE makes of the bytes in IBUF (R53,
R55). -/

namespace Sys2Proof.Machine

/-- A command that raises an error, its IV write none or of 16 bytes, fails with that error (R87). -/
theorem failsWith_of_raiseError {i : Instr} {s : State} {code : ErrorCode} {iv : Option (List Byte)}
    (h : exec i s = raiseError i code iv s) (hiv : ∀ b, iv = some b → b.length = 16) : FailsWith i s code iv :=
  ⟨_, h, failCompletion_spec (keyUsing i) code iv s hiv⟩

-- The errors of FRAME_BUILD (R54, R83)

theorem exec_frameBuild_inputTooLong {s : State} (hin : bufBytes s < inLength s) :
    exec .frameBuild s = raiseError .frameBuild .lengthError none s := by
  simp only [exec, execFrameBuild, if_pos hin]

theorem exec_frameBuild_empty {s : State} (hn : inLength s = 0) :
    exec .frameBuild s = raiseError .frameBuild .emptyInput none s := by
  have hin : ¬ bufBytes s < inLength s := by omega
  simp only [exec, execFrameBuild, if_neg hin, if_pos hn]

theorem exec_frameBuild_noRoom {s : State} (hpos : 1 ≤ inLength s) (hin : inLength s ≤ bufBytes s)
    (hout : bufBytes s < paddedSize (inLength s)) :
    exec .frameBuild s = raiseError .frameBuild .lengthError none s := by
  have hn : ¬ inLength s = 0 := by omega
  simp only [exec, execFrameBuild, if_neg (Nat.not_lt.2 hin), if_neg hn, if_pos hout]

theorem exec_frameBuild_noEntropy {s : State} {p : Purpose} (h : FrameBuildFits s) (hs : s.stage = .answered p .fail) :
    exec .frameBuild s = raiseError .frameBuild .entropyUnavailable none s := by
  obtain ⟨hin, hpos, hout⟩ := h.passes
  simp only [exec, execFrameBuild, hin, hpos, hout, hs, if_false]

/-- Settles O26: each test of FRAME_BUILD, and then the answer `Fail`, raises its error. -/
theorem frameBuildFailsInItsOrder : Obligations.FrameBuildFailsInItsOrder := fun _ =>
  ⟨fun hin => failsWith_of_raiseError (exec_frameBuild_inputTooLong hin) nofun,
    fun hn => failsWith_of_raiseError (exec_frameBuild_empty hn) nofun,
    fun hpos hin hout => failsWith_of_raiseError (exec_frameBuild_noRoom hpos hin hout) nofun,
    fun _ hpos hfit hs => failsWith_of_raiseError (exec_frameBuild_noEntropy ⟨hpos, hfit⟩ hs) nofun⟩

-- A command's input, byte by byte (R10, R11)

theorem inputBytes_getD (s : State) {n k : Nat} (hk : k < n) : (inputBytes s n).getD k 0 = ibufByte s k := by
  simp [inputBytes, hk]

/-- A part of a command's input is the bytes of IBUF from where it begins. -/
theorem inputBytes_drop_take (s : State) {n k l : Nat} (h : k + l ≤ n) :
    ((inputBytes s n).drop k).take l = (List.range l).map (fun j => ibufByte s (k + j)) := by
  have hl : l ≤ n - k := by omega
  apply List.ext_getElem
  · simp [hl]
  · intro j _ _
    simp [inputBytes]

/-- The number that bytes 4 to 7 of IBUF make, the first byte the most significant (R10): a frame's length field (R48). -/
def ibufLengthField (s : State) : Nat :=
  (ibufByte s 4).toNat * 2 ^ 24 + (ibufByte s 5).toNat * 2 ^ 16 + (ibufByte s 6).toNat * 2 ^ 8 + (ibufByte s 7).toNat

/-- `rd_be32` of bytes 4 to 7 of an input that has them. -/
theorem readBe32_inputBytes (s : State) {n : Nat} (hn : 8 ≤ n) : readBe32 (inputBytes s n) 4 = ibufLengthField s := by
  have hfour : readBe32 (inputBytes s n) 4 = readBe32 [(inputBytes s n).getD 4 0, (inputBytes s n).getD 5 0,
      (inputBytes s n).getD 6 0, (inputBytes s n).getD 7 0] 0 := rfl
  rw [hfour, readBe32_four, inputBytes_getD s (by omega), inputBytes_getD s (by omega), inputBytes_getD s (by omega),
    inputBytes_getD s (by omega), ibufLengthField]

-- ParseFrame of IBUF (R53)

/-- The first four bytes of IBUF are not a pattern: byte 0 differs from byte 2, or byte 1 from byte 3 (R53). -/
def PatternBroken (s : State) : Prop := ibufByte s 0 ≠ ibufByte s 2 ∨ ibufByte s 1 ≠ ibufByte s 3

theorem parseFrame_badSize {b : List Byte} (h : b.length < 8 ∨ b.length % 16 ≠ 0) : parseFrame b = .error .malformed := by
  rw [parseFrame, if_pos h]

/-- ParseFrame of an input of whole blocks tests the pattern bytes, then the length field, and takes the message from byte 8
on. -/
theorem parseFrame_inputBytes {s : State} {n : Nat} (hn : 8 ≤ n) (hblocks : n % 16 = 0) :
    (PatternBroken s → parseFrame (inputBytes s n) = .error .corrupted) ∧
    (¬ PatternBroken s → n < 8 + ibufLengthField s → parseFrame (inputBytes s n) = .error .malformed) ∧
    (¬ PatternBroken s → 8 + ibufLengthField s ≤ n → parseFrame (inputBytes s n) =
      .ok ((List.range (ibufLengthField s)).map (fun k => ibufByte s (8 + k)))) := by
  have hsize : ¬ ((inputBytes s n).length < 8 ∨ (inputBytes s n).length % 16 ≠ 0) := by
    rw [inputBytes_length]
    omega
  have hpattern : ((inputBytes s n).getD 0 0 ≠ (inputBytes s n).getD 2 0 ∨
      (inputBytes s n).getD 1 0 ≠ (inputBytes s n).getD 3 0) ↔ PatternBroken s := by
    rw [inputBytes_getD s (by omega), inputBytes_getD s (by omega), inputBytes_getD s (by omega),
      inputBytes_getD s (by omega), PatternBroken]
  rw [parseFrame, if_neg hsize, readBe32_inputBytes s hn, inputBytes_length]
  refine ⟨fun hp => ?_, fun hp hl => ?_, fun hp hl => ?_⟩
  · rw [if_pos (hpattern.2 hp)]
  · rw [if_neg (mt hpattern.1 hp), if_pos hl]
  · rw [if_neg (mt hpattern.1 hp), if_neg (Nat.not_lt.2 hl), inputBytes_drop_take s hl]

-- FRAME_PARSE (R55)

theorem exec_frameParse_inputTooLong {s : State} (hin : bufBytes s < inLength s) :
    exec .frameParse s = raiseError .frameParse .lengthError none s := by
  simp only [exec, execFrameParse, if_pos hin]

/-- An input that fits the buffer is parsed, and ParseFrame's error is the command's. -/
theorem exec_frameParse_of_error {s : State} {e : ErrorCode} (hin : inLength s ≤ bufBytes s)
    (h : parseFrame (inputBytes s (inLength s)) = .error e) :
    exec .frameParse s = raiseError .frameParse e none s := by
  simp only [exec, execFrameParse, if_neg (Nat.not_lt.2 hin), h]

/-- An input that fits the buffer is parsed, and ParseFrame's message is the command's result, nul-terminated. -/
theorem exec_frameParse_of_ok {s : State} {m : List Byte} (hin : inLength s ≤ bufBytes s)
    (h : parseFrame (inputBytes s (inLength s)) = .ok m) :
    exec .frameParse s = finishOk .frameParse m true none s := by
  simp only [exec, execFrameParse, if_neg (Nat.not_lt.2 hin), h]

theorem frameParse_failsWith {s : State} {e : ErrorCode} (hin : inLength s ≤ bufBytes s)
    (h : parseFrame (inputBytes s (inLength s)) = .error e) : FailsWith .frameParse s e none :=
  failsWith_of_raiseError (exec_frameParse_of_error hin h) nofun

theorem frameParse_succeedsWith {s : State} {m : List Byte} (hin : inLength s ≤ bufBytes s)
    (h : parseFrame (inputBytes s (inLength s)) = .ok m) : SucceedsWith .frameParse s m true none := by
  have hlen := parseFrame_length_le h
  rw [inputBytes_length] at hlen
  exact succeedsWith_of_finishOk (exec_frameParse_of_ok hin h) (by omega) nofun

/-- Settles O27: ParseFrame finds the message behind the header, and FRAME_PARSE finishes with it. -/
theorem frameParseWritesTheMessage : Obligations.FrameParseWritesTheMessage := by
  intro s l hin hmin hblocks h02 h13 hl hfit
  have hfield : l = ibufLengthField s := hl
  subst hfield
  obtain ⟨-, -, hparse⟩ := parseFrame_inputBytes (s := s) hmin hblocks
  exact frameParse_succeedsWith hin (hparse (not_or.2 ⟨not_not_intro h02, not_not_intro h13⟩) hfit)

/-- Settles O28: IN_LEN is tested first, and then each test of ParseFrame gives its error. -/
theorem frameParseFailsInItsOrder : Obligations.FrameParseFailsInItsOrder := by
  refine fun s => ⟨fun hin => failsWith_of_raiseError (exec_frameParse_inputTooLong hin) nofun,
    fun hin hsize => frameParse_failsWith hin (parseFrame_badSize ?_),
    fun hin hmin hblocks hpattern => frameParse_failsWith hin ?_,
    fun hin hmin hblocks h02 h13 hlong => frameParse_failsWith hin ?_⟩
  · rwa [inputBytes_length]
  · obtain ⟨hcorrupted, -, -⟩ := parseFrame_inputBytes (s := s) hmin hblocks
    exact hcorrupted hpattern
  · obtain ⟨-, hmalformed, -⟩ := parseFrame_inputBytes (s := s) hmin hblocks
    exact hmalformed (not_or.2 ⟨not_not_intro h02, not_not_intro h13⟩) hlong

end Sys2Proof.Machine
end

section
/-! Proofs of the family 42_cipher_engine, first part: the inverse cipher undoes the cipher, step by step (R63 to R72). -/

namespace Sys2Proof.Machine

-- The field product (R63)

/-- `xtime` is additive: so are the shift and the reduction that bit 7 decides. -/
theorem xtime_xor (a b : Byte) : xtime (a ^^^ b) = xtime a ^^^ xtime b := by
  have hreduce : ∀ x y : Bool, (if (x ^^ y) then (0x1B : Byte) else 0x00) =
      (if x then 0x1B else 0x00) ^^^ (if y then 0x1B else 0x00) := by decide
  simp only [xtime, BitVec.shiftLeft_xor_distrib, BitVec.getLsbD_xor, hreduce]
  ac_rfl

theorem xtimes_xor (i : Nat) (a b : Byte) : xtimes i (a ^^^ b) = xtimes i a ^^^ xtimes i b := by
  induction i with
  | zero => rfl
  | succ i ih => simp only [xtimes, ih, xtime_xor]

/-- The loop of the field product is additive in its second factor, from any two partial sums. -/
theorem foldl_xtimes_xor (k a b : Byte) (is : List Nat) (x y : Byte) :
    is.foldl (fun acc i => if k.getLsbD i then acc ^^^ xtimes i (a ^^^ b) else acc) (x ^^^ y) =
      is.foldl (fun acc i => if k.getLsbD i then acc ^^^ xtimes i a else acc) x ^^^
        is.foldl (fun acc i => if k.getLsbD i then acc ^^^ xtimes i b else acc) y := by
  induction is generalizing x y with
  | nil => rfl
  | cons i is ih =>
    simp only [List.foldl_cons]
    rw [← ih]
    congr 1
    split
    · rw [xtimes_xor]
      ac_rfl
    · rfl

theorem fieldMul_xor (k a b : Byte) : fieldMul k (a ^^^ b) = fieldMul k a ^^^ fieldMul k b :=
  foldl_xtimes_xor k a b (List.range 8) 0 0

-- The constants of MixColumns and InvMixColumns (R68)

theorem fieldMul_zero (k : Byte) : fieldMul k 0 = 0 := by
  have h := fieldMul_xor k 0 0
  rw [BitVec.xor_self] at h
  rwa [BitVec.xor_self] at h

theorem fieldMul_0x01 (b : Byte) : fieldMul 0x01 b = b := by simp [fieldMul, List.range_succ, xtimes]

theorem fieldMul_0x02 (b : Byte) : fieldMul 0x02 b = xtime b := by simp [fieldMul, List.range_succ, xtimes]

theorem fieldMul_0x03 (b : Byte) : fieldMul 0x03 b = b ^^^ xtime b := by simp [fieldMul, List.range_succ, xtimes]

theorem fieldMul_0x09 (b : Byte) : fieldMul 0x09 b = b ^^^ xtime (xtime (xtime b)) := by
  simp [fieldMul, List.range_succ, xtimes]

theorem fieldMul_0x0b (b : Byte) : fieldMul 0x0b b = b ^^^ xtime b ^^^ xtime (xtime (xtime b)) := by
  simp [fieldMul, List.range_succ, xtimes]

theorem fieldMul_0x0d (b : Byte) : fieldMul 0x0d b = b ^^^ xtime (xtime b) ^^^ xtime (xtime (xtime b)) := by
  simp [fieldMul, List.range_succ, xtimes]

theorem fieldMul_0x0e (b : Byte) : fieldMul 0x0e b = xtime b ^^^ xtime (xtime b) ^^^ xtime (xtime (xtime b)) := by
  simp [fieldMul, List.range_succ, xtimes]

-- MixColumns (R68): both maps are additive and commute with the rotation of a column, so InvMixColumns undoes
-- MixColumns because it does so on a column of one byte.

theorem dotColumn_xorColumn (k0 k1 k2 k3 : Byte) (c d : Column) :
    dotColumn k0 k1 k2 k3 (xorColumn c d) = dotColumn k0 k1 k2 k3 c ^^^ dotColumn k0 k1 k2 k3 d := by
  simp only [dotColumn, xorColumn, fieldMul_xor]
  ac_rfl

theorem mixColumn_xorColumn (c d : Column) : mixColumn (xorColumn c d) = xorColumn (mixColumn c) (mixColumn d) := by
  simp only [mixColumn, dotColumn_xorColumn]
  rfl

theorem invMixColumn_xorColumn (c d : Column) :
    invMixColumn (xorColumn c d) = xorColumn (invMixColumn c) (invMixColumn d) := by
  simp only [invMixColumn, dotColumn_xorColumn]
  rfl

/-- A column product of the rotated column is that of the column with the constants rotated back. -/
theorem dotColumn_rotWord (k0 k1 k2 k3 : Byte) (c : Column) :
    dotColumn k0 k1 k2 k3 (rotWord c) = dotColumn k3 k0 k1 k2 c := by
  simp only [dotColumn, rotWord]
  ac_rfl

theorem mixColumn_rotWord (c : Column) : mixColumn (rotWord c) = rotWord (mixColumn c) := by
  simp only [mixColumn, dotColumn_rotWord]
  rfl

theorem invMixColumn_rotWord (c : Column) : invMixColumn (rotWord c) = rotWord (invMixColumn c) := by
  simp only [invMixColumn, dotColumn_rotWord]
  rfl

/-- The column whose one byte other than 0 may be that of row 0. -/
def singleByte (a : Byte) : Column := { r0 := a, r1 := 0, r2 := 0, r3 := 0 }

theorem column_eq_xor_singleBytes (c : Column) :
    c = xorColumn (xorColumn (singleByte c.r0) (rotWord (rotWord (rotWord (singleByte c.r1)))))
      (xorColumn (rotWord (rotWord (singleByte c.r2))) (rotWord (singleByte c.r3))) := by
  simp [xorColumn, rotWord, singleByte]

/-- On one byte, each row of the product of the two matrices is a sum of powers of `xtime` in which all but one cancel. -/
theorem invMixColumn_mixColumn_singleByte (a : Byte) : invMixColumn (mixColumn (singleByte a)) = singleByte a := by
  simp only [invMixColumn, mixColumn, dotColumn, singleByte, fieldMul_zero, fieldMul_0x01, fieldMul_0x02, fieldMul_0x03,
    fieldMul_0x09, fieldMul_0x0b, fieldMul_0x0d, fieldMul_0x0e, xtime_xor, Column.mk.injEq]
  generalize xtime (xtime (xtime (xtime a))) = a4
  generalize xtime (xtime (xtime a)) = a3
  generalize xtime (xtime a) = a2
  generalize xtime a = a1
  refine ⟨?_, ?_, ?_, ?_⟩
  all_goals
    ac_nf
    simp

theorem invMixColumn_mixColumn (c : Column) : invMixColumn (mixColumn c) = c := by
  rw [column_eq_xor_singleBytes c]
  simp only [mixColumn_xorColumn, invMixColumn_xorColumn, mixColumn_rotWord, invMixColumn_rotWord,
    invMixColumn_mixColumn_singleByte]

theorem invMixColumns_mixColumns (g : Grid) : invMixColumns (mixColumns g) = g := by
  simp only [invMixColumns, mixColumns, invMixColumn_mixColumn]

-- The other steps of a round (R64, R67, R69)

theorem invSbox_sbox (a : Byte) : invSbox (sbox a) = a := by
  revert a
  decide +kernel

theorem mapColumn_inverse {f g : Byte → Byte} (h : ∀ a, g (f a) = a) (c : Column) : mapColumn g (mapColumn f c) = c := by
  simp only [mapColumn, h]

theorem invSubBytes_subBytes (g : Grid) : invSubBytes (subBytes g) = g := by
  simp only [invSubBytes, subBytes, mapGrid, mapColumn_inverse invSbox_sbox]

theorem invShiftRows_shiftRows (g : Grid) : invShiftRows (shiftRows g) = g := rfl

theorem xorColumn_xorColumn_self (c k : Column) : xorColumn (xorColumn c k) k = c := by
  simp only [xorColumn, BitVec.xor_assoc, BitVec.xor_self, BitVec.xor_zero]

theorem addRoundKey_addRoundKey (g rk : Grid) : addRoundKey (addRoundKey g rk) rk = g := by
  simp only [addRoundKey, xorColumn_xorColumn_self]

-- The cipher (R71, R72)

theorem encRounds_cons_cons (rk rk' : Grid) (rks : List Grid) (s : Grid) :
    encRounds (rk :: rk' :: rks) s = encRounds (rk' :: rks) (addRoundKey (mixColumns (shiftRows (subBytes s))) rk) := rfl

theorem decRounds_cons_cons (rk rk' : Grid) (rks : List Grid) (s : Grid) :
    decRounds (rk :: rk' :: rks) s =
      decRounds (rk' :: rks) (invMixColumns (addRoundKey (invSubBytes (invShiftRows s)) rk)) := rfl

/-- The inverse cipher, which takes the round keys from the last on, undoes the rounds of the cipher and is left before the
InvShiftRows and InvSubBytes of the first of them, with the round keys before those. -/
theorem decGrid_encRounds (rk rk0 : Grid) (rks rest : List Grid) (s : Grid) :
    decGrid ((rk :: rks).reverse ++ rk0 :: rest) (encRounds (rk :: rks) s) =
      decRounds (rk0 :: rest) (shiftRows (subBytes s)) := by
  induction rks generalizing rk rk0 rest s with
  | nil => simp only [encRounds, List.reverse_singleton, List.singleton_append, decGrid, addRoundKey_addRoundKey]
  | cons rk' rks ih =>
    rw [List.reverse_cons, List.append_assoc, List.singleton_append, encRounds_cons_cons, ih]
    simp only [decRounds_cons_cons, invShiftRows_shiftRows, invSubBytes_subBytes, addRoundKey_addRoundKey,
      invMixColumns_mixColumns]

/-- The inverse cipher undoes the cipher on the state, for any list of round keys. -/
theorem decGrid_encGrid (rks : List Grid) (s : Grid) : decGrid rks.reverse (encGrid rks s) = s := by
  match rks with
  | [] => rfl
  | [rk0] => exact addRoundKey_addRoundKey s rk0
  | rk0 :: rk1 :: rks =>
    rw [encGrid, List.reverse_cons, decGrid_encRounds]
    simp only [decRounds, invShiftRows_shiftRows, invSubBytes_subBytes, addRoundKey_addRoundKey]

theorem gridOfBytes_gridBytes (g : Grid) : gridOfBytes (gridBytes g) = g := rfl

/-- The output block of the state a 16-byte block enters is that block (R62). -/
theorem gridBytes_gridOfBytes {b : List Byte} (h : b.length = 16) : gridBytes (gridOfBytes b) = b := by
  apply List.ext_getElem
  · exact h.symm
  · intro i hi _
    have hi : i < 16 := hi
    interval_cases i <;> simp [gridBytes, gridOfBytes, columnBytes, h]

/-- The inverse cipher undoes the cipher, for every key and every block of 16 bytes (R72). -/
theorem aesDec_aesEnc (k : List Byte) {b : List Byte} (h : b.length = 16) : aesDec k (aesEnc k b) = b := by
  rw [aesDec, aesEnc, gridOfBytes_gridBytes, decGrid_encGrid, gridBytes_gridOfBytes h]

end Sys2Proof.Machine
end

section
/-! Proofs of the family 42_cipher_engine, second part: the CBC chaining block by block (R56, R57), and the commands GEN_IV
(R59), CBC_ENCRYPT (R60) and CBC_DECRYPT (R61). -/

namespace Sys2Proof.Machine

-- The XOR of byte strings (R9)

theorem xorBytes_length (a b : List Byte) : (xorBytes a b).length = min a.length b.length := List.length_zipWith

theorem xorBytes_length_of_eq {a b : List Byte} {n : Nat} (ha : a.length = n) (hb : b.length = n) :
    (xorBytes a b).length = n := by
  rw [xorBytes_length, ha, hb, min_self]

theorem xorBytes_assoc (a b c : List Byte) : xorBytes (xorBytes a b) c = xorBytes a (xorBytes b c) := by
  apply List.ext_getElem
  · simp only [xorBytes_length, min_assoc]
  · intro i _ _
    simp only [xorBytes, List.getElem_zipWith, BitVec.xor_assoc]

theorem xorBytes_xorBytes_self {a b : List Byte} (h : a.length ≤ b.length) : xorBytes (xorBytes a b) b = a := by
  apply List.ext_getElem
  · simp [xorBytes_length, h]
  · intro i _ _
    simp only [xorBytes, List.getElem_zipWith, BitVec.xor_assoc, BitVec.xor_self, BitVec.xor_zero]

-- The blocks of a byte string (R56)

theorem blockOf_zero (b : List Byte) : blockOf b 0 = b.take 16 := rfl

theorem blockOf_drop (b : List Byte) (j : Nat) : blockOf (b.drop 16) j = blockOf b (j + 1) := by
  rw [blockOf, blockOf, List.drop_drop]
  congr 2
  omega

theorem blockOf_length {b : List Byte} {j : Nat} (h : 16 * (j + 1) ≤ b.length) : (blockOf b j).length = 16 := by
  simp only [blockOf, List.length_take, List.length_drop]
  omega

theorem blockOf_append_zero {a : List Byte} (ha : a.length = 16) (b : List Byte) : blockOf (a ++ b) 0 = a :=
  List.take_left' ha

theorem blockOf_append_succ {a : List Byte} (ha : a.length = 16) (b : List Byte) (j : Nat) :
    blockOf (a ++ b) (j + 1) = blockOf b j := by
  rw [← blockOf_drop, List.drop_left' ha]

/-- A byte string of which block `i` is replaced by `x`. -/
def replaceBlock (b : List Byte) (i : Nat) (x : List Byte) : List Byte := b.take (16 * i) ++ x ++ b.drop (16 * (i + 1))

theorem replaceBlock_length {b x : List Byte} {i : Nat} (hi : 16 * (i + 1) ≤ b.length) (hx : x.length = 16) :
    (replaceBlock b i x).length = b.length := by
  simp only [replaceBlock, List.length_append, List.length_take, List.length_drop, hx]
  omega

theorem blockOf_replaceBlock_self {b x : List Byte} {i : Nat} (hi : 16 * (i + 1) ≤ b.length) (hx : x.length = 16) :
    blockOf (replaceBlock b i x) i = x := by
  have hfront : (b.take (16 * i)).length = 16 * i := List.length_take_of_le (by omega)
  rw [blockOf, replaceBlock, List.append_assoc, List.drop_left' hfront, List.take_left' hx]

theorem blockOf_replaceBlock_ne {b x : List Byte} {i j : Nat} (hi : 16 * (i + 1) ≤ b.length) (hx : x.length = 16)
    (hj : j ≠ i) : blockOf (replaceBlock b i x) j = blockOf b j := by
  have hfront : (b.take (16 * i)).length = 16 * i := List.length_take_of_le (by omega)
  rcases Nat.lt_or_gt_of_ne hj with hbefore | hbehind
  · have hend : 16 ≤ ((b.take (16 * i)).drop (16 * j)).length := by
      rw [List.length_drop, hfront]
      omega
    have hfits : 16 ≤ 16 * i - 16 * j := by omega
    rw [blockOf, replaceBlock, List.append_assoc, List.drop_append_of_le_length (by omega),
      List.take_append_of_le_length hend, List.drop_take, List.take_take, min_eq_left hfits, blockOf]
  · obtain ⟨m, rfl⟩ : ∃ m, j = i + 1 + m := Nat.exists_eq_add_of_le hbehind
    have hchanged : (b.take (16 * i) ++ x).length = 16 * (i + 1) := by
      rw [List.length_append, hfront, hx, Nat.mul_succ]
    rw [blockOf, replaceBlock, Nat.mul_add, ← List.drop_drop, List.drop_left' hchanged, List.drop_drop, ← Nat.mul_add, blockOf]

-- CBC encryption (R56)

/-- What block `j` of a chain is added to: the chaining value that the chain starts from, then the ciphertext block before. -/
def chainValue (cv c : List Byte) : Nat → List Byte
  | 0 => cv
  | j + 1 => blockOf c j

theorem chainValue_length {cv c : List Byte} {j : Nat} (hcv : cv.length = 16) (hj : 16 * (j + 1) ≤ c.length) :
    (chainValue cv c j).length = 16 := by
  cases j with
  | zero => exact hcv
  | succ j => exact blockOf_length (by omega)

/-- Behind the first block the chain goes on from that block. -/
theorem chainValue_drop (cv c : List Byte) (j : Nat) : chainValue (c.take 16) (c.drop 16) j = chainValue cv c (j + 1) := by
  cases j with
  | zero => rfl
  | succ j => exact blockOf_drop c j

/-- Each block of the ciphertext is the cipher of the plaintext block added to the block before. -/
theorem blockOf_cbcEncBlocks {k : List Byte} {n : Nat} {cv p : List Byte} {j : Nat} (hj : j < n) :
    blockOf (cbcEncBlocks k n cv p) j =
      aesEnc k (xorBytes (blockOf p j) (chainValue cv (cbcEncBlocks k n cv p) j)) := by
  induction n generalizing cv p j with
  | zero => omega
  | succ n ih =>
    cases j with
    | zero => exact blockOf_append_zero (aesEnc_length _ _) _
    | succ j =>
      rw [cbcEncBlocks, blockOf_append_succ (aesEnc_length _ _), ih (by omega), blockOf_drop, ← chainValue_drop,
        List.take_left' (aesEnc_length _ _), List.drop_left' (aesEnc_length _ _)]

/-- Settles O46: block by block, with a chaining value that is the IV at block 0 and the block before at the others. -/
theorem cbcEncryptChains : Obligations.CbcEncryptChains := by
  intro k iv p hp
  refine ⟨?_, fun hlen => blockOf_cbcEncBlocks (j := 0) (by omega), fun i hi => blockOf_cbcEncBlocks (j := i + 1) (by omega)⟩
  rw [cbcEnc_length]
  omega

-- CBC decryption (R57)

/-- Decrypting what was encrypted from the same chaining value gives the plaintext: the inverse cipher undoes the cipher, and
the chaining value added twice goes. -/
theorem cbcDecBlocks_cbcEncBlocks (k : List Byte) {n : Nat} {cv p : List Byte} (hcv : cv.length = 16)
    (hp : p.length = 16 * n) : cbcDecBlocks k n cv (cbcEncBlocks k n cv p) = p := by
  induction n generalizing cv p with
  | zero => exact (List.length_eq_zero_iff.1 hp).symm
  | succ n ih =>
    have hblock : (p.take 16).length = 16 := blockOf_length (j := 0) (by omega)
    have hrest : (p.drop 16).length = 16 * n := by
      rw [List.length_drop]
      omega
    rw [cbcEncBlocks, cbcDecBlocks, List.take_left' (aesEnc_length _ _), List.drop_left' (aesEnc_length _ _),
      ih (aesEnc_length _ _) hrest, aesDec_aesEnc k (xorBytes_length_of_eq hblock hcv),
      xorBytes_xorBytes_self (hblock.trans hcv.symm).le, List.take_append_drop]

/-- Settles O47: the two loops run over the same number of blocks, and the second undoes the first. -/
theorem cbcDecryptInvertsEncrypt : Obligations.CbcDecryptInvertsEncrypt := by
  intro k iv p hiv hp
  have hblocks : (cbcEnc k iv p).length / 16 = p.length / 16 := by
    rw [cbcEnc_length]
    omega
  rw [cbcDec, hblocks]
  exact cbcDecBlocks_cbcEncBlocks k hiv (by omega)

/-- From a chaining value of 16 bytes, decryption gives as many bytes as the blocks it takes. -/
theorem cbcDecBlocks_length (k : List Byte) {n : Nat} {cv c : List Byte} (hcv : cv.length = 16) (hc : 16 * n ≤ c.length) :
    (cbcDecBlocks k n cv c).length = 16 * n := by
  induction n generalizing cv c with
  | zero => rfl
  | succ n ih =>
    have hblock : (c.take 16).length = 16 := blockOf_length (j := 0) (by omega)
    have hrest : 16 * n ≤ (c.drop 16).length := by
      rw [List.length_drop]
      omega
    rw [cbcDecBlocks, List.length_append, xorBytes_length_of_eq (aesDec_length _ _) hcv, ih hblock hrest]
    omega

theorem cbcDec_length (k : List Byte) {iv c : List Byte} (hiv : iv.length = 16) (hc : c.length % 16 = 0) :
    (cbcDec k iv c).length = c.length := by
  rw [cbcDec, cbcDecBlocks_length k hiv (by omega)]
  omega

/-- Each block of the plaintext is the inverse cipher of the ciphertext block, added to the ciphertext block before. -/
theorem blockOf_cbcDecBlocks {k : List Byte} {n : Nat} {cv c : List Byte} {j : Nat} (hcv : cv.length = 16)
    (hc : 16 * n ≤ c.length) (hj : j < n) :
    blockOf (cbcDecBlocks k n cv c) j = xorBytes (aesDec k (blockOf c j)) (chainValue cv c j) := by
  induction n generalizing cv c j with
  | zero => omega
  | succ n ih =>
    have hfirst : (xorBytes (aesDec k (c.take 16)) cv).length = 16 := xorBytes_length_of_eq (aesDec_length _ _) hcv
    cases j with
    | zero => exact blockOf_append_zero hfirst _
    | succ j =>
      have hblock : (c.take 16).length = 16 := blockOf_length (j := 0) (by omega)
      have hrest : 16 * n ≤ (c.drop 16).length := by
        rw [List.length_drop]
        omega
      rw [cbcDecBlocks, blockOf_append_succ hfirst, ih hblock hrest (by omega), blockOf_drop, chainValue_drop cv]

theorem blockOf_cbcDec {k iv c : List Byte} {j : Nat} (hiv : iv.length = 16) (hj : 16 * (j + 1) ≤ c.length) :
    blockOf (cbcDec k iv c) j = xorBytes (aesDec k (blockOf c j)) (chainValue iv c j) :=
  blockOf_cbcDecBlocks hiv (Nat.mul_div_le c.length 16) (by omega)

-- How a change spreads (R57, R81)

/-- The loop uses the chaining value it starts from at its first block alone. -/
theorem cbcDecBlocks_xor_cv (k : List Byte) {n : Nat} {cv d : List Byte} (hcv : cv.length = 16) (c : List Byte) :
    cbcDecBlocks k (n + 1) (xorBytes cv d) c =
      xorBytes ((cbcDecBlocks k (n + 1) cv c).take 16) d ++ (cbcDecBlocks k (n + 1) cv c).drop 16 := by
  have hfirst : (xorBytes (aesDec k (c.take 16)) cv).length = 16 := xorBytes_length_of_eq (aesDec_length _ _) hcv
  simp only [cbcDecBlocks, List.take_left' hfirst, List.drop_left' hfirst, xorBytes_assoc]

/-- A change of ciphertext block `i` changes what block `i + 1` is added to, and no other block's chaining value. -/
theorem chainValue_replaceBlock {cv c x : List Byte} {i : Nat} (hi : 16 * (i + 1) ≤ c.length) (hx : x.length = 16) (j : Nat) :
    chainValue cv (replaceBlock c i x) j = if j = i + 1 then x else chainValue cv c j := by
  cases j with
  | zero => rfl
  | succ j =>
    by_cases hj : j = i
    · rw [if_pos (congrArg (· + 1) hj), hj]
      exact blockOf_replaceBlock_self hi hx
    · rw [if_neg (by omega)]
      exact blockOf_replaceBlock_ne hi hx hj

/-- Settles O48: the IV is added to plaintext block 0 alone; ciphertext block `i` is deciphered into plaintext block `i` and
added to plaintext block `i + 1`. -/
theorem cbcDecryptSpreadsAFlip : Obligations.CbcDecryptSpreadsAFlip := by
  intro k iv c d hiv hd hc
  refine ⟨fun hlen => ?_, fun i j hi hj hij => ?_⟩
  · obtain ⟨n, hn⟩ : ∃ n, c.length / 16 = n + 1 := Nat.exists_eq_add_of_le' (by omega)
    rw [cbcDec, cbcDec, hn]
    exact cbcDecBlocks_xor_cv k hiv c
  · have hx : (xorBytes (blockOf c i) d).length = 16 := xorBytes_length_of_eq (blockOf_length hi) hd
    rw [← replaceBlock, blockOf_cbcDec hiv (by rwa [replaceBlock_length hi hx]), blockOf_replaceBlock_ne hi hx hij,
      chainValue_replaceBlock hi hx, blockOf_cbcDec hiv hj]
    split
    next hnext =>
      subst hnext
      exact (xorBytes_assoc _ _ _).symm
    next => rfl

-- GEN_IV (R59)

theorem exec_genIv_answered {s : State} {p : Purpose} {r : List Byte} (hs : s.stage = .answered p (.ok r)) :
    exec .genIv s = finishOk .genIv [] false (some r) s := by
  simp only [exec, execGenIv, hs]

theorem exec_genIv_noEntropy {s : State} {p : Purpose} (hs : s.stage = .answered p .fail) :
    exec .genIv s = raiseError .genIv .entropyUnavailable none s := by
  simp only [exec, execGenIv, hs]

/-- Settles O29: the answer alone decides how GEN_IV ends, and it is the IV register's new value. -/
theorem genIvLoadsTheAnswer : Obligations.GenIvLoadsTheAnswer := by
  refine fun s p => ⟨fun r hs hr => ?_, fun hs => failsWith_of_raiseError (exec_genIv_noEntropy hs) nofun⟩
  refine succeedsWith_of_finishOk (exec_genIv_answered hs) (Nat.zero_le _) fun b hb => ?_
  cases hb
  exact hr

-- CBC_ENCRYPT and CBC_DECRYPT (R60, R61)

theorem keyValid_iff (s : State) : keyValid s = true ↔ s.keyWr = 0b1111 := beq_iff_eq

/-- An input of whole blocks that fits IBUF leaves the CBC commands with their key test alone (R58). -/
theorem exec_cbc_aligned {s : State} (hin : inLength s ≤ bufBytes s) (hblocks : inLength s % 16 = 0) :
    exec .cbcEncrypt s =
        (if keyValid s then finishOk .cbcEncrypt (cbcEnc s.key.bytes s.iv.bytes (messageOf s)) false none s
        else raiseError .cbcEncrypt .encryptionFailure none s) ∧
      exec .cbcDecrypt s =
        (if keyValid s then finishOk .cbcDecrypt (cbcDec s.key.bytes s.iv.bytes (messageOf s)) false none s
        else raiseError .cbcDecrypt .encryptionFailure none s) := by
  simp only [exec, execCbcEncrypt, execCbcDecrypt, if_neg (Nat.not_lt.2 hin), if_neg (not_not_intro hblocks), messageOf,
    and_self]

theorem exec_cbc_keyed {s : State} (hin : inLength s ≤ bufBytes s) (hblocks : inLength s % 16 = 0) (hkey : s.keyWr = 0b1111) :
    exec .cbcEncrypt s = finishOk .cbcEncrypt (cbcEnc s.key.bytes s.iv.bytes (messageOf s)) false none s ∧
      exec .cbcDecrypt s = finishOk .cbcDecrypt (cbcDec s.key.bytes s.iv.bytes (messageOf s)) false none s := by
  simpa only [if_pos ((keyValid_iff s).2 hkey)] using exec_cbc_aligned hin hblocks

/-- Settles O30: past its three tests CBC_ENCRYPT finishes with the ciphertext, which is as long as its input. -/
theorem cbcEncryptWritesTheCiphertext : Obligations.CbcEncryptWritesTheCiphertext := by
  intro s hin hblocks hkey
  have hmessage : (messageOf s).length = inLength s := inputBytes_length s _
  have hlen : (cbcEnc s.key.bytes s.iv.bytes (messageOf s)).length = inLength s := by
    rw [cbcEnc_length, hmessage, Nat.mul_div_cancel' (Nat.dvd_of_mod_eq_zero hblocks)]
  obtain ⟨hexec, -⟩ := exec_cbc_keyed hin hblocks hkey
  exact ⟨succeedsWith_of_finishOk hexec (hlen ▸ hin) nofun, hlen⟩

/-- Settles O31: past its three tests CBC_DECRYPT finishes with the plaintext, which is as long as its input. -/
theorem cbcDecryptWritesThePlaintext : Obligations.CbcDecryptWritesThePlaintext := by
  intro s hin hblocks hkey
  have hmessage : (messageOf s).length = inLength s := inputBytes_length s _
  have hlen : (cbcDec s.key.bytes s.iv.bytes (messageOf s)).length = inLength s := by
    rw [cbcDec_length _ (quad_bytes_length _) (hmessage.symm ▸ hblocks), hmessage]
  obtain ⟨-, hexec⟩ := exec_cbc_keyed hin hblocks hkey
  exact ⟨succeedsWith_of_finishOk hexec (hlen ▸ hin) nofun, hlen⟩

-- Their errors (R58, R83)

theorem exec_cbc_inputTooLong {s : State} (hin : bufBytes s < inLength s) :
    exec .cbcEncrypt s = raiseError .cbcEncrypt .lengthError none s ∧
      exec .cbcDecrypt s = raiseError .cbcDecrypt .lengthError none s := by
  simp only [exec, execCbcEncrypt, execCbcDecrypt, if_pos hin, and_self]

theorem exec_cbc_misaligned {s : State} (hin : inLength s ≤ bufBytes s) (hblocks : inLength s % 16 ≠ 0) :
    exec .cbcEncrypt s = raiseError .cbcEncrypt .encryptionFailure none s ∧
      exec .cbcDecrypt s = raiseError .cbcDecrypt .malformed none s := by
  simp only [exec, execCbcEncrypt, execCbcDecrypt, if_neg (Nat.not_lt.2 hin), if_pos hblocks, and_self]

theorem exec_cbc_noKey {s : State} (hin : inLength s ≤ bufBytes s) (hblocks : inLength s % 16 = 0) (hkey : s.keyWr ≠ 0b1111) :
    exec .cbcEncrypt s = raiseError .cbcEncrypt .encryptionFailure none s ∧
      exec .cbcDecrypt s = raiseError .cbcDecrypt .encryptionFailure none s := by
  simpa only [if_neg (mt (keyValid_iff s).1 hkey)] using exec_cbc_aligned hin hblocks

/-- Two commands that raise an error with no IV write each fail with it. -/
theorem failsWith_and_of_raiseError {i j : Instr} {s : State} {ei ej : ErrorCode}
    (h : exec i s = raiseError i ei none s ∧ exec j s = raiseError j ej none s) :
    FailsWith i s ei none ∧ FailsWith j s ej none := by
  obtain ⟨hi, hj⟩ := h
  exact ⟨failsWith_of_raiseError hi nofun, failsWith_of_raiseError hj nofun⟩

/-- Settles O32: each test raises its error in the two commands, and the tests come in the same order. -/
theorem cbcCommandsFailInTheirOrder : Obligations.CbcCommandsFailInTheirOrder := fun _ =>
  ⟨fun hin => failsWith_and_of_raiseError (exec_cbc_inputTooLong hin),
    fun hin hblocks => failsWith_and_of_raiseError (exec_cbc_misaligned hin hblocks),
    fun hin hblocks hkey => failsWith_and_of_raiseError (exec_cbc_noKey hin hblocks hkey)⟩

end Sys2Proof.Machine
end

section
/-! Proofs of the family 43_aes128_block: the S-box tables (R65, R66), the state lane by lane (R62, R67, R68), the key
schedule (R70) and the rounds of the cipher and of its inverse (R71, R72). -/

namespace Sys2Proof.Machine

-- The field product in its first factor (R63)

/-- Adding `t` to a sum when exactly one of two bits is set is adding it to either part when that part's bit is: added to
both parts, it goes. -/
theorem ite_xor_xor (p q : Bool) (x y t : Byte) : (if (p ^^ q) then (x ^^^ y) ^^^ t else x ^^^ y) =
    (if p then x ^^^ t else x) ^^^ (if q then y ^^^ t else y) := by
  have hboth : (x ^^^ t) ^^^ (y ^^^ t) = x ^^^ y := by
    rw [BitVec.xor_comm y t, BitVec.xor_assoc, ← BitVec.xor_assoc t t, BitVec.xor_self, BitVec.zero_xor]
  have hfirst : (x ^^^ t) ^^^ y = (x ^^^ y) ^^^ t := by ac_rfl
  match p, q with
  | false, false => rfl
  | false, true => exact BitVec.xor_assoc x y t
  | true, false => exact hfirst.symm
  | true, true => exact hboth.symm

/-- The loop of the field product is additive in its first factor, from any two partial sums. -/
theorem foldl_xtimes_bits_xor (a a' b : Byte) (is : List Nat) (x y : Byte) :
    is.foldl (fun acc i => if (a ^^^ a').getLsbD i then acc ^^^ xtimes i b else acc) (x ^^^ y) =
      is.foldl (fun acc i => if a.getLsbD i then acc ^^^ xtimes i b else acc) x ^^^
        is.foldl (fun acc i => if a'.getLsbD i then acc ^^^ xtimes i b else acc) y := by
  induction is generalizing x y with
  | nil => rfl
  | cons i is ih =>
    simp only [List.foldl_cons, BitVec.getLsbD_xor, ite_xor_xor] at ih ⊢
    exact ih _ _

theorem xor_fieldMul (a a' b : Byte) : fieldMul (a ^^^ a') b = fieldMul a b ^^^ fieldMul a' b :=
  foldl_xtimes_bits_xor a a' b (List.range 8) 0 0

/-- The product with a power of `x` is `xtime` taken as many times: one bit of the first factor is 1. -/
theorem fieldMul_shiftLeft_one {i : Nat} (hi : i < 8) (b : Byte) : fieldMul (1#8 <<< i) b = xtimes i b := by
  interval_cases i <;> simp [fieldMul, List.range_succ, xtimes]

-- The S-box tables (R64 to R66)

/-- The affine map of R64. -/
def sboxAffine (b : Byte) : Byte :=
  b ^^^ b.rotateLeft 1 ^^^ b.rotateLeft 2 ^^^ b.rotateLeft 3 ^^^ b.rotateLeft 4 ^^^ 0x63

/-- The map that `sboxAffine` undoes: what it gives for an S-box entry is the field inverse the entry was made from. -/
def sboxAffineInverse (b : Byte) : Byte := b.rotateLeft 1 ^^^ b.rotateLeft 3 ^^^ b.rotateLeft 6 ^^^ 0x05

theorem sboxAffine_sboxAffineInverse (b : Byte) : sboxAffine (sboxAffineInverse b) = b := by
  revert b
  decide +kernel

/-- Entry by entry, the S-box table was made from the field inverse, with 0 for the inverse of 0. -/
theorem fieldInverse_of_sbox (a : Byte) :
    if a = 0 then sboxAffineInverse (sbox a) = 0 else fieldMul a (sboxAffineInverse (sbox a)) = 1 := by
  revert a
  decide +kernel

/-- There are as many bytes as S-box entries, so the left inverse of the S-box is its right inverse too. -/
theorem sbox_invSbox (a : Byte) : sbox (invSbox a) = a := by
  have hleft : Function.LeftInverse invSbox sbox := invSbox_sbox
  have : Finite Byte := Finite.of_injective BitVec.toFin BitVec.toFin_injective
  exact hleft.rightInverse_of_surjective (Finite.surjective_of_injective hleft.injective) a

/-- Settles O43: the field inverse is the S-box entry with the affine map undone. -/
theorem sboxTableIsItsDefinition : Obligations.SboxTableIsItsDefinition := fun a =>
  ⟨invSbox_sbox a, sbox_invSbox a, sboxAffineInverse (sbox a), fieldInverse_of_sbox a,
    (sboxAffine_sboxAffineInverse (sbox a)).symm⟩

-- The columns and lanes of the state (R62)

/-- Column `c` of the state. -/
def gridColumn (g : Grid) : Nat → Column
  | 0 => g.c0
  | 1 => g.c1
  | 2 => g.c2
  | _ => g.c3

/-- The byte of row `r` of a column. -/
def columnLane (v : Column) : Nat → Byte
  | 0 => v.r0
  | 1 => v.r1
  | 2 => v.r2
  | _ => v.r3

theorem laneOf_eq_columnLane (g : Grid) {r c : Nat} (hr : r < 4) (hc : c < 4) :
    laneOf g r c = columnLane (gridColumn g c) r := by
  interval_cases c <;> interval_cases r <;> rfl

/-- Column `c` of the state is bytes `4c` to `4c + 3` of its block. -/
theorem gridBytes_drop_take (g : Grid) {c : Nat} (hc : c < 4) :
    ((gridBytes g).drop (4 * c)).take 4 = columnBytes (gridColumn g c) := by
  interval_cases c <;> rfl

theorem columnLane_mapColumn (f : Byte → Byte) (v : Column) (r : Nat) :
    columnLane (mapColumn f v) r = f (columnLane v r) := by
  unfold columnLane
  split <;> rfl

theorem columnLane_xorColumn (v w : Column) (r : Nat) :
    columnLane (xorColumn v w) r = columnLane v r ^^^ columnLane w r := by
  unfold columnLane
  split <;> rfl

theorem gridColumn_mapGrid (f : Byte → Byte) (g : Grid) (c : Nat) :
    gridColumn (mapGrid f g) c = mapColumn f (gridColumn g c) := by
  unfold gridColumn
  split <;> rfl

theorem gridColumn_addRoundKey (g rk : Grid) (c : Nat) :
    gridColumn (addRoundKey g rk) c = xorColumn (gridColumn g c) (gridColumn rk c) := by
  unfold gridColumn
  split <;> rfl

theorem gridColumn_mixColumns (g : Grid) (c : Nat) : gridColumn (mixColumns g) c = mixColumn (gridColumn g c) := by
  unfold gridColumn
  split <;> rfl

theorem gridColumn_invMixColumns (g : Grid) (c : Nat) :
    gridColumn (invMixColumns g) c = invMixColumn (gridColumn g c) := by
  unfold gridColumn
  split <;> rfl

/-- A function on each byte of the state acts lane by lane. -/
theorem laneOf_mapGrid (f : Byte → Byte) (g : Grid) {r c : Nat} (hr : r < 4) (hc : c < 4) :
    laneOf (mapGrid f g) r c = f (laneOf g r c) := by
  rw [laneOf_eq_columnLane _ hr hc, laneOf_eq_columnLane _ hr hc, gridColumn_mapGrid, columnLane_mapColumn]

theorem laneOf_addRoundKey (g rk : Grid) {r c : Nat} (hr : r < 4) (hc : c < 4) :
    laneOf (addRoundKey g rk) r c = laneOf g r c ^^^ laneOf rk r c := by
  simp only [laneOf_eq_columnLane _ hr hc, gridColumn_addRoundKey, columnLane_xorColumn]

theorem laneOf_gridOfBytes (b : List Byte) {r c : Nat} (hr : r < 4) (hc : c < 4) :
    laneOf (gridOfBytes b) r c = b.getD (r + 4 * c) 0 := by
  rw [laneOf_eq_columnLane _ hr hc]
  interval_cases c <;> interval_cases r <;> rfl

-- ShiftRows (R67)

theorem laneOf_shiftRows (g : Grid) {r c : Nat} (hr : r < 4) (hc : c < 4) :
    laneOf (shiftRows g) r c = laneOf g r ((c + r) % 4) := by
  interval_cases c <;> interval_cases r <;> rfl

theorem laneOf_invShiftRows (g : Grid) {r c : Nat} (hr : r < 4) (hc : c < 4) :
    laneOf (invShiftRows g) r c = laneOf g r ((c + 4 - r) % 4) := by
  interval_cases c <;> interval_cases r <;> rfl

-- The rows of MixColumns (R68): each row of the two matrices is the row before it rotated, so row `r` of the product is
-- row 0 of the product with the column rotated `r` times.

theorem columnLane_mixColumn (v : Column) {r : Nat} (hr : r < 4) :
    columnLane (mixColumn v) r = dotColumn 0x02 0x03 0x01 0x01 (rotWord^[r] v) := by
  interval_cases r <;> simp only [Function.iterate_succ_apply', Function.iterate_zero_apply, dotColumn_rotWord] <;> rfl

theorem columnLane_invMixColumn (v : Column) {r : Nat} (hr : r < 4) :
    columnLane (invMixColumn v) r = dotColumn 0x0e 0x0b 0x0d 0x09 (rotWord^[r] v) := by
  interval_cases r <;> simp only [Function.iterate_succ_apply', Function.iterate_zero_apply, dotColumn_rotWord] <;> rfl

/-- A column product of a rotated column takes the lanes from row `r` on, in a circle. -/
theorem dotColumn_gridColumn_rotated (k0 k1 k2 k3 : Byte) (g : Grid) {r c : Nat} (hr : r < 4) (hc : c < 4) :
    dotColumn k0 k1 k2 k3 (rotWord^[r] (gridColumn g c)) =
      fieldMul k0 (laneOf g r c) ^^^ fieldMul k1 (laneOf g ((r + 1) % 4) c) ^^^ fieldMul k2 (laneOf g ((r + 2) % 4) c) ^^^
        fieldMul k3 (laneOf g ((r + 3) % 4) c) := by
  have hmod (i : Nat) : i % 4 < 4 := Nat.mod_lt i (by decide)
  simp only [laneOf_eq_columnLane g hr hc, laneOf_eq_columnLane g (hmod _) hc]
  interval_cases r <;> rfl

theorem laneOf_mixColumns (g : Grid) {r c : Nat} (hr : r < 4) (hc : c < 4) :
    laneOf (mixColumns g) r c =
      fieldMul 0x02 (laneOf g r c) ^^^ fieldMul 0x03 (laneOf g ((r + 1) % 4) c) ^^^ laneOf g ((r + 2) % 4) c ^^^
        laneOf g ((r + 3) % 4) c := by
  rw [laneOf_eq_columnLane _ hr hc, gridColumn_mixColumns, columnLane_mixColumn _ hr,
    dotColumn_gridColumn_rotated _ _ _ _ g hr hc, fieldMul_0x01, fieldMul_0x01]

theorem laneOf_invMixColumns (g : Grid) {r c : Nat} (hr : r < 4) (hc : c < 4) :
    laneOf (invMixColumns g) r c =
      fieldMul 0x0e (laneOf g r c) ^^^ fieldMul 0x0b (laneOf g ((r + 1) % 4) c) ^^^
        fieldMul 0x0d (laneOf g ((r + 2) % 4) c) ^^^ fieldMul 0x09 (laneOf g ((r + 3) % 4) c) := by
  rw [laneOf_eq_columnLane _ hr hc, gridColumn_invMixColumns, columnLane_invMixColumn _ hr,
    dotColumn_gridColumn_rotated _ _ _ _ g hr hc]

/-- Settles O44: the field product by its first factor, then the lanes, then the inverse of MixColumns. -/
theorem invMixColumnsUndoesMixColumns : Obligations.InvMixColumnsUndoesMixColumns := by
  refine ⟨fun b => ⟨fieldMul_0x01 b, by rw [fieldMul_0x02, xtime]⟩, xor_fieldMul, fun i b hi => ?_, fun g r c hr hc =>
    ⟨laneOf_shiftRows g hr hc, laneOf_invShiftRows g hr hc, laneOf_mixColumns g hr hc, laneOf_invMixColumns g hr hc⟩,
    invMixColumns_mixColumns⟩
  rw [fieldMul_shiftLeft_one (by omega), fieldMul_shiftLeft_one (by omega), fieldMul_0x02, xtimes]

/-- Settles O45: the inverse cipher undoes each round of the cipher, from the last one back. -/
theorem aesDecryptInvertsEncrypt : Obligations.AesDecryptInvertsEncrypt := fun k _ h => aesDec_aesEnc k h

-- The key schedule (R70)

theorem roundKeysFrom_length (rk : Grid) (rcons : List Byte) : (roundKeysFrom rk rcons).length = rcons.length := by
  induction rcons generalizing rk with
  | nil => rfl
  | cons rcon rcons ih => rw [roundKeysFrom, List.length_cons, List.length_cons, ih]

theorem keyExpansion_length (k : List Byte) : (keyExpansion k).length = 11 := by
  rw [keyExpansion, List.length_cons, roundKeysFrom_length]
  rfl

/-- Each round key is made from the one before and its own round constant. -/
theorem roundKeysFrom_getD_succ (rk d : Grid) {rcons : List Byte} {j : Nat} (hj : j < rcons.length) :
    (rk :: roundKeysFrom rk rcons).getD (j + 1) d =
      nextRoundKey ((rk :: roundKeysFrom rk rcons).getD j d) (rcons.getD j 0) := by
  induction rcons generalizing rk j with
  | nil => exact absurd hj (Nat.not_lt_zero j)
  | cons rcon rcons ih =>
    cases j with
    | zero => rfl
    | succ j => exact ih (nextRoundKey rk rcon) (Nat.lt_of_succ_lt_succ hj)

theorem rconBytes_getD {j : Nat} (hj : j < 10) : rconBytes.getD j 0 = xtimes j 0x01 := by
  interval_cases j <;> rfl

theorem roundKey_zero (k : List Byte) : roundKey k 0 = gridOfBytes k := rfl

theorem roundKey_succ (k : List Byte) {j : Nat} (hj : j < 10) :
    roundKey k (j + 1) = nextRoundKey (roundKey k j) (xtimes j 0x01) := by
  rw [← rconBytes_getD hj]
  exact roundKeysFrom_getD_succ (gridOfBytes k) (gridOfBytes []) hj

theorem columnBytes_xorColumn (v w : Column) : columnBytes (xorColumn v w) = xorBytes (columnBytes v) (columnBytes w) := rfl

theorem columnBytes_keyCore (w : Column) (j : Nat) :
    columnBytes (keyCore w (xtimes j 0x01)) = scheduleCore (columnBytes w) (j + 1) := rfl

theorem gridColumn_nextRoundKey_zero (rk : Grid) (rcon : Byte) :
    gridColumn (nextRoundKey rk rcon) 0 = xorColumn (gridColumn rk 0) (keyCore (gridColumn rk 3) rcon) := rfl

theorem gridColumn_nextRoundKey_succ (rk : Grid) (rcon : Byte) {c : Nat} (hc : c < 3) :
    gridColumn (nextRoundKey rk rcon) (c + 1) =
      xorColumn (gridColumn rk (c + 1)) (gridColumn (nextRoundKey rk rcon) c) := by
  interval_cases c <;> rfl

/-- The word `w[4j + c]` is column `c` of `RK[j]`. -/
theorem keyWord_eq_columnBytes (k : List Byte) (j : Nat) {c : Nat} (hc : c < 4) :
    keyWord k (4 * j + c) = columnBytes (gridColumn (roundKey k j) c) := by
  have hdiv : (4 * j + c) / 4 = j := by omega
  have hmod : (4 * j + c) % 4 = c := by omega
  rw [keyWord, hdiv, hmod, gridBytes_drop_take _ hc]

/-- The first four words are the key (R70). -/
theorem keyWord_of_lt_four {k : List Byte} (hk : k.length = 16) {i : Nat} (hi : i < 4) :
    keyWord k i = (k.drop (4 * i)).take 4 := by
  rw [keyWord, Nat.div_eq_of_lt hi, Nat.mod_eq_of_lt hi, roundKey_zero, gridBytes_gridOfBytes hk]

/-- The first word of a round key: the word four places back, added to `keyCore` of the word before. -/
theorem keyWord_first (k : List Byte) {j : Nat} (hj : j < 10) :
    keyWord k (4 * (j + 1)) = xorBytes (keyWord k (4 * j)) (scheduleCore (keyWord k (4 * j + 3)) (j + 1)) := by
  have hfirst : keyWord k (4 * (j + 1)) = columnBytes (gridColumn (roundKey k (j + 1)) 0) :=
    keyWord_eq_columnBytes k (j + 1) (c := 0) (by decide)
  have hback : keyWord k (4 * j) = columnBytes (gridColumn (roundKey k j) 0) :=
    keyWord_eq_columnBytes k j (c := 0) (by decide)
  rw [hfirst, hback, keyWord_eq_columnBytes k j (c := 3) (by decide), roundKey_succ k hj, gridColumn_nextRoundKey_zero,
    columnBytes_xorColumn, columnBytes_keyCore]

/-- The other words of a round key: the word four places back, added to the word before. -/
theorem keyWord_next (k : List Byte) {j c : Nat} (hj : j < 10) (hc : c < 3) :
    keyWord k (4 * (j + 1) + (c + 1)) = xorBytes (keyWord k (4 * j + (c + 1))) (keyWord k (4 * (j + 1) + c)) := by
  rw [keyWord_eq_columnBytes k _ (by omega), keyWord_eq_columnBytes k _ (by omega), keyWord_eq_columnBytes k _ (by omega),
    roundKey_succ k hj, gridColumn_nextRoundKey_succ _ _ hc, columnBytes_xorColumn]

/-- The recurrence of the key schedule (R70), at `i = 4(j + 1) + c`. -/
theorem keyWord_recurrence (k : List Byte) {i : Nat} (hmin : 4 ≤ i) (hmax : i < 44) :
    keyWord k i =
      xorBytes (keyWord k (i - 4)) (if i % 4 = 0 then scheduleCore (keyWord k (i - 1)) (i / 4) else keyWord k (i - 1)) := by
  obtain ⟨j, c, hc, rfl⟩ : ∃ j c, c < 4 ∧ i = 4 * (j + 1) + c := ⟨i / 4 - 1, i % 4, by omega, by omega⟩
  have hback : 4 * (j + 1) + c - 4 = 4 * j + c := by omega
  rw [hback]
  cases c with
  | zero =>
    have hmod : (4 * (j + 1) + 0) % 4 = 0 := by omega
    have hdiv : (4 * (j + 1) + 0) / 4 = j + 1 := by omega
    have hbefore : 4 * (j + 1) + 0 - 1 = 4 * j + 3 := by omega
    rw [if_pos hmod, hdiv, hbefore]
    exact keyWord_first k (by omega)
  | succ c =>
    have hmod : (4 * (j + 1) + (c + 1)) % 4 ≠ 0 := by omega
    have hbefore : 4 * (j + 1) + (c + 1) - 1 = 4 * (j + 1) + c := by omega
    rw [if_neg hmod, hbefore]
    exact keyWord_next k (by omega) (by omega)

-- The rounds (R71, R72)

theorem keyExpansion_eq_map_roundKey (k : List Byte) : keyExpansion k = (List.range 11).map (roundKey k) := by
  apply List.ext_getElem
  · simp [keyExpansion_length]
  · intro j hj _
    rw [List.getElem_map, List.getElem_range, roundKey, List.getD_eq_getElem _ _ hj]

/-- All round keys but the last are used with MixColumns, and the last without. -/
theorem encRounds_append_singleton (rks : List Grid) (last s : Grid) :
    encRounds (rks ++ [last]) s = addRoundKey (shiftRows (subBytes
      (rks.foldl (fun s rk => addRoundKey (mixColumns (shiftRows (subBytes s))) rk) s))) last := by
  induction rks generalizing s with
  | nil => rfl
  | cons rk rks ih =>
    rw [List.foldl_cons, ← ih]
    cases rks <;> rfl

/-- All round keys but the last are used with InvMixColumns, and the last without. -/
theorem decRounds_append_singleton (rks : List Grid) (last s : Grid) :
    decRounds (rks ++ [last]) s = addRoundKey (invSubBytes (invShiftRows
      (rks.foldl (fun s rk => invMixColumns (addRoundKey (invSubBytes (invShiftRows s)) rk)) s))) last := by
  induction rks generalizing s with
  | nil => rfl
  | cons rk rks ih =>
    rw [List.foldl_cons, ← ih]
    cases rks <;> rfl

/-- The round keys in the order in which the cipher uses them. -/
theorem keyExpansion_eq_rounds (k : List Byte) :
    keyExpansion k = roundKey k 0 :: ((List.range 9).map (fun j => roundKey k (j + 1)) ++ [roundKey k 10]) := by
  rw [keyExpansion_eq_map_roundKey]
  rfl

/-- The round keys in the order in which the inverse cipher uses them. -/
theorem keyExpansion_reverse_eq_rounds (k : List Byte) :
    (keyExpansion k).reverse = roundKey k 10 :: ((List.range 9).map (fun j => roundKey k (9 - j)) ++ [roundKey k 0]) := by
  rw [keyExpansion_eq_map_roundKey]
  rfl

theorem aesEnc_eq_rounds (k b : List Byte) :
    aesEnc k b = gridBytes (addRoundKey (shiftRows (subBytes ((List.range 9).foldl
      (fun s j => addRoundKey (mixColumns (shiftRows (subBytes s))) (roundKey k (j + 1)))
      (addRoundKey (gridOfBytes b) (roundKey k 0))))) (roundKey k 10)) := by
  rw [aesEnc, keyExpansion_eq_rounds, encGrid, encRounds_append_singleton, List.foldl_map]

theorem aesDec_eq_rounds (k b : List Byte) :
    aesDec k b = gridBytes (addRoundKey (invSubBytes (invShiftRows ((List.range 9).foldl
      (fun s j => invMixColumns (addRoundKey (invSubBytes (invShiftRows s)) (roundKey k (9 - j))))
      (addRoundKey (gridOfBytes b) (roundKey k 10))))) (roundKey k 0)) := by
  rw [aesDec, keyExpansion_reverse_eq_rounds, decGrid, decRounds_append_singleton, List.foldl_map]

/-- Settles O60: the lanes of the state, the words of the key schedule, and the ten rounds in both directions. -/
theorem aesRunsItsRounds : Obligations.AesRunsItsRounds :=
  ⟨fun b _ _ hr hc => laneOf_gridOfBytes b hr hc,
    fun g rk _ _ hr hc => ⟨laneOf_mapGrid sbox g hr hc, laneOf_mapGrid invSbox g hr hc, laneOf_addRoundKey g rk hr hc⟩,
    fun k hk => ⟨keyExpansion_length k, fun _ hi => keyWord_of_lt_four hk hi, fun _ => keyWord_recurrence k⟩,
    fun k b => ⟨aesEnc_eq_rounds k b, aesDec_eq_rounds k b⟩⟩

end Sys2Proof.Machine
end

section
/-! Proofs of the family 44_transport_codec, first part: the base64 alphabet (R73), its groups and `B64_Encode` (R74), and
`B64_Decode` (R75). -/

namespace Sys2Proof.Machine

-- The alphabet (R73)

/-- `ch` is the character of value `v` in one of the five rows of the table of R73. -/
def AlphabetRow (ch : Byte) (v : BitVec 6) : Prop :=
  (0x41 ≤ ch.toNat ∧ ch.toNat ≤ 0x5A ∧ v.toNat = ch.toNat - 0x41) ∨
  (0x61 ≤ ch.toNat ∧ ch.toNat ≤ 0x7A ∧ v.toNat = ch.toNat - 0x61 + 26) ∨
  (0x30 ≤ ch.toNat ∧ ch.toNat ≤ 0x39 ∧ v.toNat = ch.toNat - 0x30 + 52) ∨
  (ch = 0x2B ∧ v.toNat = 62) ∨ (ch = 0x2F ∧ v.toNat = 63)

theorem b64Value_eq_some_iff (ch : Byte) (v : BitVec 6) : b64Value ch = some v ↔ AlphabetRow ch v := by
  simp only [b64Value, AlphabetRow]
  split_ifs <;> simp only [Option.some.injEq, false_iff] <;> bv_omega

theorem b64Symbol_eq_iff (ch : Byte) (v : BitVec 6) : b64Symbol v = ch ↔ AlphabetRow ch v := by
  simp only [b64Symbol, AlphabetRow]
  split_ifs <;> bv_omega

/-- `val` and `sym` are the two directions of one table. -/
theorem b64Value_eq_some_iff_b64Symbol (ch : Byte) (v : BitVec 6) : b64Value ch = some v ↔ b64Symbol v = ch :=
  (b64Value_eq_some_iff ch v).trans (b64Symbol_eq_iff ch v).symm

@[simp] theorem b64Value_b64Symbol (v : BitVec 6) : b64Value (b64Symbol v) = some v :=
  (b64Value_eq_some_iff_b64Symbol _ v).2 rfl

@[simp] theorem b64Value_padChar : b64Value padChar = none := rfl

/-- The bytes with a value are the symbols. -/
theorem b64Value_ne_none_iff (ch : Byte) : b64Value ch ≠ none ↔ ch ∈ Set.range b64Symbol := by
  simp only [Option.ne_none_iff_exists', b64Value_eq_some_iff_b64Symbol, Set.mem_range]

theorem b64Symbol_ne_padChar (v : BitVec 6) : b64Symbol v ≠ padChar := by
  intro h
  exact (b64Value_ne_none_iff padChar).2 ⟨v, h⟩ b64Value_padChar

/-- The bytes with a value are the five ranges of the table. -/
theorem b64Value_ne_none_iff_ranges (ch : Byte) : b64Value ch ≠ none ↔
    (0x41 ≤ ch.toNat ∧ ch.toNat ≤ 0x5A) ∨ (0x61 ≤ ch.toNat ∧ ch.toNat ≤ 0x7A) ∨
    (0x30 ≤ ch.toNat ∧ ch.toNat ≤ 0x39) ∨ ch = 0x2B ∨ ch = 0x2F := by
  simp only [b64Value]
  split_ifs <;> simp only [ne_eq, reduceCtorEq, not_false_eq_true, not_true_eq_false, true_iff, false_iff] <;>
    bv_omega

/-- Settles O49: `val` and `sym` both read the rows of the table. -/
theorem base64AlphabetIsTheTable : Obligations.Base64AlphabetIsTheTable := by
  refine ⟨b64Value_b64Symbol, fun ch v => (b64Value_eq_some_iff_b64Symbol ch v).1, b64Value_ne_none_iff_ranges,
    fun ch v h => ?_, rfl, b64Value_padChar⟩
  have hrow := (b64Value_eq_some_iff ch v).1 h
  unfold AlphabetRow at hrow
  bv_omega

-- Groups of three bytes and of four symbols (R74, R75)

/-- A field above the bits of `y` adds its number times its weight. -/
theorem toNat_field_or {n k : Nat} (x : BitVec n) {y : BitVec 24} (hfit : n + k ≤ 24) (hy : y.toNat < 2 ^ k) :
    (x.setWidth 24 <<< k ||| y).toNat = x.toNat * 2 ^ k + y.toNat := by
  have hwidth : x.toNat < 2 ^ 24 := x.isLt.trans_le (Nat.pow_le_pow_right (by decide) (by omega))
  have hshift : x.toNat * 2 ^ k < 2 ^ 24 := calc
    x.toNat * 2 ^ k < 2 ^ n * 2 ^ k := Nat.mul_lt_mul_of_pos_right x.isLt (Nat.two_pow_pos k)
    _ = 2 ^ (n + k) := (Nat.pow_add 2 n k).symm
    _ ≤ 2 ^ 24 := Nat.pow_le_pow_right (by decide) hfit
  rw [BitVec.toNat_or, BitVec.toNat_shiftLeft, BitVec.toNat_setWidth, Nat.mod_eq_of_lt hwidth, Nat.shiftLeft_eq,
    Nat.mod_eq_of_lt hshift, ← Nat.shiftLeft_eq, Nat.shiftLeft_add_eq_or_of_lt hy]

theorem b64Group_toNat (a b c : Byte) : (b64Group a b c).toNat = a.toNat * 2 ^ 16 + b.toNat * 2 ^ 8 + c.toNat := by
  have hc : (c.setWidth 24).toNat = c.toNat := BitVec.toNat_setWidth_of_le (by decide)
  have hbc := toNat_field_or (k := 8) b (y := c.setWidth 24) (by decide) (by omega)
  rw [b64Group, BitVec.or_assoc, toNat_field_or a (by decide) (by omega), hbc, hc]
  omega

theorem b64Ungroup_toNat (v0 v1 v2 v3 : BitVec 6) :
    (b64Ungroup v0 v1 v2 v3).toNat = v0.toNat * 2 ^ 18 + v1.toNat * 2 ^ 12 + v2.toNat * 2 ^ 6 + v3.toNat := by
  have h3 : (v3.setWidth 24).toNat = v3.toNat := BitVec.toNat_setWidth_of_le (by decide)
  have h23 := toNat_field_or (k := 6) v2 (y := v3.setWidth 24) (by decide) (by omega)
  have h123 := toNat_field_or (k := 12) v1 (y := v2.setWidth 24 <<< 6 ||| v3.setWidth 24) (by decide) (by omega)
  rw [b64Ungroup, BitVec.or_assoc, BitVec.or_assoc, toNat_field_or v0 (by decide) (by omega), h123, h23, h3]
  omega

/-- The four 6-bit values of a 24-bit group, most significant bits first (R74). -/
def sextets (v : BitVec 24) : List (BitVec 6) :=
  [v.extractLsb' 18 6, v.extractLsb' 12 6, v.extractLsb' 6 6, v.extractLsb' 0 6]

theorem b64Quad_eq_map_sextets (v : BitVec 24) : b64Quad v = (sextets v).map b64Symbol := rfl

theorem b64Quad_eq_symbolsOf (v : BitVec 24) : b64Quad v = symbolsOf v.toNat := by
  have hsextet (k : Nat) : v.extractLsb' k 6 = BitVec.ofNat 6 (v.toNat / 2 ^ k) := by
    rw [← BitVec.toNat_inj, BitVec.extractLsb'_toNat, BitVec.toNat_ofNat, Nat.shiftRight_eq_div_pow]
  simp only [b64Quad, symbolsOf, hsextet, Nat.pow_zero, Nat.div_one]

theorem b64Ungroup_sextets (v : BitVec 24) :
    b64Ungroup (v.extractLsb' 18 6) (v.extractLsb' 12 6) (v.extractLsb' 6 6) (v.extractLsb' 0 6) = v := by
  have hv := v.isLt
  simp only [← BitVec.toNat_inj, b64Ungroup_toNat, BitVec.extractLsb'_toNat, Nat.shiftRight_eq_div_pow]
  omega

theorem extractLsb'_b64Group (a b c : Byte) : (b64Group a b c).extractLsb' 16 8 = a ∧
    (b64Group a b c).extractLsb' 8 8 = b ∧ (b64Group a b c).extractLsb' 0 8 = c := by
  simp only [← BitVec.toNat_inj, BitVec.extractLsb'_toNat, Nat.shiftRight_eq_div_pow, b64Group_toNat]
  omega

/-- The bytes of a group's values are the group's bytes. -/
theorem b64Bytes_sextets_append (a b c : Byte) (vs : List (BitVec 6)) :
    b64Bytes (sextets (b64Group a b c) ++ vs) = a :: b :: c :: b64Bytes vs := by
  obtain ⟨ha, hb, hc⟩ := extractLsb'_b64Group a b c
  simp only [sextets, List.cons_append, List.nil_append, b64Bytes, b64Ungroup_sextets, ha, hb, hc]

/-- The low bits of a group that no byte fills are 0, so the places of its pads count 0. -/
theorem sextets_b64Group_one (a : Byte) : sextets (b64Group a 0 0) = (sextets (b64Group a 0 0)).take 2 ++ [0, 0] := by
  have hlow : (b64Group a 0 0).extractLsb' 6 6 = 0 ∧ (b64Group a 0 0).extractLsb' 0 6 = 0 := by
    simp only [← BitVec.toNat_inj, BitVec.extractLsb'_toNat, Nat.shiftRight_eq_div_pow, b64Group_toNat]
    bv_omega
  simp only [sextets, hlow, List.take_succ_cons, List.take_zero, List.cons_append, List.nil_append]

theorem sextets_b64Group_two (a b : Byte) : sextets (b64Group a b 0) = (sextets (b64Group a b 0)).take 3 ++ [0] := by
  have hlow : (b64Group a b 0).extractLsb' 0 6 = 0 := by
    simp only [← BitVec.toNat_inj, BitVec.extractLsb'_toNat, Nat.shiftRight_eq_div_pow, b64Group_toNat]
    bv_omega
  simp only [sextets, hlow, List.take_succ_cons, List.take_zero, List.cons_append, List.nil_append]

theorem length_lt_four_of_no_group {vs : List (BitVec 6)}
    (h : ∀ v0 v1 v2 v3 rest, vs = v0 :: v1 :: v2 :: v3 :: rest → False) : vs.length < 4 := by
  match vs, h with
  | [], _ | [_], _ | [_, _], _ | [_, _, _], _ => simp
  | v0 :: v1 :: v2 :: v3 :: rest, h => exact (h v0 v1 v2 v3 rest rfl).elim

theorem b64Bytes_length (vs : List (BitVec 6)) : (b64Bytes vs).length = 3 * (vs.length / 4) := by
  induction vs using b64Bytes.induct with
  | case1 v0 v1 v2 v3 rest ih =>
    simp only [b64Bytes, List.length_cons, ih]
    omega
  | case2 vs hshort =>
    rw [b64Bytes.eq_2 vs hshort, Nat.div_eq_of_lt (length_lt_four_of_no_group hshort)]
    rfl

/-- The number of group `g` of a list of values (R75). -/
def valuesNumber (vs : List (BitVec 6)) (g : Nat) : Nat :=
  (vs.getD (4 * g) 0).toNat * 2 ^ 18 + (vs.getD (4 * g + 1) 0).toNat * 2 ^ 12 + (vs.getD (4 * g + 2) 0).toNat * 2 ^ 6 +
    (vs.getD (4 * g + 3) 0).toNat

theorem valuesNumber_zero (v0 v1 v2 v3 : BitVec 6) (rest : List (BitVec 6)) :
    valuesNumber (v0 :: v1 :: v2 :: v3 :: rest) 0 = (b64Ungroup v0 v1 v2 v3).toNat := (b64Ungroup_toNat v0 v1 v2 v3).symm

theorem valuesNumber_succ (v0 v1 v2 v3 : BitVec 6) (rest : List (BitVec 6)) (g : Nat) :
    valuesNumber (v0 :: v1 :: v2 :: v3 :: rest) (g + 1) = valuesNumber rest g := rfl

/-- Byte `k` of group `g`, from the top, is cut out of that group's number. -/
theorem b64Bytes_getD_toNat {vs : List (BitVec 6)} {g k : Nat} (hg : 4 * g + 3 < vs.length) (hk : k < 3) :
    ((b64Bytes vs).getD (3 * g + k) 0).toNat = valuesNumber vs g / 2 ^ (16 - 8 * k) % 2 ^ 8 := by
  induction vs using b64Bytes.induct generalizing g with
  | case1 v0 v1 v2 v3 rest ih =>
    cases g with
    | zero =>
      rw [valuesNumber_zero, b64Bytes]
      interval_cases k <;> simp [Nat.shiftRight_eq_div_pow]
    | succ g =>
      have hrest : 4 * g + 3 < rest.length := by
        simp only [List.length_cons] at hg
        omega
      have hpast : 3 * (g + 1) + k = 3 * g + k + 1 + 1 + 1 := by omega
      rw [valuesNumber_succ, ← ih hrest, b64Bytes, hpast, List.getD_cons_succ, List.getD_cons_succ, List.getD_cons_succ]
  | case2 vs hshort =>
    have hlt := length_lt_four_of_no_group hshort
    omega

-- `B64_Encode` (R74)

theorem base64Encode_append {x : List Byte} (hx : x.length % 3 = 0) (y : List Byte) :
    base64Encode (x ++ y) = base64Encode x ++ base64Encode y := by
  induction x using base64Encode.induct with
  | case1 => rfl
  | case2 a => cases hx
  | case3 a b => cases hx
  | case4 a b c rest ih =>
    have hrest : rest.length % 3 = 0 := by
      simp only [List.length_cons] at hx
      omega
    simp only [List.cons_append, base64Encode, ih hrest, List.append_assoc]

/-- A base64 string: the symbols of the values `vs`, and `p` pads. -/
def paddedSymbols (vs : List (BitVec 6)) (p : Nat) : List Byte := vs.map b64Symbol ++ List.replicate p padChar

@[simp] theorem paddedSymbols_length (vs : List (BitVec 6)) (p : Nat) : (paddedSymbols vs p).length = vs.length + p := by
  simp [paddedSymbols]

/-- `B64_Encode` gives symbols and at most two pads, whose values, a pad counting 0, make the bytes it was given. -/
theorem base64Encode_eq_paddedSymbols (b : List Byte) : ∃ vs p, p ≤ 2 ∧ base64Encode b = paddedSymbols vs p ∧
    b64Bytes (vs ++ List.replicate p 0) = b ++ List.replicate p 0 := by
  induction b using base64Encode.induct with
  | case1 => exact ⟨[], 0, by decide, rfl, rfl⟩
  | case2 a =>
    refine ⟨(sextets (b64Group a 0 0)).take 2, 2, by decide, rfl, ?_⟩
    have hbytes := b64Bytes_sextets_append a 0 0 []
    rwa [List.append_nil, sextets_b64Group_one] at hbytes
  | case3 a b =>
    refine ⟨(sextets (b64Group a b 0)).take 3, 1, by decide, rfl, ?_⟩
    have hbytes := b64Bytes_sextets_append a b 0 []
    rwa [List.append_nil, sextets_b64Group_two] at hbytes
  | case4 a b c rest ih =>
    obtain ⟨vs, p, hp, henc, hbytes⟩ := ih
    refine ⟨sextets (b64Group a b c) ++ vs, p, hp, ?_, ?_⟩
    · rw [base64Encode, b64Quad_eq_map_sextets, henc, paddedSymbols, paddedSymbols, List.map_append, List.append_assoc]
    · rw [List.append_assoc, b64Bytes_sextets_append, hbytes]
      rfl

-- `B64_Decode` (R75)

theorem b64Values_map_b64Symbol (vs : List (BitVec 6)) : b64Values (vs.map b64Symbol) = some vs := by
  induction vs with
  | nil => rfl
  | cons v vs ih => simp only [List.map_cons, b64Values, b64Value_b64Symbol, ih]

/-- Where every character has a value, the characters are symbols. -/
theorem exists_map_b64Symbol_iff (s : List Byte) :
    (∃ vs : List (BitVec 6), vs.map b64Symbol = s) ↔ ∀ ch ∈ s, b64Value ch ≠ none := by
  simp only [b64Value_ne_none_iff, ← Set.mem_range, Set.range_list_map, Set.mem_ofPred_eq]

theorem b64Values_eq_none {s : List Byte} {ch : Byte} (hmem : ch ∈ s) (h : b64Value ch = none) : b64Values s = none := by
  induction s with
  | nil => cases hmem
  | cons c rest ih =>
    obtain rfl | hrest := List.mem_cons.1 hmem
    · simp only [b64Values, h]
    · simp only [b64Values, ih hrest]
      cases b64Value c <;> rfl

/-- Testing for the pad character, as `padRun` does. -/
def isPad (ch : Byte) : Bool := ch == padChar

theorem padRun_eq_rtakeWhile_length (s : List Byte) : padRun s = (s.rtakeWhile isPad).length := List.length_reverse.symm

theorem rtakeWhile_isPad (s : List Byte) : s.rtakeWhile isPad = List.replicate (padRun s) padChar :=
  List.eq_replicate_iff.2 ⟨(padRun_eq_rtakeWhile_length s).symm, fun _ h =>
    eq_of_beq (List.mem_rtakeWhile_imp (p := isPad) h)⟩

/-- A string is what stands before its run of pads, and that run. -/
theorem take_append_pads (s : List Byte) : s.take (s.length - padRun s) ++ List.replicate (padRun s) padChar = s := by
  have hsplit : s.rdropWhile isPad ++ List.replicate (padRun s) padChar = s := by
    rw [← rtakeWhile_isPad, List.rdropWhile_append_rtakeWhile]
  have hlength := congrArg List.length hsplit
  rw [List.length_append, List.length_replicate] at hlength
  rw [← hlength, Nat.add_sub_cancel, ← List.prefix_iff_eq_take.1 (List.rdropWhile_prefix isPad s), hsplit]

/-- The run of pads goes back to the last symbol. -/
theorem padRun_paddedSymbols (vs : List (BitVec 6)) (p : Nat) : padRun (paddedSymbols vs p) = p := by
  have hpads : (paddedSymbols vs p).rtakeWhile isPad = List.replicate p padChar := by
    induction p with
    | zero =>
      rw [paddedSymbols, List.replicate_zero, List.append_nil, List.rtakeWhile_eq_nil_iff]
      intro hne hpad
      obtain ⟨v, -, hv⟩ := List.mem_map.1 (List.getLast_mem hne)
      exact b64Symbol_ne_padChar v (hv.trans (eq_of_beq hpad))
    | succ p ih =>
      rw [paddedSymbols, List.replicate_succ', ← List.append_assoc, List.rtakeWhile_concat_pos isPad _ _ rfl]
      exact congrArg (· ++ [padChar]) ih
  rw [padRun_eq_rtakeWhile_length, hpads, List.length_replicate]

theorem take_paddedSymbols (vs : List (BitVec 6)) (p : Nat) :
    (paddedSymbols vs p).take vs.length = vs.map b64Symbol := List.take_left' (List.length_map _)

/-- A string that passes the three tests of `B64_Decode`. -/
def Base64Accepts (s : List Byte) : Prop :=
  s.length % 4 = 0 ∧ padRun s ≤ 2 ∧ ∀ ch ∈ s.take (s.length - padRun s), b64Value ch ≠ none

/-- The strings that pass are symbols with at most two pads, in whole groups. -/
theorem base64Accepts_iff (s : List Byte) :
    Base64Accepts s ↔ ∃ vs p, p ≤ 2 ∧ (vs.length + p) % 4 = 0 ∧ s = paddedSymbols vs p := by
  constructor
  · rintro ⟨hlength, hpads, hsymbols⟩
    obtain ⟨vs, hvs⟩ := (exists_map_b64Symbol_iff _).2 hsymbols
    have hs : s = paddedSymbols vs (padRun s) := by rw [paddedSymbols, hvs, take_append_pads]
    refine ⟨vs, padRun s, hpads, ?_, hs⟩
    rwa [hs, paddedSymbols_length] at hlength
  · rintro ⟨vs, p, hp, hlength, rfl⟩
    refine ⟨?_, ?_, ?_⟩
    · rwa [paddedSymbols_length]
    · rwa [padRun_paddedSymbols]
    · rw [padRun_paddedSymbols, paddedSymbols_length, Nat.add_sub_cancel, take_paddedSymbols]
      exact (exists_map_b64Symbol_iff _).1 ⟨vs, rfl⟩

/-- What `B64_Decode` gives for symbols and pads: the bytes of their values, a pad counting 0, without the last `p`. -/
theorem base64Decode_paddedSymbols {vs : List (BitVec 6)} {p : Nat} (hp : p ≤ 2) (hlength : (vs.length + p) % 4 = 0) :
    base64Decode (paddedSymbols vs p) =
      .ok ((b64Bytes (vs ++ List.replicate p 0)).take (3 * (vs.length + p) / 4 - p)) := by
  simp only [base64Decode, padRun_paddedSymbols, paddedSymbols_length, Nat.add_sub_cancel, take_paddedSymbols,
    b64Values_map_b64Symbol, hlength, ne_eq, not_true_eq_false, if_false, Nat.not_lt.2 hp]

/-- A string that fails one of the tests fails with `DecodeError`. -/
theorem base64Decode_of_not_accepts {s : List Byte} (h : ¬ Base64Accepts s) : base64Decode s = .error .decodeError := by
  simp only [base64Decode]
  split
  next => rfl
  next hlength =>
    split
    next => rfl
    next hpads =>
      split
      next => rfl
      next vs hvs =>
        refine (h ⟨not_not.1 hlength, Nat.not_lt.1 hpads, fun ch hmem hch => ?_⟩).elim
        rw [b64Values_eq_none hmem hch] at hvs
        cases hvs

theorem base64Decode_ok_iff (s : List Byte) : (∃ d, base64Decode s = .ok d) ↔ Base64Accepts s := by
  refine ⟨fun ⟨d, hd⟩ => by_contra fun h => ?_, fun h => ?_⟩
  · rw [base64Decode_of_not_accepts h] at hd
    cases hd
  · obtain ⟨vs, p, hp, hlength, rfl⟩ := (base64Accepts_iff s).1 h
    exact ⟨_, base64Decode_paddedSymbols hp hlength⟩

/-- `DecodeError` is the one error of `B64_Decode`. -/
theorem base64Decode_error {s : List Byte} {e : ErrorCode} (h : base64Decode s = .error e) : e = .decodeError := by
  by_cases haccepts : Base64Accepts s
  · obtain ⟨d, hd⟩ := (base64Decode_ok_iff s).2 haccepts
    rw [hd] at h
    cases h
  · rw [base64Decode_of_not_accepts haccepts] at h
    cases h
    rfl

/-- `B64_Decode` undoes `B64_Encode`. -/
theorem base64Decode_base64Encode (b : List Byte) : base64Decode (base64Encode b) = .ok b := by
  obtain ⟨vs, p, hp, henc, hbytes⟩ := base64Encode_eq_paddedSymbols b
  have hb : 3 * ((vs.length + p) / 4) = b.length + p := by
    have hcount := congrArg List.length hbytes
    simp only [b64Bytes_length, List.length_append, List.length_replicate] at hcount
    omega
  have hlen : (vs.length + p) % 4 = 0 := by
    have hstring := base64Encode_length b
    rw [henc, paddedSymbols_length, base64Length] at hstring
    omega
  have htake : 3 * (vs.length + p) / 4 - p = b.length := by omega
  rw [henc, base64Decode_paddedSymbols hp hlen, hbytes, htake, List.take_left]

/-- Settles O50: the characters of a group are the symbols of its number, and decoding reads them back. -/
theorem base64DecodeInvertsEncode : Obligations.Base64DecodeInvertsEncode := by
  refine ⟨fun b => ⟨base64Decode_base64Encode b, base64Encode_length b⟩, rfl, fun a => ?_, fun a b => ?_, fun a b c => ?_,
    fun x y hx => base64Encode_append hx y⟩
  · simp [base64Encode, b64Quad_eq_symbolsOf, b64Group_toNat, padChar]
  · simp [base64Encode, b64Quad_eq_symbolsOf, b64Group_toNat, padChar]
  · simp [base64Encode, b64Quad_eq_symbolsOf, b64Group_toNat]

/-- A character has a value where a symbol stands; a pad has none, nor has a place past the string. -/
theorem b64Value_paddedSymbols_getD (vs : List (BitVec 6)) (p i : Nat) :
    b64Value ((paddedSymbols vs p).getD i 0) = vs[i]? := by
  have hzero : b64Value 0 = none := rfl
  rw [paddedSymbols, List.getD_eq_getElem?_getD, List.getElem?_append, List.length_map]
  split
  next hi => simp [hi]
  next hi =>
    rw [List.getElem?_eq_none (Nat.not_lt.1 hi), List.getElem?_replicate]
    split
    next => exact b64Value_padChar
    next => exact hzero

theorem symbolNumber_eq (s : List Byte) (i : Nat) : symbolNumber s i = ((b64Value (s.getD i 0)).getD 0).toNat := by
  unfold symbolNumber
  cases b64Value (s.getD i 0) <;> rfl

/-- A pad counts 0. -/
theorem symbolNumber_paddedSymbols (vs : List (BitVec 6)) (p i : Nat) :
    symbolNumber (paddedSymbols vs p) i = ((vs ++ List.replicate p 0).getD i 0).toNat := by
  rw [symbolNumber_eq, b64Value_paddedSymbols_getD, List.getD_eq_getElem?_getD, List.getElem?_append]
  split
  next => rfl
  next hi =>
    rw [List.getElem?_eq_none (Nat.not_lt.1 hi), List.getElem?_replicate]
    split <;> rfl

theorem groupNumber_paddedSymbols (vs : List (BitVec 6)) (p g : Nat) :
    groupNumber (paddedSymbols vs p) g = valuesNumber (vs ++ List.replicate p 0) g := by
  simp only [groupNumber, symbolNumber_paddedSymbols, valuesNumber]

/-- Settles O51: a string that is accepted is symbols and pads, whose values' bytes are the result. -/
theorem base64DecodeAcceptsExactly : Obligations.Base64DecodeAcceptsExactly := by
  refine fun s => ⟨fun d hd => ?_, base64Decode_ok_iff s, fun _ => base64Decode_error⟩
  obtain ⟨vs, p, hp, hlength, rfl⟩ := (base64Accepts_iff s).1 ((base64Decode_ok_iff s).1 ⟨d, hd⟩)
  rw [base64Decode_paddedSymbols hp hlength] at hd
  cases hd
  have hvalues : (vs ++ List.replicate p (0 : BitVec 6)).length = vs.length + p := by simp
  have hbytes : ((b64Bytes (vs ++ List.replicate p 0)).take (3 * (vs.length + p) / 4 - p)).length =
      3 * (vs.length + p) / 4 - p := by
    rw [List.length_take, b64Bytes_length, hvalues]
    omega
  rw [paddedSymbols_length, padRun_paddedSymbols]
  refine ⟨hbytes, fun g k hk hlt => ?_⟩
  rw [hbytes] at hlt
  rw [groupNumber_paddedSymbols, ← b64Bytes_getD_toNat (by omega) hk, List.getD_eq_getElem?_getD,
    List.getElem?_take_of_lt hlt, List.getD_eq_getElem?_getD]

end Sys2Proof.Machine
end

section
/-! Proofs of the family 44_transport_codec, second part: the commands B64_ENCODE (R76) and B64_DECODE (R77). -/

namespace Sys2Proof.Machine

-- B64_ENCODE (R76)

/-- Where the string and its terminator fit OBUF, the message fits IBUF. -/
theorem exec_b64Encode_fits {s : State} (h : base64Length (inLength s) + 1 ≤ bufBytes s) :
    exec .b64Encode s = finishOk .b64Encode (base64Encode (messageOf s)) true none s := by
  have hin : ¬ bufBytes s < inLength s := by
    have hlen := le_base64Length (inLength s)
    omega
  simp only [exec, execB64Encode, if_neg hin, if_neg (Nat.not_lt.2 h), messageOf]

theorem exec_b64Encode_noRoom {s : State} (h : bufBytes s < base64Length (inLength s) + 1) :
    exec .b64Encode s = raiseError .b64Encode .lengthError none s := by
  simp only [exec, execB64Encode, if_pos h, ite_self]

/-- Settles O33: both length tests of B64_ENCODE come to whether the string and its terminator fit. -/
theorem b64EncodeWritesTheString : Obligations.B64EncodeWritesTheString := by
  refine fun s => ⟨fun hfit => ?_, fun hroom => failsWith_of_raiseError (exec_b64Encode_noRoom hroom) nofun⟩
  have hlen : (base64Encode (messageOf s)).length = base64Length (inLength s) := by
    rw [base64Encode_length, messageOf, inputBytes_length]
  exact ⟨succeedsWith_of_finishOk (exec_b64Encode_fits hfit) (by omega) nofun, hlen⟩

-- B64_DECODE (R77)

theorem exec_b64Decode_inputTooLong {s : State} (hin : bufBytes s < inLength s) :
    exec .b64Decode s = raiseError .b64Decode .lengthError none s := by
  simp only [exec, execB64Decode, if_pos hin]

theorem exec_b64Decode_of_error {s : State} {e : ErrorCode} (hin : inLength s ≤ bufBytes s)
    (h : base64Decode (stringOf s) = .error e) : exec .b64Decode s = raiseError .b64Decode e none s := by
  rw [stringOf] at h
  simp only [exec, execB64Decode, if_neg (Nat.not_lt.2 hin), h]

theorem exec_b64Decode_of_ok {s : State} {d : List Byte} (hin : inLength s ≤ bufBytes s)
    (h : base64Decode (stringOf s) = .ok d) : exec .b64Decode s = finishOk .b64Decode d false none s := by
  rw [stringOf] at h
  simp only [exec, execB64Decode, if_neg (Nat.not_lt.2 hin), h]

/-- The bytes of a string that fits IBUF fit OBUF. -/
theorem b64Decode_succeedsWith {s : State} {d : List Byte} (hin : inLength s ≤ bufBytes s)
    (h : base64Decode (stringOf s) = .ok d) : SucceedsWith .b64Decode s d false none := by
  have hbytes := base64Decode_length_le h
  have hstring := inputString_length_le s (inLength s)
  rw [stringOf] at hbytes
  exact succeedsWith_of_finishOk (exec_b64Decode_of_ok hin h) (by omega) nofun

/-- A string that does not decode fails with the one error of `B64_Decode`. -/
theorem b64Decode_failsWith {s : State} (hin : inLength s ≤ bufBytes s) (h : ∀ d, base64Decode (stringOf s) ≠ .ok d) :
    FailsWith .b64Decode s .decodeError none := by
  cases hdecode : base64Decode (stringOf s) with
  | ok d => exact (h d hdecode).elim
  | error e =>
    rw [base64Decode_error hdecode] at hdecode
    exact failsWith_of_raiseError (exec_b64Decode_of_error hin hdecode) nofun

/-- Settles O34: IN_LEN is tested first, and then the string decodes or does not. -/
theorem b64DecodeWritesTheBytes : Obligations.B64DecodeWritesTheBytes := fun _ =>
  ⟨fun _ hin hd => b64Decode_succeedsWith hin hd,
    fun hin => failsWith_of_raiseError (exec_b64Decode_inputTooLong hin) nofun, fun hin hd => b64Decode_failsWith hin hd⟩

end Sys2Proof.Machine
end

section
/-! Proofs of the family 45_payload_codec: what fails PAYLOAD_ENCRYPT (R78), how PAYLOAD_DECRYPT ends (R79), and the round trip
of the two (R80). -/

namespace Sys2Proof.Machine

/-- An IV write of 16 bytes, in the form in which the completions ask for it (R25). -/
theorem length_of_some_eq {iv : List Byte} (hiv : iv.length = 16) : ∀ b, some iv = some b → b.length = 16 := by
  rintro b ⟨⟩
  exact hiv

-- The errors of PAYLOAD_ENCRYPT (R78, R83)

theorem exec_payloadEncrypt_inputTooLong {s : State} (hin : bufBytes s < inLength s) :
    exec .payloadEncrypt s = raiseError .payloadEncrypt .lengthError none s := by
  simp only [exec, execPayloadEncrypt, if_pos hin]

theorem exec_payloadEncrypt_empty {s : State} (hn : inLength s = 0) :
    exec .payloadEncrypt s = raiseError .payloadEncrypt .emptyInput none s := by
  have hin : ¬ bufBytes s < inLength s := by omega
  simp only [exec, execPayloadEncrypt, if_neg hin, if_pos hn]

theorem exec_payloadEncrypt_noRoom {s : State} (hpos : 1 ≤ inLength s) (hin : inLength s ≤ bufBytes s)
    (hout : bufBytes s < base64Length (16 + paddedSize (inLength s)) + 1) :
    exec .payloadEncrypt s = raiseError .payloadEncrypt .lengthError none s := by
  have hn : ¬ inLength s = 0 := by omega
  simp only [exec, execPayloadEncrypt, if_neg (Nat.not_lt.2 hin), if_neg hn, if_pos hout]

/-- `Fail` ends either wait alike, and writes no IV. -/
theorem exec_payloadEncrypt_noEntropy {s : State} {p : Purpose} (h : PayloadEncryptFits s)
    (hs : s.stage = .answered p .fail) :
    exec .payloadEncrypt s = raiseError .payloadEncrypt .entropyUnavailable none s := by
  obtain ⟨hin, hpos, hout⟩ := h.passes
  simp only [exec, execPayloadEncrypt, hin, hpos, hout, hs, if_false]

/-- The key is tested when the IV is there, and the IV write is made before. -/
theorem exec_payloadEncrypt_noKey {s : State} {r : List Byte} (h : PayloadEncryptFits s)
    (hs : s.stage = .answered .iv (.ok r)) (hkey : s.keyWr ≠ 0b1111) :
    exec .payloadEncrypt s = raiseError .payloadEncrypt .encryptionFailure (some r) s := by
  obtain ⟨hin, hpos, hout⟩ := h.passes
  simp only [exec, execPayloadEncrypt, hin, hpos, hout, hs, if_false, if_neg (mt (keyValid_iff s).1 hkey)]

/-- Settles O36: each test of PAYLOAD_ENCRYPT, the answer `Fail` and then the key test raises its error. -/
theorem payloadEncryptFailsInItsOrder : Obligations.PayloadEncryptFailsInItsOrder := fun _ =>
  ⟨fun hin => failsWith_of_raiseError (exec_payloadEncrypt_inputTooLong hin) nofun,
    fun hn => failsWith_of_raiseError (exec_payloadEncrypt_empty hn) nofun,
    fun hpos hin hout => failsWith_of_raiseError (exec_payloadEncrypt_noRoom hpos hin hout) nofun,
    fun hpos hfit =>
      ⟨fun _ hs => failsWith_of_raiseError (exec_payloadEncrypt_noEntropy ⟨hpos, hfit⟩ hs) nofun,
        fun _ hs hr hkey =>
          failsWith_of_raiseError (exec_payloadEncrypt_noKey ⟨hpos, hfit⟩ hs hkey) (length_of_some_eq hr)⟩⟩

-- What ParseFrame and `B64_Decode` can fail with (R53, R75)

theorem parseFrame_error {b : List Byte} {e : ErrorCode} (h : parseFrame b = .error e) : e = .corrupted ∨ e = .malformed := by
  unfold parseFrame at h
  split_ifs at h <;> cases h
  · exact .inr rfl
  · exact .inl rfl
  · exact .inr rfl

theorem base64Decode_of_ne_ok {b : List Byte} (h : ∀ d, base64Decode b ≠ .ok d) : base64Decode b = .error .decodeError :=
  base64Decode_of_not_accepts fun haccepts => ((base64Decode_ok_iff b).2 haccepts).elim h

-- The moves of PAYLOAD_DECRYPT (R79)

theorem exec_payloadDecrypt_inputTooLong {s : State} (hin : bufBytes s < inLength s) :
    exec .payloadDecrypt s = raiseError .payloadDecrypt .lengthError none s := by
  simp only [exec, execPayloadDecrypt, if_pos hin]

theorem exec_payloadDecrypt_of_error {s : State} {e : ErrorCode} (hin : inLength s ≤ bufBytes s)
    (h : base64Decode (stringOf s) = .error e) : exec .payloadDecrypt s = raiseError .payloadDecrypt e none s := by
  rw [stringOf] at h
  simp only [exec, execPayloadDecrypt, if_neg (Nat.not_lt.2 hin), h]

/-- The length test of R79 on an envelope: an IV, and then at least one whole block. -/
def EnvelopeFits (env : List Byte) : Prop := 16 < env.length ∧ env.length % 16 = 0

theorem not_envelopeFits_iff (env : List Byte) :
    ¬ EnvelopeFits env ↔ env.length ≤ 16 ∨ (env.length - 16) % 16 ≠ 0 := by
  unfold EnvelopeFits
  omega

theorem exec_payloadDecrypt_badEnvelope {s : State} {env : List Byte} (hin : inLength s ≤ bufBytes s)
    (hdec : base64Decode (stringOf s) = .ok env) (henv : ¬ EnvelopeFits env) :
    exec .payloadDecrypt s = raiseError .payloadDecrypt .malformed none s := by
  rw [stringOf] at hdec
  simp only [exec, execPayloadDecrypt, if_neg (Nat.not_lt.2 hin), hdec, if_pos ((not_envelopeFits_iff env).1 henv)]

theorem exec_payloadDecrypt_envelope {s : State} {env : List Byte} (hin : inLength s ≤ bufBytes s)
    (hdec : base64Decode (stringOf s) = .ok env) (henv : EnvelopeFits env) :
    exec .payloadDecrypt s = decryptEnvelope env s := by
  rw [stringOf] at hdec
  simp only [exec, execPayloadDecrypt, if_neg (Nat.not_lt.2 hin), hdec,
    if_neg (mt (not_envelopeFits_iff env).2 (not_not_intro henv))]

theorem decryptEnvelope_noKey {s : State} (env : List Byte) (hkey : s.keyWr ≠ 0b1111) :
    decryptEnvelope env s = raiseError .payloadDecrypt .encryptionFailure (some (env.take 16)) s := by
  simp only [decryptEnvelope, if_neg (mt (keyValid_iff s).1 hkey)]

theorem decryptEnvelope_of_error {s : State} {env : List Byte} {e : ErrorCode} (hkey : s.keyWr = 0b1111)
    (h : parseFrame (cbcDec s.key.bytes (env.take 16) (env.drop 16)) = .error e) :
    decryptEnvelope env s = raiseError .payloadDecrypt e (some (env.take 16)) s := by
  simp only [decryptEnvelope, if_pos ((keyValid_iff s).2 hkey), h]

theorem decryptEnvelope_of_ok {s : State} {env m : List Byte} (hkey : s.keyWr = 0b1111)
    (h : parseFrame (cbcDec s.key.bytes (env.take 16) (env.drop 16)) = .ok m) :
    decryptEnvelope env s = finishOk .payloadDecrypt m true (some (env.take 16)) s := by
  simp only [decryptEnvelope, if_pos ((keyValid_iff s).2 hkey), h]

/-- The IV of an envelope that passes the length test is 16 bytes. -/
theorem EnvelopeFits.iv_length {env : List Byte} (h : EnvelopeFits env) :
    ∀ b, some (env.take 16) = some b → b.length = 16 := length_of_some_eq (List.length_take_of_le h.1.le)

-- How PAYLOAD_DECRYPT ends (R79, R83)

/-- A message is no longer than its frame, which is shorter than the transport string in IBUF. -/
theorem decryptedMessage_length_le {s : State} {env m : List Byte} (hdec : base64Decode (stringOf s) = .ok env)
    (h : parseFrame (cbcDec s.key.bytes (env.take 16) (env.drop 16)) = .ok m) : m.length ≤ inLength s := calc
  m.length ≤ (cbcDec s.key.bytes (env.take 16) (env.drop 16)).length :=
    (Nat.le_add_right _ 8).trans (parseFrame_length_le h)
  _ ≤ (env.drop 16).length := cbcDec_length_le _ _ _
  _ ≤ env.length := (List.drop_sublist 16 env).length_le
  _ ≤ (stringOf s).length := base64Decode_length_le hdec
  _ ≤ inLength s := inputString_length_le s _

/-- Settles O37: past its tests PAYLOAD_DECRYPT finishes with the message, which fits OBUF because the string fitted IBUF. -/
theorem payloadDecryptWritesTheMessage : Obligations.PayloadDecryptWritesTheMessage := by
  intro s env m hin hdec hmin hblocks hkey hparse
  have henv : EnvelopeFits env := ⟨hmin, hblocks⟩
  have hexec := (exec_payloadDecrypt_envelope hin hdec henv).trans (decryptEnvelope_of_ok hkey hparse)
  exact succeedsWith_of_finishOk hexec ((decryptedMessage_length_le hdec hparse).trans hin) henv.iv_length

/-- Settles O38: IN_LEN, the string, the envelope's length, the key and the frame are tested in this order, the last two with
the IV written. -/
theorem payloadDecryptFailsInItsOrder : Obligations.PayloadDecryptFailsInItsOrder := by
  refine fun s => ⟨fun hin => failsWith_of_raiseError (exec_payloadDecrypt_inputTooLong hin) nofun, fun hin =>
    ⟨fun hne => failsWith_of_raiseError (exec_payloadDecrypt_of_error hin (base64Decode_of_ne_ok hne)) nofun,
    fun env hdec => ⟨fun hbad => failsWith_of_raiseError (exec_payloadDecrypt_badEnvelope hin hdec ?_) nofun,
    fun hmin hblocks => ?_⟩⟩⟩
  · rintro ⟨hmin, hblocks⟩
    exact hbad.elim (Nat.not_le.2 hmin) (absurd hblocks)
  · have henv : EnvelopeFits env := ⟨hmin, hblocks⟩
    have hexec := exec_payloadDecrypt_envelope hin hdec henv
    exact ⟨fun hkey => failsWith_of_raiseError (hexec.trans (decryptEnvelope_noKey env hkey)) henv.iv_length,
      fun e hkey he => ⟨failsWith_of_raiseError (hexec.trans (decryptEnvelope_of_error hkey he)) henv.iv_length,
        parseFrame_error he⟩⟩

-- The envelope and its string (R78, R79)

/-- The envelope of a frame (R78): the IV and the ciphertext. -/
def envelopeOf (k iv frame : List Byte) : List Byte := iv ++ cbcEnc k iv frame

theorem envelopeOf_length (k : List Byte) {iv frame : List Byte} {n : Nat} (hiv : iv.length = 16)
    (hframe : frame.length = paddedSize n) : (envelopeOf k iv frame).length = 16 + paddedSize n := by
  rw [envelopeOf, List.length_append, hiv, cbcEnc_length, hframe,
    Nat.mul_div_cancel' (Nat.dvd_of_mod_eq_zero (paddedSize_mod n))]

theorem take_envelopeOf (k : List Byte) {iv : List Byte} (hiv : iv.length = 16) (frame : List Byte) :
    (envelopeOf k iv frame).take 16 = iv := List.take_left' hiv

theorem drop_envelopeOf (k : List Byte) {iv : List Byte} (hiv : iv.length = 16) (frame : List Byte) :
    (envelopeOf k iv frame).drop 16 = cbcEnc k iv frame := List.drop_left' hiv

theorem frameLayout_length_eq_paddedSize {m r : List Byte} (hr : r.length = paddedSize m.length) :
    (frameLayout m r).length = paddedSize m.length := (frameLayout_length (frame_fits hr)).trans hr

/-- The frame of an envelope is got back with the key, and parses to the message it was built from. -/
theorem parseFrame_cbcDec_envelopeOf (k : List Byte) {iv m r : List Byte} (hiv : iv.length = 16) (hm : m.length < 2 ^ 32)
    (hr : r.length = paddedSize m.length) :
    parseFrame (cbcDec k ((envelopeOf k iv (frameLayout m r)).take 16) ((envelopeOf k iv (frameLayout m r)).drop 16)) =
      .ok m := by
  have hblocks : (frameLayout m r).length % 16 = 0 := by
    rw [frameLayout_length_eq_paddedSize hr, paddedSize_mod]
  rw [take_envelopeOf k hiv, drop_envelopeOf k hiv, cbcDecryptInvertsEncrypt k iv _ hiv hblocks,
    parseFrame_frameLayout hm hr]

theorem b64Symbol_ne_zero (v : BitVec 6) : b64Symbol v ≠ 0 := by
  intro h
  have hzero : b64Value 0 = some v := h ▸ b64Value_b64Symbol v
  cases hzero

/-- No character of a base64 string is the terminator. -/
theorem ne_zero_of_mem_base64Encode {b : List Byte} {ch : Byte} (h : ch ∈ base64Encode b) : ch ≠ 0 := by
  obtain ⟨vs, p, -, henc, -⟩ := base64Encode_eq_paddedSymbols b
  rw [henc, paddedSymbols, List.mem_append, List.mem_map] at h
  rcases h with ⟨v, -, rfl⟩ | hpad
  · exact b64Symbol_ne_zero v
  · rw [List.eq_of_mem_replicate hpad]
    decide

/-- A string without 0x00 is read whole, whether or not IN_LEN counts its terminator. -/
theorem stringOf_eq_of_messageOf {u : State} {str : List Byte} (hstr : ∀ ch ∈ str, ch ≠ 0)
    (h : messageOf u = str ∨ messageOf u = str ++ [0]) : stringOf u = str := by
  have hstring : stringOf u = (messageOf u).takeWhile (fun b => b != 0) := rfl
  have hkeeps : ∀ ch ∈ str, (ch != 0) = true := fun ch hch => bne_iff_ne.2 (hstr ch hch)
  rcases h with hu | hu <;> rw [hstring, hu]
  · exact List.takeWhile_eq_self_iff.2 hkeeps
  · rw [List.takeWhile_append_of_pos hkeeps]
    exact List.append_nil str

theorem inLength_le_of_messageOf {u : State} {str : List Byte} (h : messageOf u = str ∨ messageOf u = str ++ [0]) :
    inLength u ≤ str.length + 1 := by
  have hlength : (messageOf u).length = inLength u := inputBytes_length u _
  rcases h with hu | hu <;> rw [hu] at hlength
  · omega
  · rw [List.length_append, List.length_singleton] at hlength
    omega

-- The entropy exchanges of PAYLOAD_ENCRYPT (R78, R91)

/-- The machine once it has asked the entropy port for `p` and was answered `Ok(r)`. -/
def afterAnswer (p : Purpose) (r : List Byte) (s : State) : State :=
  { s with request := none, nextTag := s.nextTag + 1, stage := .answered p (.ok r) }

/-- The machine with the frame in FRAME. -/
def withFrame (f : List Byte) (s : State) : State := { s with scratch := { s.scratch with frame := .holds f } }

/-- An answer of the length asked for, under the request's own tag, is taken. -/
theorem receiveAnswer_requestEntropy (p : Purpose) {n : Nat} {r : List Byte} (s : State) (hr : r.length = n) :
    receiveAnswer s.nextTag (.ok r) (requestEntropy p n s) = .next (afterAnswer p r s) := by
  have hfit : answerFits n (.ok r) = true := by simpa [answerFits] using hr
  simp only [receiveAnswer, requestEntropy, if_true, hfit]
  rfl

/-- The filler's answer makes the frame of R48, with which the command asks for the IV. -/
theorem exec_payloadEncrypt_afterFiller {s : State} {r : List Byte} (h : PayloadEncryptFits s)
    (hr : r.length = paddedSize (inLength s)) :
    exec .payloadEncrypt (afterAnswer .filler r s) =
      .next (requestEntropy .iv 16 (withFrame (frameLayout (messageOf s) r) (afterAnswer .filler r s))) := by
  have hmessage : (messageOf s).length = inLength s := inputBytes_length s _
  rw [← buildFrame_eq_frameLayout (frame_fits (hmessage ▸ hr))]
  exact exec_payloadEncrypt_filler (s := afterAnswer .filler r s) h rfl

theorem frameLayout_messageOf_length {s : State} {r : List Byte} (hr : r.length = paddedSize (inLength s)) :
    (frameLayout (messageOf s) r).length = paddedSize (inLength s) := by
  have hmessage : (messageOf s).length = inLength s := inputBytes_length s _
  rw [frameLayout_length_eq_paddedSize (hmessage ▸ hr), hmessage]

/-- PAYLOAD_ENCRYPT from its start through both answers to its success (R78). -/
theorem payloadEncrypt_run {s : State} {r1 r2 : List Byte} (h : PayloadEncryptFits s) (hs : s.stage = .fresh)
    (hkey : s.keyWr = 0b1111) (hr1 : r1.length = paddedSize (inLength s)) (hr2 : r2.length = 16) :
    ∃ s1 a1 s2 a2, exec .payloadEncrypt s = .next s1 ∧ receiveAnswer s.nextTag (.ok r1) s1 = .next a1 ∧
      exec .payloadEncrypt a1 = .next s2 ∧ receiveAnswer (s.nextTag + 1) (.ok r2) s2 = .next a2 ∧
      SucceedsWith .payloadEncrypt a2
        (base64Encode (envelopeOf s.key.bytes r2 (frameLayout (messageOf s) r1))) true (some r2) := by
  obtain ⟨hpos, hfit⟩ := h
  obtain ⟨hsucceeds, -⟩ := payloadEncryptWritesTheTransportString
    (afterAnswer .iv r2 (withFrame (frameLayout (messageOf s) r1) (afterAnswer .filler r1 s))) r2 _
    hpos hfit rfl hr2 rfl (frameLayout_messageOf_length hr1) hkey
  exact ⟨_, _, _, _, exec_payloadEncrypt_fresh ⟨hpos, hfit⟩ hs, receiveAnswer_requestEntropy .filler s hr1,
    exec_payloadEncrypt_afterFiller ⟨hpos, hfit⟩ hr1, receiveAnswer_requestEntropy .iv _ hr2, hsucceeds⟩

-- The round trip (R80)

/-- PAYLOAD_DECRYPT, under the key, of the transport string of a message, with or without its terminator. -/
theorem payloadDecrypt_of_transportString {u : State} {iv m r : List Byte} (hin : inLength u ≤ bufBytes u)
    (hkey : u.keyWr = 0b1111) (hiv : iv.length = 16) (hm : m.length < 2 ^ 32) (hr : r.length = paddedSize m.length)
    (hu : messageOf u = base64Encode (envelopeOf u.key.bytes iv (frameLayout m r)) ∨
      messageOf u = base64Encode (envelopeOf u.key.bytes iv (frameLayout m r)) ++ [0]) :
    SucceedsWith .payloadDecrypt u m true (some iv) := by
  have hdec : base64Decode (stringOf u) = .ok (envelopeOf u.key.bytes iv (frameLayout m r)) := by
    rw [stringOf_eq_of_messageOf (fun _ => ne_zero_of_mem_base64Encode) hu, base64Decode_base64Encode]
  have hpad := add_eight_le_paddedSize m.length
  have hblocks := paddedSize_mod m.length
  have hlen := envelopeOf_length u.key.bytes hiv (frameLayout_length_eq_paddedSize hr)
  have hsucceeds := payloadDecryptWritesTheMessage u _ m hin hdec (by omega) (by omega) hkey
    (parseFrame_cbcDec_envelopeOf _ hiv hm hr)
  rwa [take_envelopeOf _ hiv] at hsucceeds

/-- Settles O52: the run of PAYLOAD_ENCRYPT ends with the transport string, which PAYLOAD_DECRYPT undoes layer by layer. -/
theorem payloadRoundTrip : Obligations.PayloadRoundTrip := by
  intro s r1 r2 hs hpos hfit hkey hr1 hr2
  have hmessage : (messageOf s).length = inLength s := inputBytes_length s _
  have hframe := frameLayout_messageOf_length hr1
  have hstring : (base64Encode (envelopeOf s.key.bytes r2 (frameLayout (messageOf s) r1))).length =
      base64Length (16 + paddedSize (inLength s)) := payloadString_length hr2 hframe
  obtain ⟨s1, a1, s2, a2, hmove1, hanswer1, hmove2, hanswer2, t, hmove3, ht⟩ :=
    payloadEncrypt_run ⟨hpos, hfit⟩ hs hkey hr1 hr2
  refine ⟨s1, a1, s2, a2, t, _, hmove1, hanswer1, hmove2, hanswer2, hmove3, ht.does.done, ht.err, ht.outLen, ht.result,
    ht.terminator rfl, ⟨_, base64Decode_base64Encode _, envelopeOf_length _ hr2 hframe⟩,
    fun u hconfig hukey hukeyWr hu => ?_⟩
  have hin := inLength_le_of_messageOf hu
  have hbuf : bufBytes u = bufBytes s := congrArg Config.bufBytes hconfig
  have hm : (messageOf s).length < 2 ^ 32 := hmessage ▸ s.inLen.isLt
  rw [← hukey] at hu
  exact payloadDecrypt_of_transportString (by omega) hukeyWr hr2 hm (hmessage.symm ▸ hr1) hu

end Sys2Proof.Machine
end

section
/-! Proofs of the family 60_exceptions: when the engine rests (R89, R91), which entropy answers are taken and which are
discarded (R91, R99, R100), what the diagnostic sink changes (R92), when the key is cleared (R88), and when `irq` rises and
falls (R90). -/

namespace Sys2Proof.Machine

-- The engine at rest (R89, R91)

/-- Settles O6: of the two things the engine's move can do, it runs a command only while busy and waiting for nothing. -/
theorem engineRestsWhileIdleOrUnanswered : Obligations.EngineRestsWhileIdleOrUnanswered := by
  intro s es he hrest
  rw [step_of_engine_event he]
  rcases engineMove_cases (s.withEvents es) with ⟨-, hx⟩ | ⟨cmd, hp, hw, -⟩
  · exact hx
  · rcases hrest with hidle | hwait
    · cases hidle.symm.trans hp
    · cases hwait.symm.trans hw

-- Entropy answers (R91, R100)

/-- The answer to the outstanding request, of the length asked for, is taken. -/
theorem receiveAnswer_of_match {s : State} {q : Request} {a : Answer} (hq : s.request = some q)
    (hfit : answerFits q.size a = true) :
    receiveAnswer q.tag a s = .next { s with request := none, stage := .answered q.purpose a } := by
  simp only [receiveAnswer, hq, hfit, if_true]

/-- An answer under another tag than the outstanding request's, or while there is none, is discarded. -/
theorem receiveAnswer_of_no_match {s : State} {tag : Nat} (h : ∀ q, s.request = some q → q.tag ≠ tag) (a : Answer) :
    receiveAnswer tag a s = .next s := by
  unfold receiveAnswer
  split
  next => rfl
  next q hq => exact if_neg (h q hq)

theorem step_of_unmatched_answer {s : State} {tag : Nat} {a : Answer} {es : List Event}
    (he : s.events = .entropy tag a :: es) (h : ∀ q, s.request = some q → q.tag ≠ tag) :
    step s = .next (s.withEvents es) := by
  rw [step_of_entropy_event he]
  exact receiveAnswer_of_no_match (s := s.withEvents es) h a

/-- Settles O19: the request's own answer is taken, every other is discarded. -/
theorem entropyAnswerEndsItsOwnWait : Obligations.EntropyAnswerEndsItsOwnWait := by
  intro s tag a es he
  refine ⟨?_, step_of_unmatched_answer he⟩
  rintro q hq rfl hfit
  rw [step_of_entropy_event he]
  exact receiveAnswer_of_match (s := s.withEvents es) hq hfit

-- Answers that come after a reset (R91, R99, R100)

/-- The tag `k` was given out, and no request that bears it is outstanding: its request was answered or abandoned. -/
def TagSpent (k : Nat) (s : State) : Prop := k < s.nextTag ∧ ∀ q, s.request = some q → q.tag ≠ k

/-- A tag once given out is spent as soon as no request is outstanding. -/
theorem tagSpent_of_quiet {k : Nat} {s : State} (hk : k < s.nextTag) (hr : s.request = none) : TagSpent k s :=
  ⟨hk, fun q hq => by cases hr.symm.trans hq⟩

/-- A new request takes a tag that was not given out before. -/
theorem requestEntropy_tagSpent {k : Nat} {s : State} (hk : k < s.nextTag) (p : Purpose) (n : Nat) :
    TagSpent k (requestEntropy p n s) := by
  refine ⟨Nat.lt_succ_of_lt hk, fun q hq => ?_⟩
  cases hq
  exact Nat.ne_of_gt hk

theorem failCompletion_tagSpent {k : Nat} {s : State} (hk : k < s.nextTag) (b : Bool) (code : ErrorCode)
    (iv : Option (List Byte)) : TagSpent k (failCompletion b code iv s) :=
  tagSpent_of_quiet (by simpa using hk) (by simp)

theorem exec_tagSpent {k : Nat} {i : Instr} {s t : State} (hk : k < s.nextTag) (h : exec i s = .next t) : TagSpent k t := by
  rcases exec_cases i s with ⟨p, n, sc, hx⟩ | ⟨out, nul, iv, hx⟩ | ⟨code, iv, hx⟩ <;> cases hx.symm.trans h
  · exact requestEntropy_tagSpent hk p n
  · exact tagSpent_of_quiet (by simpa using hk) (by simp)
  · exact failCompletion_tagSpent hk (keyUsing i) code iv

theorem Move.tagSpent {k : Nat} {s t : State} (hs : TagSpent k s) (h : Move s t) : TagSpent k t := by
  cases h with
  | command _ _ _ hx => exact exec_tagSpent hs.1 hx
  | illegal => exact failCompletion_tagSpent hs.1 false .illegalCommand none
  | answer | reset => exact tagSpent_of_quiet hs.1 rfl
  | rest | sink | draw | ignore | clear | irqEn | start | inLen | key | iv | ibuf => exact hs

/-- A spent tag stays spent along every run, whatever the events to come. -/
theorem run_tagSpent {k n : Nat} {s t : State} (hs : TagSpent k s) (h : Sys2Proof.core.run n s = .next t) : TagSpent k t :=
  run_keeps (M := Sys2Proof.core) (P := TagSpent k)
    (step_keeps (fun _ _ h => h) (fun _ _ _ h => h) fun _ _ hs h => h.tagSpent hs) n s t hs h

theorem step_of_softReset {s : State} {v : Word} {es : List Event} (hv : v.getLsbD 1 = true)
    (he : s.events = .host (busWrite 0x08 v) :: es) :
    step s = .next (respond false 0 (enterReset (s.withEvents es))) := by
  rw [step_of_host_event he, hostAccess_softReset hv]

/-- Either reset abandons the outstanding request and leaves the tag counter as it is (R99, R100). -/
theorem request_nextTag_of_reset_step {s t : State} {es : List Event}
    (he : s.events = .powerOn :: es ∨ ∃ v : Word, v.getLsbD 1 = true ∧ s.events = .host (busWrite 0x08 v) :: es)
    (h : step s = .next t) : t.request = none ∧ t.nextTag = s.nextTag := by
  rcases he with he | ⟨v, hv, he⟩
  · cases (step_of_powerOn_event he).symm.trans h
    exact ⟨rfl, rfl⟩
  · cases (step_of_softReset hv he).symm.trans h
    exact ⟨rfl, rfl⟩

/-- Settles O22: a reset leaves no request outstanding, and the tag it abandons stays spent. -/
theorem answerAfterResetIsDiscarded : Obligations.AnswerAfterResetIsDiscarded := by
  refine ⟨fun s v tag a es hv he => ?_, fun s t u q n a es fs _ htag he ht hu hue => ?_⟩
  · exact ⟨_, step_of_softReset hv he, step_of_unmatched_answer rfl nofun⟩
  · obtain ⟨hrequest, hnext⟩ := request_nextTag_of_reset_step he ht
    have hspent : TagSpent q.tag t := tagSpent_of_quiet (hnext ▸ htag) hrequest
    exact step_of_unmatched_answer hue (run_tagSpent hspent hu).2

-- The diagnostic sink (R92)

/-- Settles O24: the sink's move drops the oldest event from the port. -/
theorem sinkChangesNoEngineState : Obligations.SinkChangesNoEngineState := by
  intro s lost es he
  rw [step_of_sink_event he]
  rfl

-- The key clear (R88)

/-- The key after a command's move: as it was while the command goes on, and cleared by the completion of a key-using
command. -/
theorem exec_key {i : Instr} {s t : State} (h : exec i s = .next t) :
    (t.phase = s.phase ∧ t.key = s.key ∧ t.keyWr = s.keyWr) ∨
    (t.phase = .idle ∧ t.key = (if keyUsing i then Quad.zero else s.key) ∧
      t.keyWr = if keyUsing i then 0 else s.keyWr) := by
  rcases exec_cases i s with ⟨p, n, sc, hx⟩ | ⟨out, nul, iv, hx⟩ | ⟨code, iv, hx⟩ <;> cases hx.symm.trans h
  · exact .inl ⟨rfl, rfl, rfl⟩
  · exact .inr ⟨by simp, by simp, by simp⟩
  · exact .inr ⟨by simp, by simp, by simp⟩

/-- The key-using commands are the opcodes R88 lists. -/
theorem keyUsing_iff (i : Instr) :
    keyUsing i = true ↔ opcodeOf i = 0x4 ∨ opcodeOf i = 0x5 ∨ opcodeOf i = 0x8 ∨ opcodeOf i = 0x9 := by
  cases i <;> decide

/-- KEY_VALID = 1 needs every KEY_WR bit (R20). -/
theorem keyValid_eq_false {s : State} {k : Fin 4} (h : s.keyWr.getLsbD k.val = false) : keyValid s = false := by
  have hall : ∀ j : Fin 4, (0b1111#4).getLsbD j.val = true := by decide
  rw [Bool.eq_false_iff, Ne, keyValid_iff]
  intro hkey
  cases (hall k).symm.trans (hkey ▸ h)

/-- Settles O39: the key after a command's move, and after the completion of an illegal value. -/
theorem keyUsingCompletionClearsTheKey : Obligations.KeyUsingCompletionClearsTheKey := by
  refine ⟨keyUsing_iff, fun i s t cmd hp h => ?_, fun s t cmd hill h => ?_, fun s k => keyValid_eq_false⟩
  · rcases exec_key h with ⟨hphase, hkey, hwr⟩ | ⟨hphase, hkey, hwr⟩
    · refine ⟨fun hidle _ => ?_, fun _ => ⟨hkey, hwr⟩⟩
      cases hp.symm.trans (hphase.symm.trans hidle)
    · refine ⟨fun _ huse => ?_, fun hkept => ?_⟩
      · rw [if_pos huse] at hkey hwr
        exact ⟨hkey ▸ quad_bytes_zero, hwr, keyValid_eq_false (k := 0) (by simp [hwr])⟩
      · have huse : keyUsing i = false := hkept.resolve_left (not_not_intro hphase)
        simpa [huse] using And.intro hkey hwr
  · cases (runCommand_of_illegal hill s).symm.trans h
    exact ⟨failCompletion_key _ _ _ _, failCompletion_keyWr _ _ _ _⟩

-- The interrupt line (R90)

/-- A command completes from `s` to `t`: BUSY falls, and IRQ_EN is as it was. -/
structure Completes (s t : State) : Prop where
  busy : ∃ cmd, s.phase = .busy cmd
  idle : t.phase = .idle
  irqEn : t.irqEn = s.irqEn

/-- A command that goes on leaves DONE as it was; one that does not completes. -/
theorem exec_done {i : Instr} {cmd : Word} {s t : State} (hp : s.phase = .busy cmd) (h : exec i s = .next t)
    (hd : t.done = true) : s.done = true ∨ Completes s t := by
  obtain ⟨-, hen, -, -, -, -, -, -, hgoesOn, -⟩ := commandMoveFrame i s t cmd hp h
  by_cases hidle : t.phase = .idle
  · exact .inr ⟨⟨cmd, hp⟩, hidle, hen⟩
  · exact .inl ((congrArg State.done (hgoesOn hidle)).symm.trans hd)

/-- The engine sets DONE at a completion only (R86, R87). -/
theorem engineMove_done {s t : State} (h : engineMove s = .next t) (hd : t.done = true) : s.done = true ∨ Completes s t := by
  rcases engineMove_cases s with ⟨-, hx⟩ | ⟨cmd, hp, -, hx⟩ <;> rw [hx] at h
  · cases h
    exact .inl hd
  · rw [runCommand_eq] at h
    split at h
    next => exact exec_done hp h hd
    next =>
      cases h
      exact .inr ⟨⟨cmd, hp⟩, failCompletion_phase _ _ _ _, failCompletion_irqEn _ _ _ _⟩

/-- No write of the host sets DONE: a STATUS write, a command start and a reset can only clear it. -/
theorem writeTarget_done {x : Target} {v : Word} {s : State} (h : (writeTarget x v s).done = true) : s.done = true := by
  rcases writeTarget_cases x v s with hx | ⟨-, hx⟩ | ⟨-, hx⟩ | ⟨-, -, hx⟩ | ⟨-, -, hx⟩ | ⟨-, hidle⟩
  · rwa [hx] at h
  · rwa [hx] at h
  · rw [hx, clearByStatusWrite_done] at h
    exact (Bool.and_eq_true_iff.1 h).1
  · rw [hx] at h
    cases h
  · rwa [hx] at h
  · rcases hidle with ⟨-, hx⟩ | ⟨-, hx⟩ | ⟨k, -, hx⟩ | ⟨k, -, hx⟩ | ⟨k, -, hx⟩ <;> rw [hx] at h
    · cases h
    all_goals exact h

/-- No access of the host sets DONE. -/
theorem hostAccess_done {a : Access} {s : State} (h : (hostAccess a s).done = true) : s.done = true := by
  rcases hostAccess_cases a s with ⟨-, hx⟩ | ⟨-, off, w, -, hx⟩ | ⟨-, off, w, v, -, hx⟩ <;> rw [hx] at h
  · exact h
  · rcases readTarget_cases (accessTarget a s) s with ⟨-, -, hr⟩ | ⟨-, hr⟩ <;> rw [hr] at h <;> exact h
  · exact writeTarget_done h

/-- DONE is set at a completion only, whatever agent moves. -/
theorem step_done {s t : State} (h : step s = .next t) (hd : t.done = true) : s.done = true ∨ Completes s t := by
  rcases step_cases h with ⟨es, hm⟩ | ⟨a, es, rfl⟩ | ⟨tag, a, es, -, hm⟩ | ⟨es, rfl⟩ | ⟨es, rfl⟩
  · exact (engineMove_done hm hd).imp id fun hc => ⟨hc.busy, hc.idle, hc.irqEn⟩
  · exact .inl (hostAccess_done (s := s.withEvents es) hd)
  · rcases receiveAnswer_cases hm with ⟨q, -, -, -, rfl⟩ | ⟨rfl, -⟩ <;> exact .inl hd
  · exact .inl hd
  · cases hd

theorem irq_eq_true_iff (s : State) : irq s = true ↔ s.done = true ∧ s.irqEn = true := Bool.and_eq_true_iff

theorem irq_eq_false_iff (s : State) : irq s = false ↔ s.done = false ∨ s.irqEn = false := Bool.and_eq_false_iff

/-- Where `irq` rises without a completion DONE was 1 already, so IRQ_EN was 0. -/
theorem irq_rise {s t : State} (h : step s = .next t) (hs : irq s = false) (ht : irq t = true) :
    (∃ cmd, s.phase = .busy cmd ∧ t.phase = .idle ∧ s.irqEn = true) ∨
    (s.done = true ∧ s.irqEn = false ∧ t.irqEn = true) := by
  obtain ⟨htdone, hten⟩ := (irq_eq_true_iff t).1 ht
  rcases step_done h htdone with hsdone | ⟨⟨cmd, hp⟩, hidle, hkept⟩
  · exact .inr ⟨hsdone, ((irq_eq_false_iff s).1 hs).resolve_left (by simp [hsdone]), hten⟩
  · exact .inl ⟨cmd, hp, hidle, hkept ▸ hten⟩

/-- A STATUS write of bit 1 leaves DONE = 0 (R20). -/
theorem hostAccess_statusWrite_done {v : Word} (hv : v.getLsbD 1 = true) (s : State) :
    (hostAccess (busWrite 0x04 v) s).done = false := by
  rw [statusWriteClearsOnlyItsThreeBits s v]
  simp [hv]

/-- A CTRL write with bit 0 = 0 leaves IRQ_EN = 0, also where it is a soft reset (R21, R100). -/
theorem hostAccess_ctrlWrite_irqEn {v : Word} (hv : v.getLsbD 0 = false) (s : State) :
    (hostAccess (busWrite 0x08 v) s).irqEn = false := by
  have hwrite : hostAccess (busWrite 0x08 v) s = respond false 0 (writeTarget .ctrl v s) := hostAccess_busWrite rfl v s
  rw [hwrite, writeTarget_ctrl]
  rcases writeCtrl_cases v s with ⟨-, h⟩ | ⟨-, h⟩ <;> rw [h]
  · rfl
  · exact hv

/-- Settles O18: how `irq` rises, and the writes and the reset after which it is 0. -/
theorem irqRisesOnlyAtCompletionOrEnable : Obligations.IrqRisesOnlyAtCompletionOrEnable := by
  refine ⟨fun s t => irq_rise, fun s v => ⟨fun hv => ?_, fun hv => ?_, fun hp => ?_, (enterReset_resetValues s).irq⟩⟩
  · exact (irq_eq_false_iff _).2 (.inl (hostAccess_statusWrite_done hv s))
  · exact (irq_eq_false_iff _).2 (.inr (hostAccess_ctrlWrite_irqEn hv s))
  · obtain ⟨-, -, hirq⟩ := (cmdWriteStartsACommand s v).1 hp
    exact hirq

end Sys2Proof.Machine
end
